-- ==== Sys2Proof/Word.lean ====
section
/-! DEFINITION. The interface words of the block (20_memory.md rule R53, 30_encoding.md rule R70): every word that
crosses the interface has 32 bits, bit 0 the least significant (00_scope.md rule R9). A binary32 value is held as
its bit pattern (rule R10): sign in bit 31, biased exponent in bits 30:23, fraction in bits 22:0. -/

namespace Sys2Proof

/-- A 32-bit interface word: `CMD`, `OPA`, `OPB`, `RESA`, `RESB` (rule R70). -/
abbrev Word := BitVec 32

/-- An IEEE 754 binary32 value as its bit pattern (rule R10). -/
abbrev F32 := BitVec 32

/-- One byte of a word where a platform carries the words over a byte-addressed bus (rule R54). -/
abbrev Byte := BitVec 8

end Sys2Proof
end

