-- ==== Sys2Proof/Syntax.lean ====
section
/-! DEFINITION. The thirteen commands of 30_encoding.md rule R73, one constructor per row of spec/opcode_table.json.
A selector is a name, never a raw field; an operand is the interface word as presented (rule R74), and a command that
ignores an operand word does not hold it. -/

namespace Sys2Proof

/-- The demodulation mode of `RX_SAMPLE` (00_scope.md rule R15): `SEL` 0 is voice/SSB, 1 is CW. -/
inductive RxMode where
  | ssb
  | cw
deriving DecidableEq, Repr

/-- The register `READ` selects (10_state.md rule R33). -/
inductive ReadReg where
  | smeter
  | micPeak
  | env
  | status
deriving DecidableEq, Repr

/-- The DC-blocker instances (10_state.md rule R23). -/
inductive DcbInst where
  | rxI
  | rxQ
  | tx
deriving DecidableEq, Repr

/-- The all-pass cascade instances (10_state.md rule R23). -/
inductive ApInst where
  | rxP
  | rxN
  | txP
  | txN
deriving DecidableEq, Repr

/-- The FIR convolver instances (10_state.md rule R23). -/
inductive FirInst where
  | rxSsb
  | rxCw
  | txShape
  | txI
  | txQ
deriving DecidableEq, Repr

/-- The moving-average smoother instances (10_state.md rule R23). -/
inductive MaInst where
  | rxI
  | rxQ
deriving DecidableEq, Repr

/-- A command (rule R73). -/
inductive Instr where
  /-- `NOP` (rule R230). -/
  | nop
  /-- `RX_SAMPLE` (rule R140): mode, I code word, Q code word. -/
  | rxSample (mode : RxMode) (opa opb : Word)
  /-- `TX_SAMPLE` (rule R190): microphone code word. -/
  | txSample (opa : Word)
  /-- `AGC_MUTE` (rule R163). -/
  | agcMute
  /-- `SMETER_UPDATE` (rule R169). -/
  | smeterUpdate
  /-- `MIC_SAMPLE` (rule R210): microphone code word, host time. -/
  | micSample (opa opb : Word)
  /-- `READ` (rule R231). -/
  | read (reg : ReadReg)
  /-- `STATUS_CLEAR` (rule R232). -/
  | statusClear
  /-- `DCB_STEP` (rule R101): instance, binary32 input. -/
  | dcbStep (inst : DcbInst) (opa : Word)
  /-- `AP_STEP` (rule R106): instance, binary32 input. -/
  | apStep (inst : ApInst) (opa : Word)
  /-- `FIR_STEP` (rule R111): instance, binary32 input. -/
  | firStep (inst : FirInst) (opa : Word)
  /-- `MA_STEP` (rule R117): instance, binary32 input. -/
  | maStep (inst : MaInst) (opa : Word)
  /-- `AGC_STEP` (rule R162): binary32 sample. -/
  | agcStep (opa : Word)
deriving DecidableEq, Repr

/-- The three input words of one command transaction (rule R70). -/
structure Transaction where
  cmd : Word
  opa : Word
  opb : Word
deriving DecidableEq, Repr

/-- What the host does at the interface: it presents a command, or it asserts reset, perhaps with a command presented
at the same time, which is then lost (60_exceptions.md rule R254, 70_reset_and_hazards.md rule R280). -/
inductive HostEvent where
  | command (t : Transaction)
  | reset (lost : Option Transaction)
deriving DecidableEq, Repr

end Sys2Proof
end

