-- ==== Sys2Proof/Decode.lean ====
section
/-! DEFINITION. Decoding and encoding of commands (30_encoding.md rules R70 to R77). The decoder is total: it
answers a command or the name of what makes the word illegal (rule R76); it never reads an operand to decide. -/

namespace Sys2Proof

/-- Why a command word is illegal (rule R76), or why bytes hold no command. -/
inductive DecodeError where
  /-- A nonzero bit in 31:12. -/
  | reservedBits
  /-- `OP` is not in the opcode map. -/
  | reservedOp (op : BitVec 8)
  /-- `SEL` is outside the legal set of its `OP`. -/
  | illegalSel (op : BitVec 8) (sel : BitVec 4)
  /-- Fewer than the twelve bytes of a command (byte form only, rule R54). -/
  | truncated
deriving DecidableEq, Repr

/-- `OP`, bits 7:0 (rule R71). -/
def opField (cmd : Word) : BitVec 8 := cmd.extractLsb' 0 8

/-- `SEL`, bits 11:8 (rule R71). -/
def selField (cmd : Word) : BitVec 4 := cmd.extractLsb' 8 4

/-- `RSV`, bits 31:12 (rule R71). -/
def rsvField (cmd : Word) : BitVec 20 := cmd.extractLsb' 12 20

def rxModeOfSel (sel : Nat) : Option RxMode :=
  match sel with
  | 0 => some .ssb
  | 1 => some .cw
  | _ => none

def readRegOfSel (sel : Nat) : Option ReadReg :=
  match sel with
  | 0 => some .smeter
  | 1 => some .micPeak
  | 2 => some .env
  | 3 => some .status
  | _ => none

def dcbOfSel (sel : Nat) : Option DcbInst :=
  match sel with
  | 0 => some .rxI
  | 1 => some .rxQ
  | 2 => some .tx
  | _ => none

def apOfSel (sel : Nat) : Option ApInst :=
  match sel with
  | 0 => some .rxP
  | 1 => some .rxN
  | 2 => some .txP
  | 3 => some .txN
  | _ => none

def firOfSel (sel : Nat) : Option FirInst :=
  match sel with
  | 0 => some .rxSsb
  | 1 => some .rxCw
  | 2 => some .txShape
  | 3 => some .txI
  | 4 => some .txQ
  | _ => none

def maOfSel (sel : Nat) : Option MaInst :=
  match sel with
  | 0 => some .rxI
  | 1 => some .rxQ
  | _ => none

/-- The command of a legal `OP` whose only legal `SEL` is 0. -/
def onlySelZero (i : Instr) (sel : Nat) : Option Instr := if sel = 0 then some i else none

/-- The opcode map of rule R73: for an `OP` in the map, the command its `SEL` and operand words give, or none for an
illegal `SEL`; none outside for an `OP` that is reserved. -/
def opcodeMap (op sel : Nat) (opa opb : Word) : Option (Option Instr) :=
  match op with
  | 0x00 => some (onlySelZero .nop sel)
  | 0x01 => some ((rxModeOfSel sel).map fun m => .rxSample m opa opb)
  | 0x02 => some (onlySelZero (.txSample opa) sel)
  | 0x03 => some (onlySelZero .agcMute sel)
  | 0x04 => some (onlySelZero .smeterUpdate sel)
  | 0x05 => some (onlySelZero (.micSample opa opb) sel)
  | 0x06 => some ((readRegOfSel sel).map .read)
  | 0x07 => some (onlySelZero .statusClear sel)
  | 0x10 => some ((dcbOfSel sel).map fun k => .dcbStep k opa)
  | 0x11 => some ((apOfSel sel).map fun k => .apStep k opa)
  | 0x12 => some ((firOfSel sel).map fun k => .firStep k opa)
  | 0x13 => some ((maOfSel sel).map fun k => .maStep k opa)
  | 0x14 => some (onlySelZero (.agcStep opa) sel)
  | _ => none

/-- The decoder (rule R72). -/
def decode (t : Transaction) : Except DecodeError Instr :=
  if rsvField t.cmd ≠ 0#20 then .error .reservedBits
  else
    match opcodeMap (opField t.cmd).toNat (selField t.cmd).toNat t.opa t.opb with
    | none => .error (.reservedOp (opField t.cmd))
    | some none => .error (.illegalSel (opField t.cmd) (selField t.cmd))
    | some (some i) => .ok i

/-- A 32-bit word from its four bytes, byte 0 in bits 7:0 (20_memory.md rule R54). -/
def wordOfBytes (b0 b1 b2 b3 : Byte) : Word := b3 ++ b2 ++ b1 ++ b0

/-- The four bytes of a word, byte 0 first (rule R54). -/
def bytesOfWord (w : Word) : List Byte :=
  [w.extractLsb' 0 8, w.extractLsb' 8 8, w.extractLsb' 16 8, w.extractLsb' 24 8]

/-- The decoder on the bytes of a byte-addressed bus (rule R54): it takes the twelve bytes of `CMD`, `OPA`, `OPB` in
that order and answers the command and the bytes after it. -/
def decodeBytes (bs : List Byte) : Except DecodeError (Instr × List Byte) :=
  match bs with
  | a0 :: a1 :: a2 :: a3 :: b0 :: b1 :: b2 :: b3 :: c0 :: c1 :: c2 :: c3 :: rest =>
    match decode ⟨wordOfBytes a0 a1 a2 a3, wordOfBytes b0 b1 b2 b3, wordOfBytes c0 c1 c2 c3⟩ with
    | .ok i => .ok (i, rest)
    | .error e => .error e
  | _ => .error .truncated

def RxMode.sel : RxMode → BitVec 4
  | .ssb => 0#4
  | .cw => 1#4

def ReadReg.sel : ReadReg → BitVec 4
  | .smeter => 0#4
  | .micPeak => 1#4
  | .env => 2#4
  | .status => 3#4

def DcbInst.sel : DcbInst → BitVec 4
  | .rxI => 0#4
  | .rxQ => 1#4
  | .tx => 2#4

def ApInst.sel : ApInst → BitVec 4
  | .rxP => 0#4
  | .rxN => 1#4
  | .txP => 2#4
  | .txN => 3#4

def FirInst.sel : FirInst → BitVec 4
  | .rxSsb => 0#4
  | .rxCw => 1#4
  | .txShape => 2#4
  | .txI => 3#4
  | .txQ => 4#4

def MaInst.sel : MaInst → BitVec 4
  | .rxI => 0#4
  | .rxQ => 1#4

/-- `CMD` = {RSV = 0, SEL, OP} (rule R73). -/
def cmdWord (op : BitVec 8) (sel : BitVec 4) : Word := 0#20 ++ sel ++ op

/-- The encoder (rules R73, R78): the three words of a command, an operand word the command ignores being 0. -/
def encode : Instr → Transaction
  | .nop => ⟨cmdWord 0x00#8 0#4, 0#32, 0#32⟩
  | .rxSample m opa opb => ⟨cmdWord 0x01#8 m.sel, opa, opb⟩
  | .txSample opa => ⟨cmdWord 0x02#8 0#4, opa, 0#32⟩
  | .agcMute => ⟨cmdWord 0x03#8 0#4, 0#32, 0#32⟩
  | .smeterUpdate => ⟨cmdWord 0x04#8 0#4, 0#32, 0#32⟩
  | .micSample opa opb => ⟨cmdWord 0x05#8 0#4, opa, opb⟩
  | .read r => ⟨cmdWord 0x06#8 r.sel, 0#32, 0#32⟩
  | .statusClear => ⟨cmdWord 0x07#8 0#4, 0#32, 0#32⟩
  | .dcbStep k opa => ⟨cmdWord 0x10#8 k.sel, opa, 0#32⟩
  | .apStep k opa => ⟨cmdWord 0x11#8 k.sel, opa, 0#32⟩
  | .firStep k opa => ⟨cmdWord 0x12#8 k.sel, opa, 0#32⟩
  | .maStep k opa => ⟨cmdWord 0x13#8 k.sel, opa, 0#32⟩
  | .agcStep opa => ⟨cmdWord 0x14#8 0#4, opa, 0#32⟩

/-- The twelve bytes of a command on a byte-addressed bus (rule R54). -/
def encodeBytes (i : Instr) : List Byte :=
  bytesOfWord (encode i).cmd ++ bytesOfWord (encode i).opa ++ bytesOfWord (encode i).opb

/-- The transaction whose 96 bits are `w` (bits from 96 on are dropped): `CMD` in bits 31:0, `OPA` in 63:32, `OPB`
in 95:64; only the low `nbits` of `w` are taken, every bit above them is 0. -/
def transactionOfNat (nbits w : Nat) : Transaction :=
  let v := w % 2 ^ nbits
  ⟨BitVec.ofNat 32 v, BitVec.ofNat 32 (v / 2 ^ 32), BitVec.ofNat 32 (v / 2 ^ 64)⟩

/-- What the decoder reads from the command whose bits are `w`, laid out as twelve bytes (rules R54, R70). -/
def decodeTableWord (nbits w : Nat) : Option Instr :=
  let t := transactionOfNat nbits w
  match decodeBytes (bytesOfWord t.cmd ++ bytesOfWord t.opa ++ bytesOfWord t.opb) with
  | .ok (i, _) => some i
  | .error _ => none

end Sys2Proof
end

