-- ==== Sys2Proof/Config.lean ====
section
/-! DEFINITION. The configuration record `Cfg` of 00_scope.md rule R7, as plain data, and the free values of the
model. A parameter the spec marks OPEN is a field of `OpenParams`; every other parameter is a field of `Cfg` whose
default is the value the spec takes. The check that a configuration is well formed (rule R16) and the one fixed
but unknown choice of the OPEN parameters stand in WellFormed.lean. -/

namespace Sys2Proof

/-- Entries of a FIR history, `buf[0..255]` (10_state.md rule R27). `FIR_CAP` is how many of them a build uses. -/
abbrev Config.firStore : Nat := 256

/-- Entries of a moving-average stage, `dly[k][0..31]` (10_state.md rule R28). `MA_LEN` is how many of them a build
uses. -/
abbrev Config.maStore : Nat := 32

/-- The rounded operations of rule R10. -/
inductive FpOp where
  | add
  | sub
  | mul
  | div
  | sqrt
deriving DecidableEq, Repr

/-- The `FP` parameter of rule R7: the spec takes binary32, round to nearest even, no flush to zero (D3); the results
of any other build's arithmetic are the free value `Config.fpImplementation` (93_implementation_defined.md U17, log
entry 4). -/
inductive FpFormat where
  | binary32
  | implementation
deriving DecidableEq, Repr, Inhabited

/-- Free value: what an operation of a build whose `FP` is not the spec's answers for two operand words, the second
+0.0 for a square root. Nothing constrains it (DESIGN CHOICE, log entry 4). -/
opaque Config.fpImplementation : FpOp → F32 → F32 → F32

/-- Free value: base-10 logarithm of an operand that has none (a zero or a negative number). The spec states no
result there, so nothing constrains it (DESIGN CHOICE, log entry 6). -/
opaque Config.log10OutsideDomain : F32 → F32

/-- Free value: the base-10 logarithm of a build whose `LOG10` is not the correctly rounded one
(rule R7, 93_implementation_defined.md U18; log entry 5). -/
opaque Config.log10Implementation : F32 → F32

/-- The `LOG10` parameter of rule R7: the spec takes the correctly rounded logarithm (D4); any other build's
logarithm is the free value `Config.log10Implementation`. -/
inductive Log10Choice where
  | correctlyRounded
  | implementation
deriving DecidableEq, Repr, Inhabited

/-- The coefficient triple of an all-pass cascade, stage 0 first (rule R7 `K_P[0..2]`, `K_N[0..2]`). -/
structure Triple where
  k0 : F32
  k1 : F32
  k2 : F32
deriving DecidableEq, Repr, Inhabited

/-- The parameters that rule R7 and 92_eei_decisions.md section 2 mark OPEN: they appear in no source with a value. A table and
its length are one list: `L` is the list's length, so no entry at or beyond `L` exists (rule R52). -/
structure OpenParams where
  /-- `K_P[0..2]`: the p45 all-pass cascade. -/
  kP : Triple
  /-- `K_N[0..2]`: the n45 all-pass cascade. -/
  kN : Triple
  /-- `H_SSB`, `L_SSB`: receive voice/SSB low-pass. -/
  hSsb : List F32
  /-- `H_CW`, `L_CW`: receive CW band-pass. -/
  hCw : List F32
  /-- `H_TXS`, `L_TXS`: transmit symmetric shaping low-pass. -/
  hTxs : List F32
  /-- `H_TXI`, `L_TXI`: transmit final I low-pass. -/
  hTxi : List F32
  /-- `H_TXQ`, `L_TXQ`: transmit final Q low-pass. -/
  hTxq : List F32
  /-- `RX_SCALE`: multiplier before the AGC. -/
  rxScale : F32
  /-- `TX_GAIN`: fixed transmit input gain. -/
  txGain : F32
  /-- `MUTE_ENV`: the envelope `AGC_MUTE` forces. -/
  muteEnv : F32
  /-- `MIC_HANG`, in host ticks. -/
  micHang : Word
  /-- `MIC_DECAY`, in host ticks. -/
  micDecay : Word
  /-- `MIC_STEP`: fall of the held peak per decay interval. -/
  micStep : Nat
  /-- `CMD_LATENCY` (rule R291): no rule reads it. -/
  cmdLatency : Nat
deriving DecidableEq, Repr, Inhabited

/-- The configuration record `Cfg` of rule R7. Every default below is the value the spec takes. -/
structure Cfg extends OpenParams where
  /-- `FP`: internal number format. -/
  fp : FpFormat := .binary32
  /-- `FIR_CAP`: FIR history capacity. -/
  firCap : Nat := 256
  /-- `MA_STAGES`: moving-average stages. -/
  maStages : Nat := 4
  /-- `MA_LEN`: samples per moving-average stage. -/
  maLen : Nat := 32
  /-- `ADC_BITS`: width of an input code. -/
  adcBits : Nat := 12
  /-- `BIAS`: mid-scale bias of an input code. -/
  bias : Nat := 2048
  /-- `K_DC`, the nearest binary32 to 0.05. -/
  kDc : F32 := 0x3D4CCCCD#32
  /-- `RX_SMOOTH` (rule R141). -/
  rxSmooth : Bool := false
  /-- `K_DECAY`, the nearest binary32 to 0.99996. -/
  kDecay : F32 := 0x3F7FFD61#32
  /-- `MAX_GAIN` = 40.0. -/
  maxGain : F32 := 0x42200000#32
  /-- `TARGET` = 2047.0. -/
  target : F32 := 0x44FFE000#32
  /-- `SILENCE` = 1.0. -/
  silence : F32 := 0x3F800000#32
  /-- `SM_FLOOR` = 1.0. -/
  smFloor : F32 := 0x3F800000#32
  /-- `SM_LO_REF` = 30.0. -/
  smLoRef : F32 := 0x41F00000#32
  /-- `SM_HI_REF` = 120.0. -/
  smHiRef : F32 := 0x42F00000#32
  /-- `SM_LOG_SCALE` = 1024.0. -/
  smLogScale : F32 := 0x44800000#32
  /-- `SM_MAX` = 255; `SMETER` is a u8 (rule R30), so the parameter is one. -/
  smMax : BitVec 8 := 255#8
  /-- `SM_INTERVAL`, about 20 ms: a host duty, read by no rule (rule R170). -/
  smIntervalMs : Nat := 20
  /-- `TX_NORM` = 2^-11. -/
  txNorm : F32 := 0x3A000000#32
  /-- `TX_MAG_FLOOR` = 1.0. -/
  txMagFloor : F32 := 0x3F800000#32
  /-- `TX_OUT_SCALE` = 512.0. -/
  txOutScale : F32 := 0x44000000#32
  /-- `LOG10`. -/
  log10 : Log10Choice := .correctlyRounded
deriving DecidableEq, Repr

/-- The configuration that takes the spec's value for every parameter it states and `p` for the OPEN ones. -/
def Cfg.ofOpen (p : OpenParams) : Cfg := { toOpenParams := p }

end Sys2Proof
end

