-- ==== Sys2Proof/Machine/Float32.lean ====
section
/-! DEFINITION. The floating-point primitives of 00_scope.md rules R10 to R13: IEEE 754 binary32, round to nearest,
ties to even, no flush to zero, one quiet NaN, no flags. Every finite binary32 value is a whole number of UNITS of
2^-149, so each operation is written in exact integer arithmetic over units and rounded once. A constant factor stands
on the left of a product, where Lean's kernel does not count it down when it compares two terms. -/

namespace Sys2Proof.Machine

/-- The one NaN every primitive answers (rule R12). -/
def qNaN : F32 := 0x7FC00000#32

def posZero : F32 := 0x00000000#32

/-- Bit 31 (rule R10). -/
def signBit (a : F32) : Bool := a.getLsbD 31

/-- Bits 30:23 (rule R10). -/
def expField (a : F32) : Nat := a.toNat / 2 ^ 23 % 256

/-- Bits 22:0 (rule R10). -/
def fracField (a : F32) : Nat := a.toNat % 2 ^ 23

def isNaN (a : F32) : Bool := expField a == 255 && fracField a != 0

def isInf (a : F32) : Bool := expField a == 255 && fracField a == 0

def isFinite (a : F32) : Bool := expField a != 255

def isZero (a : F32) : Bool := expField a == 0 && fracField a == 0

/-- Magnitude of a finite value in units of 2^-149. -/
def mag (a : F32) : Nat :=
  if expField a = 0 then fracField a else (2 ^ 23 + fracField a) * 2 ^ (expField a - 1)

/-- Signed value of a finite binary32 in units of 2^-149. -/
def units (a : F32) : Int := if signBit a then -(mag a : Int) else (mag a : Int)

/-- The bit pattern of sign `neg` and magnitude bits `m` (`m < 2^31`). -/
def pack (neg : Bool) (m : Nat) : F32 := BitVec.ofNat 32 (if neg then 2 ^ 31 + m else m)

/-- Magnitude bits of an infinity. -/
def infBits : Nat := 0x7F800000

def inf (neg : Bool) : F32 := pack neg infBits

/-- Magnitude bits of the binary32 nearest to `n / d` units, ties to even, an overflow giving infinity (rule R10).
`2^k` units is the spacing of the binade that holds `n / d`; a carry out of the 24-bit significand moves into the
exponent field by itself. -/
def roundUnits (n d : Nat) : Nat :=
  let k := Nat.log2 (n / d) - 23
  let u := d * 2 ^ k
  let m := n / u
  let r := n % u
  let m' := if 2 * r > u ∨ (2 * r = u ∧ m % 2 = 1) then m + 1 else m
  min (2 ^ 23 * k + m') infBits

/-- `a` with its sign flipped. -/
def fneg (a : F32) : F32 := a ^^^ 0x80000000#32

/-- `fabs(a)`: `a` with its sign bit cleared (rule R10); a NaN result is the quiet NaN (rule R12). -/
def fabs (a : F32) : F32 := if isNaN a then qNaN else a &&& 0x7FFFFFFF#32

/-- `fadd(a, b)` (rule R10). An exact zero sum is +0 unless both operands are negative zeros. -/
def fadd (a b : F32) : F32 :=
  if isNaN a || isNaN b then qNaN
  else if isInf a then (if isInf b && signBit a != signBit b then qNaN else a)
  else if isInf b then b
  else
    let z := units a + units b
    if z = 0 then pack (signBit a && signBit b) 0
    else pack (decide (z < 0)) (roundUnits z.natAbs 1)

/-- `fsub(a, b)` (rule R10). -/
def fsub (a b : F32) : F32 := fadd a (fneg b)

/-- `fmul(a, b)` (rule R10). -/
def fmul (a b : F32) : F32 :=
  let neg := signBit a != signBit b
  if isNaN a || isNaN b then qNaN
  else if isInf a || isInf b then (if isZero a || isZero b then qNaN else inf neg)
  else pack neg (roundUnits (mag a * mag b) (2 ^ 149))

/-- `fdiv(a, b)` (rule R10). -/
def fdiv (a b : F32) : F32 :=
  let neg := signBit a != signBit b
  if isNaN a || isNaN b then qNaN
  else if isInf a then (if isInf b then qNaN else inf neg)
  else if isInf b then pack neg 0
  else if isZero b then (if isZero a then qNaN else inf neg)
  else pack neg (roundUnits (2 ^ 149 * mag a) (mag b))

/-- Integer square root, bit by bit from bit `b - 1` down: the largest `r' ≥ r` of that form with `r' * r' ≤ n`. -/
def isqrtFrom (n : Nat) : Nat → Nat → Nat
  | 0, r => r
  | b + 1, r => isqrtFrom n b (if (2 ^ b + r) * (2 ^ b + r) ≤ n then 2 ^ b + r else r)

/-- Integer square root of `n < 2^448`. -/
def isqrt (n : Nat) : Nat := isqrtFrom n 224 0

/-- `fsqrt(a)` (rule R10). The exact root of `mag a` units is `√(mag a · 2^149)` units, at least 2^74, so every
rounding boundary is a whole number of units and a half unit stands for any inexact remainder. -/
def fsqrt (a : F32) : F32 :=
  if isNaN a then qNaN
  else if isZero a then a
  else if signBit a then qNaN
  else if isInf a then a
  else
    let n := 2 ^ 149 * mag a
    let r := isqrt n
    pack false (roundUnits (2 * r + (if r * r = n then 0 else 1)) 2)

/-- A result word with every NaN made the quiet NaN (rule R12). -/
def quiet (r : F32) : F32 := if isNaN r then qNaN else r

/-- An operation under another build's `FP`: a free value, but that a NaN operand gives a NaN and a NaN result is the
quiet NaN (rules R12, R101; log entry 4). -/
def fpOther (op : FpOp) (a b : F32) : F32 := if isNaN a || isNaN b then qNaN else quiet (Config.fpImplementation op a b)

/-- `fadd` under the configuration's `FP` (rule R7); so for the four below. -/
def fpAdd (fp : FpFormat) (a b : F32) : F32 :=
  match fp with
  | .binary32 => fadd a b
  | .implementation => fpOther .add a b

def fpSub (fp : FpFormat) (a b : F32) : F32 :=
  match fp with
  | .binary32 => fsub a b
  | .implementation => fpOther .sub a b

def fpMul (fp : FpFormat) (a b : F32) : F32 :=
  match fp with
  | .binary32 => fmul a b
  | .implementation => fpOther .mul a b

def fpDiv (fp : FpFormat) (a b : F32) : F32 :=
  match fp with
  | .binary32 => fdiv a b
  | .implementation => fpOther .div a b

def fpSqrt (fp : FpFormat) (a : F32) : F32 :=
  match fp with
  | .binary32 => fsqrt a
  | .implementation => fpOther .sqrt a posZero

/-- Order key of a value that is not a NaN: the two zeros have one key. -/
def orderKey (a : F32) : Int :=
  if signBit a then -((a.toNat % 2 ^ 31 : Nat) : Int) else ((a.toNat % 2 ^ 31 : Nat) : Int)

/-- `flt(a, b)`, false when either is a NaN (rule R10). -/
def flt (a b : F32) : Bool := !isNaN a && !isNaN b && decide (orderKey a < orderKey b)

/-- `fgt(a, b)`, false when either is a NaN (rule R10). -/
def fgt (a b : F32) : Bool := !isNaN a && !isNaN b && decide (orderKey b < orderKey a)

/-- `fle(a, b)`, false when either is a NaN (rule R10). -/
def fle (a b : F32) : Bool := !isNaN a && !isNaN b && decide (orderKey a ≤ orderKey b)

/-- `i2f(n)`: the binary32 value of integer `n`, exact for `|n| ≤ 2^24` (rule R10). -/
def i2f (n : Int) : F32 := pack (decide (n < 0)) (roundUnits (2 ^ 149 * n.natAbs) 1)

/-- The binary32 nearest to the rational `±n / d`. -/
def ratToF32 (neg : Bool) (n d : Nat) : F32 := pack neg (roundUnits (2 ^ 149 * n) d)

/-- `f2i(v)` (rule R13): 0 for a NaN, else truncated toward zero and clamped to a signed 32-bit integer. -/
def f2i (v : F32) : Int :=
  let t := mag v / 2 ^ 149
  if isNaN v then 0
  else if signBit v then -((min t (2 ^ 31) : Nat) : Int)
  else ((min t (2 ^ 31 - 1) : Nat) : Int)

end Sys2Proof.Machine
end

