-- ==== Sys2Proof/Machine/Log10.lean ====
section
/-! DEFINITION. `flog10`, the `LOG10` parameter of 00_scope.md rule R7: by default the correctly rounded binary32
base-10 logarithm (92_eei_decisions.md D4). The binary digits of log10 of a rational are found one at a time by
squaring; a fixed-point interval decides each digit, and where it would not, the digit is decided by an exact
comparison of whole numbers, so the digits are exact for every operand. -/

namespace Sys2Proof.Machine

/-- Fractional bits of the fixed-point interval. They bear on speed only, never on the result. -/
def logPrec : Nat := 256

/-- Binary digits of the logarithm after the point: enough that every rounding boundary of a binary32 logarithm is
a multiple of 2^-64. -/
def logBits : Nat := 64

/-- The largest `n` up to the fuel with `10^n * q ≤ p`. -/
def log10Int (p q : Nat) : Nat → Nat
  | 0 => 0
  | fuel + 1 => if 10 ^ (fuel + 1) * q ≤ p then fuel + 1 else log10Int p q fuel

/-- One digit after another. `z = p / q` is the operand's mantissa in [1, 10); `lo` and `hi` bound
`z^(2^j) / 10^m` in units of `2^-logPrec`, where `m` is the digits found so far and `j` their number. -/
def log10Digits (p q : Nat) : Nat → Nat → Nat → Nat → Nat → Nat
  | 0, _, m, _, _ => m
  | fuel + 1, j, m, lo, hi =>
    let one := 2 ^ logPrec
    let lo' := lo * lo / one
    let hi' := hi * hi / one + 1
    let bit : Bool :=
      if 10 * one ≤ lo' then true
      else if hi' < 10 * one then false
      else decide (10 ^ (2 * m + 1) * q ^ 2 ^ (j + 1) ≤ p ^ 2 ^ (j + 1))
    if bit then log10Digits p q fuel (j + 1) (2 * m + 1) (lo' / 10) (hi' / 10 + 1)
    else log10Digits p q fuel (j + 1) (2 * m) lo' hi'

/-- `⌊log10(p / q) · 2^logBits⌋` for `p ≥ q > 0` and `p / q < 10^64`. -/
def log10Floor (p q : Nat) : Nat :=
  let n := log10Int p q 63
  let q' := q * 10 ^ n
  let lo := 2 ^ logPrec * p / q'
  2 ^ logBits * n + log10Digits p q' logBits 0 0 lo (lo + 1)

/-- Magnitude bits of the binary32 nearest to log10(p / q), for `p ≥ q > 0`. The logarithm of a rational is either
a whole number (the rational is a power of ten) or irrational, so half a digit stands for its tail. -/
def log10Round (p q : Nat) : Nat :=
  let tail := if p = q * 10 ^ log10Int p q 63 then 0 else 1
  roundUnits (2 ^ 149 * (2 * log10Floor p q + tail)) (2 ^ (logBits + 1))

/-- The correctly rounded base-10 logarithm. A NaN gives the quiet NaN (rule R12) and +∞ gives +∞ (rule R169's
corner case); for a zero or a negative operand the spec states no result: a free value, a NaN being the quiet one
(rule R12, log entry 6). -/
def log10Rounded (a : F32) : F32 :=
  if isNaN a then qNaN
  else if isZero a || signBit a then quiet (Config.log10OutsideDomain a)
  else if isInf a then a
  else if 2 ^ 149 ≤ mag a then pack false (log10Round (mag a) (2 ^ 149))
  else pack true (log10Round (2 ^ 149) (mag a))

/-- `flog10(a)` under the configuration's `LOG10` (rule R7). Whatever the build, a NaN operand gives the quiet NaN and a
NaN result is the quiet NaN (rule R12). -/
def flog10 (choice : Log10Choice) (a : F32) : F32 :=
  match choice with
  | .correctlyRounded => log10Rounded a
  | .implementation => if isNaN a then qNaN else quiet (Config.log10Implementation a)

end Sys2Proof.Machine
end

