-- ==== Sys2Proof/Machine/Smeter.lean ====
section
/-! DEFINITION. The S-meter's integer mapping (42_agc_smeter.md rule R167), as a function of the configuration and the
envelope: the well-formedness of a configuration (00_scope.md rule R16) reads its domain ends too. -/

namespace Sys2Proof.Machine

/-- `f2i(fmul(flog10(v), SM_LOG_SCALE))` (rule R167). -/
def logPeak (c : Cfg) (v : F32) : Int := f2i (fpMul c.fp (flog10 c.log10 v) c.smLogScale)

/-- `smeter_value()` (rule R167) of the envelope `env`. -/
def smeterValue (c : Cfg) (env : F32) : Int :=
  if fle env c.smFloor then 0
  else
    let lo := logPeak c c.smLoRef
    let hi := logPeak c c.smHiRef
    let pk := min (max (logPeak c env) lo) hi
    ((pk - lo) * (c.smMax.toNat : Int)).tdiv (hi - lo)

end Sys2Proof.Machine
end

