-- ==== Sys2Proof/WellFormed.lean ====
section
/-! DEFINITION. Well-formed configurations (00_scope.md rule R16), the one unknown choice of the OPEN parameters that
the machine after reset holds, and the assembler's check of a command (30_encoding.md rule R79). -/

namespace Sys2Proof

open Machine

/-- A coefficient table: 1 ≤ L ≤ `FIR_CAP`, every entry finite (rule R16). -/
def tableOk (firCap : Nat) (h : List F32) : Bool := decide (1 ≤ h.length) && decide (h.length ≤ firCap) && h.all isFinite

def Triple.finite (k : Triple) : Bool := isFinite k.k0 && isFinite k.k1 && isFinite k.k2

/-- The constants rule R16 lists as finite, and the all-pass coefficients. -/
def Cfg.constantsFinite (c : Cfg) : Bool :=
  c.kP.finite && c.kN.finite && isFinite c.kDc && isFinite c.kDecay && isFinite c.rxScale && isFinite c.txGain
    && isFinite c.txNorm && isFinite c.txOutScale && isFinite c.muteEnv

def Cfg.tablesOk (c : Cfg) : Bool :=
  tableOk c.firCap c.hSsb && tableOk c.firCap c.hCw && tableOk c.firCap c.hTxs && tableOk c.firCap c.hTxi
    && tableOk c.firCap c.hTxq

/-- `FIR_CAP`, `MA_STAGES` and `MA_LEN` fit what the state holds: `buf[0..255]` with a u8 position, stages 0 to 3,
`dly[0..31]` with a u5 position (10_state.md rules R27, R28; DEDUCED, log entry 4). -/
def Cfg.storesOk (c : Cfg) : Bool :=
  decide (1 ≤ c.firCap) && decide (c.firCap ≤ Config.firStore) && decide (1 ≤ c.maStages) && decide (c.maStages ≤ 4)
    && decide (1 ≤ c.maLen) && decide (c.maLen ≤ Config.maStore)

/-- `H_TXS[j] = H_TXS[L_TXS - 1 - j]` (rules R7, R16). The spec does not say whether equal means equal numbers or equal
words; the model compares words, so +0.0 does not mirror -0.0 (DESIGN CHOICE, log entry 19). -/
def Cfg.shapeSymmetric (c : Cfg) : Bool := c.hTxs == c.hTxs.reverse

/-- `MAX_GAIN`, `SILENCE` and `TARGET` positive (rule R16). -/
def Cfg.gainsPositive (c : Cfg) : Bool := fgt c.maxGain posZero && fgt c.silence posZero && fgt c.target posZero

/-- `MUTE_ENV` ≥ `TARGET` / `MAX_GAIN` (rule R7's table), the quotient as the nearest binary32 (DEDUCED, log entry 8). -/
def Cfg.muteLarge (c : Cfg) : Bool := fle (fdiv c.target c.maxGain) c.muteEnv

/-- The S-meter domain ends satisfy lo < hi once converted (rules R16, R167). -/
def Cfg.smeterDomain (c : Cfg) : Bool := decide (logPeak c c.smLoRef < logPeak c c.smHiRef)

/-- `MIC_STEP` ≥ 1 and `MIC_DECAY` ≤ `MIC_HANG` (rule R16). -/
def Cfg.micOk (c : Cfg) : Bool := decide (1 ≤ c.micStep) && decide (c.micDecay.toNat ≤ c.micHang.toNat)

/-- An input code fits the u16 held peak and is biased at mid-scale: `BIAS` = 2^(`ADC_BITS` - 1) (D5, rule R31;
DEDUCED, log entry 8). -/
def Cfg.adcOk (c : Cfg) : Bool :=
  decide (1 ≤ c.adcBits) && decide (c.adcBits ≤ 16) && decide (c.bias = 2 ^ (c.adcBits - 1))

/-- A well-formed configuration (rule R16). -/
def Cfg.wf (c : Cfg) : Bool :=
  c.constantsFinite && c.tablesOk && c.storesOk && c.shapeSymmetric && c.gainsPositive && c.muteLarge && c.smeterDomain
    && c.micOk && c.adcOk

/-- Whether OPEN parameters may stand in the block as the spec takes it: the configuration they give is well formed
and `L_SSB` is 256 (rule R7, D7). -/
def OpenParams.admissible (p : OpenParams) : Bool := (Cfg.ofOpen p).wf && decide (p.hSsb.length = (Cfg.ofOpen p).firCap)

/-- A choice of OPEN parameters that shows some choice is admissible. No definition of the machine reads it. -/
def Config.witnessOpen : OpenParams :=
  { kP := ⟨0x3F000000#32, 0x3F000000#32, 0x3F000000#32⟩
    kN := ⟨0xBF000000#32, 0xBF000000#32, 0xBF000000#32⟩
    hSsb := List.replicate 256 posZero
    hCw := [0x3F800000#32, 0xBF800000#32]
    hTxs := [0x3E800000#32, 0x3F000000#32, 0x3E800000#32]
    hTxi := [0x3F000000#32, 0x3F000000#32]
    hTxq := [0x3F000000#32, 0x3F000000#32]
    rxScale := 0x3F800000#32
    txGain := 0x40800000#32
    muteEnv := 0x49800000#32
    micHang := 500#32
    micDecay := 20#32
    micStep := 1
    cmdLatency := 0 }

/-- OPEN parameters with the proof that they are admissible. -/
structure AdmissibleOpen where
  val : OpenParams := Config.witnessOpen
  ok : val.admissible = true := by decide +kernel
deriving Inhabited

/-- Free value: the OPEN parameters of the block after reset. Nothing constrains them but their admissibility
(log entry 7). -/
opaque Config.openChoice : AdmissibleOpen

/-- The configuration of the block after reset: the spec's value of every parameter it states, the free value for the
OPEN ones. -/
def Config.cfg : Cfg := Cfg.ofOpen Config.openChoice.val

/-- A CODE operand literal is in [0, 2^`ADC_BITS` - 1] (rule R79). -/
def codeInRange (adcBits : Nat) (w : Word) : Bool := decide (w.toNat < 2 ^ adcBits)

/-- What the assembler accepts (rule R79): every CODE operand in range. The hardware performs the other commands too,
ignoring the high bits (rule R74). -/
def Instr.wellFormed (adcBits : Nat) : Instr → Bool
  | .rxSample _ opa opb => codeInRange adcBits opa && codeInRange adcBits opb
  | .txSample opa => codeInRange adcBits opa
  | .micSample opa _ => codeInRange adcBits opa
  | .nop => true
  | .agcMute => true
  | .smeterUpdate => true
  | .read _ => true
  | .statusClear => true
  | .dcbStep _ _ => true
  | .apStep _ _ => true
  | .firStep _ _ => true
  | .maStep _ _ => true
  | .agcStep _ => true

end Sys2Proof
end

