-- ==== Sys2Proof/Machine/State.lean ====
section
/-! DEFINITION. The state of the block (10_state.md rules R20 to R38), as plain data, with its reset values. The last
two fields are the model's own: the configuration, which nothing writes, and what the host presents next. -/

namespace Sys2Proof.Machine

/-- DC-blocker state (rule R24). -/
structure DcbState where
  s : F32
  xPrev : F32
  yPrev : F32
deriving DecidableEq, Repr

/-- One stage of an all-pass cascade (rule R26). -/
structure ApStage where
  xPrev : F32
  yPrev : F32
deriving DecidableEq, Repr

/-- All-pass cascade state: stages 0, 1, 2 in signal order (rule R26). -/
structure ApState where
  stage0 : ApStage
  stage1 : ApStage
  stage2 : ApStage
deriving DecidableEq, Repr

/-- FIR convolver state (rule R27): the circular history and the write position. -/
structure FirState where
  buf : Vector F32 Config.firStore
  idx : BitVec 8
deriving DecidableEq, Repr

/-- One box-car stage of a smoother (rule R28). -/
structure MaStage where
  sum : F32
  dly : Vector F32 Config.maStore
  pos : BitVec 5
deriving DecidableEq, Repr

/-- Moving-average smoother state: stages 0 to 3 in signal order (rule R28). -/
structure MaState where
  stage0 : MaStage
  stage1 : MaStage
  stage2 : MaStage
  stage3 : MaStage
deriving DecidableEq, Repr

def DcbState.zero : DcbState := ⟨posZero, posZero, posZero⟩

def ApStage.zero : ApStage := ⟨posZero, posZero⟩

def ApState.zero : ApState := ⟨ApStage.zero, ApStage.zero, ApStage.zero⟩

def FirState.zero : FirState := ⟨Vector.replicate Config.firStore posZero, 0#8⟩

def MaStage.zero : MaStage := ⟨posZero, Vector.replicate Config.maStore posZero, 0#5⟩

def MaState.zero : MaState := ⟨MaStage.zero, MaStage.zero, MaStage.zero, MaStage.zero⟩

/-- The state of the block. -/
structure State where
  /-- `DCB_RX_I` (rules R23, R24). -/
  dcbRxI : DcbState
  /-- `DCB_RX_Q`. -/
  dcbRxQ : DcbState
  /-- `DCB_TX`. -/
  dcbTx : DcbState
  /-- `AP_RX_P` (rules R23, R26). -/
  apRxP : ApState
  /-- `AP_RX_N`. -/
  apRxN : ApState
  /-- `AP_TX_P`. -/
  apTxP : ApState
  /-- `AP_TX_N`. -/
  apTxN : ApState
  /-- `FIR_RX_SSB` (rules R23, R27). -/
  firRxSsb : FirState
  /-- `FIR_RX_CW`. -/
  firRxCw : FirState
  /-- `FIR_TX_SHAPE`. -/
  firTxShape : FirState
  /-- `FIR_TX_I`. -/
  firTxI : FirState
  /-- `FIR_TX_Q`. -/
  firTxQ : FirState
  /-- `MA_RX_I` (rules R23, R28). -/
  maRxI : MaState
  /-- `MA_RX_Q`. -/
  maRxQ : MaState
  /-- `ENV`: the AGC envelope (rule R29). -/
  env : F32
  /-- `SMETER`: the cached S-meter value (rule R30). -/
  smeter : BitVec 8
  /-- `MIC_PEAK`: the held peak (rule R31). -/
  micPeak : BitVec 16
  /-- `T_DECAY`: time of the last peak capture or decrement (rule R31). -/
  tDecay : Word
  /-- `T_HANG`: time of the last peak capture (rule R31). -/
  tHang : Word
  /-- `STATUS`: bit 0 is `ILL`, bits 31:1 are reserved (rule R32). -/
  status : Word
  /-- `RESA` (rule R22). -/
  resa : Word
  /-- `RESB` (rule R22). -/
  resb : Word
  /-- The configuration (00_scope.md rule R7): read by the rules, written by nothing (log entry 3). -/
  cfg : Cfg
  /-- What the host presents next, oldest first (log entry 1). -/
  input : List HostEvent
deriving DecidableEq, Repr

/-- The machine right after reset (rule R38). The configuration is the spec's with a free choice of the OPEN
parameters, and the host has presented nothing yet. -/
def State.reset : State :=
  { dcbRxI := DcbState.zero
    dcbRxQ := DcbState.zero
    dcbTx := DcbState.zero
    apRxP := ApState.zero
    apRxN := ApState.zero
    apTxP := ApState.zero
    apTxN := ApState.zero
    firRxSsb := FirState.zero
    firRxCw := FirState.zero
    firTxShape := FirState.zero
    firTxI := FirState.zero
    firTxQ := FirState.zero
    maRxI := MaState.zero
    maRxQ := MaState.zero
    env := posZero
    smeter := 0#8
    micPeak := 0#16
    tDecay := 0#32
    tHang := 0#32
    status := 0#32
    resa := 0#32
    resb := 0#32
    cfg := Config.cfg
    input := [] }

/-- The reasons a step can stop with a fault: none. The block raises no exception and has no fatal path
(00_scope.md rule R14, 60_exceptions.md rules R251, R252), so the type has no constructor and no step can fault. -/
inductive Fault where
deriving DecidableEq, Repr

/-- The reasons the model can refuse. -/
inductive Refusal where
  /-- Raised by an arm of `exec` for an instruction without a meaning. Safe: nothing is claimed of it. No arm of this
  model raises it. -/
  | notModelled (mnemonic : String)
  /-- Raised by `State.build` for a configuration that is not well formed (00_scope.md rule R16,
  93_implementation_defined.md V6). Safe: no block of that configuration exists. No step raises it. -/
  | illFormedConfig
deriving DecidableEq, Repr

end Sys2Proof.Machine
end

