-- ==== Sys2Proof/Machine/Filters.lean ====
section
/-! DEFINITION. The unit functions of 40_stream_filters.md over one instance's state: each consumes one sample and
answers the output sample and the new state. The chains and the unit-step commands call the same functions. -/

namespace Sys2Proof.Machine

/-- `dcb_step` (rule R100): every read of `st` is of the state before the step. -/
def dcbUnit (c : Cfg) (st : DcbState) (x : F32) : F32 × DcbState :=
  let t1 := fpSub c.fp st.s st.xPrev
  let t2 := fpMul c.fp c.kDc st.yPrev
  let t3 := fpSub c.fp x t2
  let s' := fpAdd c.fp t1 t3
  (s', ⟨s', x, s'⟩)

/-- `ap_stage` (rule R103). -/
def apStageUnit (c : Cfg) (k : F32) (st : ApStage) (x : F32) : F32 × ApStage :=
  let t1 := fpAdd c.fp x st.yPrev
  let t2 := fpMul c.fp k t1
  let y := fpSub c.fp t2 st.xPrev
  (y, ⟨x, y⟩)

/-- `ap_cascade` (rule R104): the output of stage i feeds stage i+1. -/
def apUnit (c : Cfg) (k : Triple) (st : ApState) (x : F32) : F32 × ApState :=
  let r0 := apStageUnit c k.k0 st.stage0 x
  let r1 := apStageUnit c k.k1 st.stage1 r0.1
  let r2 := apStageUnit c k.k2 st.stage2 r1.1
  (r2.1, ⟨r0.2, r1.2, r2.2⟩)

/-- `(idx - j) mod FIR_CAP` (rule R107), the sum kept a whole number by adding a multiple of the modulus first
(20_memory.md rule R51). -/
def firIndex (c : Cfg) (idx : BitVec 8) (j : Nat) : BitVec 8 :=
  BitVec.ofNat 8 ((idx.toNat + (c.firCap - j % c.firCap)) % c.firCap)

/-- `(idx + 1) mod FIR_CAP` (rule R107). -/
def firNext (c : Cfg) (idx : BitVec 8) : BitVec 8 := BitVec.ofNat 8 ((idx.toNat + 1) % c.firCap)

/-- Entry `i` of the FIR history. -/
def firRead (buf : Vector F32 Config.firStore) (i : BitVec 8) : F32 := buf[i.toNat]'i.isLt

def firWrite (buf : Vector F32 Config.firStore) (i : BitVec 8) (x : F32) : Vector F32 Config.firStore :=
  buf.set i.toNat x i.isLt

/-- The inner product of rule R107 from coefficient `j` on: `acc <- fadd(acc, fmul(H[j], buf[(idx - j) mod FIR_CAP]))`
in increasing `j`. -/
def firSum (c : Cfg) (buf : Vector F32 Config.firStore) (idx : BitVec 8) : List F32 → Nat → F32 → F32
  | [], _, acc => acc
  | h :: hs, j, acc => firSum c buf idx hs (j + 1) (fpAdd c.fp acc (fpMul c.fp h (firRead buf (firIndex c idx j))))

/-- `fir_step` (rule R107): write the sample, sum from +0.0, then advance the write position. -/
def firUnit (c : Cfg) (table : List F32) (st : FirState) (x : F32) : F32 × FirState :=
  let buf' := firWrite st.buf st.idx x
  (firSum c buf' st.idx table 0 posZero, ⟨buf', firNext c st.idx⟩)

/-- `MA_LEN` as a number: the 32.0 of rule R112. -/
def maDivisor (c : Cfg) : F32 := i2f (c.maLen : Int)

/-- `ma_stage` (rule R112). -/
def maStageUnit (c : Cfg) (st : MaStage) (x : F32) : F32 × MaStage :=
  let old := st.dly[st.pos.toNat]'st.pos.isLt
  let sum' := fpAdd c.fp (fpSub c.fp st.sum old) x
  (fpDiv c.fp sum' (maDivisor c),
    ⟨sum', st.dly.set st.pos.toNat x st.pos.isLt, BitVec.ofNat 5 ((st.pos.toNat + 1) % c.maLen)⟩)

/-- Stage `k` of a smoother, which is there when `k` < `MA_STAGES` (rule R113). -/
def maStageAt (c : Cfg) (k : Nat) (st : MaStage) (x : F32) : F32 × MaStage :=
  if k < c.maStages then maStageUnit c st x else (x, st)

/-- `ma_cascade` (rule R113). -/
def maUnit (c : Cfg) (st : MaState) (x : F32) : F32 × MaState :=
  let r0 := maStageAt c 0 st.stage0 x
  let r1 := maStageAt c 1 st.stage1 r0.1
  let r2 := maStageAt c 2 st.stage2 r1.1
  let r3 := maStageAt c 3 st.stage3 r2.1
  (r3.1, ⟨r0.2, r1.2, r2.2, r3.2⟩)

end Sys2Proof.Machine
end

