-- ==== Sys2Proof/Machine/Flags.lean ====
section
/-! DEFINITION. The block's only flag, `STATUS.ILL` (10_state.md rules R32, R35). No arithmetic result sets a flag. -/

namespace Sys2Proof.Machine

/-- `STATUS.ILL`, bit 0. -/
def ill (status : Word) : Bool := status.getLsbD 0

/-- `STATUS.ILL <- 1`; bits 31:1 are written by nothing. -/
def setIll (status : Word) : Word := status ||| 1#32

/-- `STATUS.ILL <- 0` (rule R232). -/
def clearIll (status : Word) : Word := status &&& 0xFFFFFFFE#32

/-- `STATUS` as `READ` returns it: bits 31:1 read as zero (rule R32). -/
def statusRead (status : Word) : Word := status &&& 1#32

end Sys2Proof.Machine
end

