-- ==== Sys2Proof/Machine/Operands.lean ====
section
/-! DEFINITION. Operand and result formats (30_encoding.md rules R74, R75). -/

namespace Sys2Proof.Machine

/-- `CODE`: bits `ADC_BITS`-1:0 of the operand word as an unsigned integer, the other bits ignored. -/
def codeOperand (c : Cfg) (w : Word) : Nat := w.toNat % 2 ^ c.adcBits

/-- `F32`: the whole word is a binary32 bit pattern, every pattern accepted. -/
def f32Operand (w : Word) : F32 := w

/-- `TIME`: the whole word is an unsigned 32-bit tick count. -/
def timeOperand (w : Word) : Word := w

/-- `i2f` of a CODE operand: exact, no bias subtracted (41_receive.md rule R142, 43_transmit.md rule R191). -/
def codeToF32 (c : Cfg) (w : Word) : F32 := i2f (codeOperand c w : Int)

/-- `I32`: a signed integer in two's complement in all 32 bits. -/
def i32Result (n : Int) : Word := BitVec.ofInt 32 n

/-- `F32`: a binary32 bit pattern. -/
def f32Result (y : F32) : Word := y

/-- `U32`: an unsigned value zero-extended to 32 bits. -/
def u32Result (n : Nat) : Word := BitVec.ofNat 32 n

end Sys2Proof.Machine
end

