-- ==== Sys2Proof/Machine/Ops.lean ====
section
/-! DEFINITION. The named operations over the state: the instances by name (10_state.md rule R23), one step of a named
instance, the result registers (rule R22), the illegal command (60_exceptions.md rule R250: the only anomaly the block
records; there is no trap entry and no return, rules R255, R256), reset (70_reset_and_hazards.md rule R280) and taking
the host's next event. -/

namespace Sys2Proof.Machine

/-- `RESA <- a; RESB <- b` (rule R22: every command writes both). -/
def State.withResults (s : State) (a b : Word) : State := { s with resa := a, resb := b }

/-- An illegal command word (rule R250): `STATUS.ILL <- 1`, both results 0, nothing else. -/
def illegalCommand (s : State) : State := { s with status := setIll s.status, resa := 0#32, resb := 0#32 }

/-- Reset (rule R280): every piece of state takes its reset value; the configuration is not affected, and the host's
stream is the host's. -/
def State.assertReset (s : State) : State := { State.reset with cfg := s.cfg, input := s.input }

/-- Building a block of configuration `c` (70_reset_and_hazards.md rule R282): it powers up in the reset state. An
ill-formed configuration is refused (00_scope.md rule R16). -/
def State.build (c : Cfg) : Host.Outcome State Fault Refusal :=
  if c.wf then .next { State.reset with cfg := c } else .refused .illFormedConfig

/-- The host's next event and the state without it, or none while the host presents nothing. -/
def State.takeEvent (s : State) : Option (HostEvent × State) :=
  match s.input with
  | [] => none
  | e :: rest => some (e, { s with input := rest })

def State.dcb (s : State) : DcbInst → DcbState
  | .rxI => s.dcbRxI
  | .rxQ => s.dcbRxQ
  | .tx => s.dcbTx

def State.setDcb (s : State) (k : DcbInst) (v : DcbState) : State :=
  match k with
  | .rxI => { s with dcbRxI := v }
  | .rxQ => { s with dcbRxQ := v }
  | .tx => { s with dcbTx := v }

def State.ap (s : State) : ApInst → ApState
  | .rxP => s.apRxP
  | .rxN => s.apRxN
  | .txP => s.apTxP
  | .txN => s.apTxN

def State.setAp (s : State) (k : ApInst) (v : ApState) : State :=
  match k with
  | .rxP => { s with apRxP := v }
  | .rxN => { s with apRxN := v }
  | .txP => { s with apTxP := v }
  | .txN => { s with apTxN := v }

def State.fir (s : State) : FirInst → FirState
  | .rxSsb => s.firRxSsb
  | .rxCw => s.firRxCw
  | .txShape => s.firTxShape
  | .txI => s.firTxI
  | .txQ => s.firTxQ

def State.setFir (s : State) (k : FirInst) (v : FirState) : State :=
  match k with
  | .rxSsb => { s with firRxSsb := v }
  | .rxCw => { s with firRxCw := v }
  | .txShape => { s with firTxShape := v }
  | .txI => { s with firTxI := v }
  | .txQ => { s with firTxQ := v }

def State.ma (s : State) : MaInst → MaState
  | .rxI => s.maRxI
  | .rxQ => s.maRxQ

def State.setMa (s : State) (k : MaInst) (v : MaState) : State :=
  match k with
  | .rxI => { s with maRxI := v }
  | .rxQ => { s with maRxQ := v }

/-- `K(SEL)` (rule R106): `K_P` for the P cascades, `K_N` for the N cascades. -/
def apCoeffs (c : Cfg) : ApInst → Triple
  | .rxP => c.kP
  | .rxN => c.kN
  | .txP => c.kP
  | .txN => c.kN

/-- `H(SEL)` and, as its length, `L(SEL)` (rule R111). -/
def firTable (c : Cfg) : FirInst → List F32
  | .rxSsb => c.hSsb
  | .rxCw => c.hCw
  | .txShape => c.hTxs
  | .txI => c.hTxi
  | .txQ => c.hTxq

/-- One sample through a DC-blocker instance. -/
def stepDcb (k : DcbInst) (x : F32) (s : State) : F32 × State :=
  let r := dcbUnit s.cfg (s.dcb k) x
  (r.1, s.setDcb k r.2)

/-- One sample through an all-pass cascade instance. -/
def stepAp (k : ApInst) (x : F32) (s : State) : F32 × State :=
  let r := apUnit s.cfg (apCoeffs s.cfg k) (s.ap k) x
  (r.1, s.setAp k r.2)

/-- One sample through a FIR instance. -/
def stepFir (k : FirInst) (x : F32) (s : State) : F32 × State :=
  let r := firUnit s.cfg (firTable s.cfg k) (s.fir k) x
  (r.1, s.setFir k r.2)

/-- One sample through a smoother instance. -/
def stepMa (k : MaInst) (x : F32) (s : State) : F32 × State :=
  let r := maUnit s.cfg (s.ma k) x
  (r.1, s.setMa k r.2)

end Sys2Proof.Machine
end

