-- ==== Sys2Proof/Machine/Control.lean ====
section
/-! DEFINITION. The control commands (45_control.md): `NOP`, `READ`, `STATUS_CLEAR`. -/

namespace Sys2Proof.Machine

/-- The register a `READ` returns (rules R33, R231). -/
def readRegister (s : State) : ReadReg → Word
  | .smeter => u32Result s.smeter.toNat
  | .micPeak => u32Result s.micPeak.toNat
  | .env => f32Result s.env
  | .status => statusRead s.status

/-- `NOP` (rule R230). -/
def execNop (s : State) : Host.Outcome State Fault Refusal := .next (s.withResults 0#32 0#32)

/-- `READ` (rule R231). -/
def execRead (reg : ReadReg) (s : State) : Host.Outcome State Fault Refusal :=
  .next (s.withResults (readRegister s reg) 0#32)

/-- `STATUS_CLEAR` (rule R232). -/
def execStatusClear (s : State) : Host.Outcome State Fault Refusal :=
  .next ({ s with status := clearIll s.status }.withResults 0#32 0#32)

end Sys2Proof.Machine
end

