-- ==== Sys2Proof/Machine/MicLevel.lean ====
section
/-! DEFINITION. The mic level meter (44_mic_level.md): `MIC_SAMPLE`. -/

namespace Sys2Proof.Machine

/-- `|cm - BIAS|` (rule R211). -/
def micMagnitude (c : Cfg) (cm : Nat) : Nat := ((cm : Int) - (c.bias : Int)).natAbs

/-- A timer has expired when at least its duration has passed since the stored time, modulo 2^32 (rule R212). -/
def timerExpired (now since duration : Word) : Bool := decide (duration.toNat ≤ (now - since).toNat)

/-- The meter's update (rule R210) for a magnitude at time `now`. -/
def micUpdate (m : Nat) (now : Word) (s : State) : State :=
  if s.micPeak.toNat < m then { s with micPeak := BitVec.ofNat 16 m, tDecay := now, tHang := now }
  else if timerExpired now s.tHang s.cfg.micHang && timerExpired now s.tDecay s.cfg.micDecay then
    { s with micPeak := BitVec.ofNat 16 (s.micPeak.toNat - min s.micPeak.toNat s.cfg.micStep), tDecay := now }
  else s

/-- `MIC_SAMPLE` (rule R210). -/
def execMicSample (opa opb : Word) (s : State) : Host.Outcome State Fault Refusal :=
  let s' := micUpdate (micMagnitude s.cfg (codeOperand s.cfg opa)) (timeOperand opb) s
  .next (s'.withResults (u32Result s'.micPeak.toNat) 0#32)

end Sys2Proof.Machine
end

