-- ==== Sys2Proof/Machine/Agc.lean ====
section
/-! DEFINITION. The AGC peak tracker and the S-meter (42_agc_smeter.md): `AGC_STEP`, `AGC_MUTE`, `SMETER_UPDATE`. -/

namespace Sys2Proof.Machine

/-- `agc_track` (rule R160): the envelope after a magnitude `a`. A NaN magnitude takes the decay branch. -/
def agcTrack (c : Cfg) (env a : F32) : F32 := if fgt a env then a else fpMul c.fp env c.kDecay

/-- `min(max_gain, target / envelope)` (rule R161): `MAX_GAIN` unless the quotient is below it. -/
def agcGain (c : Cfg) (env : F32) : F32 :=
  let q := fpDiv c.fp c.target env
  if flt q c.maxGain then q else c.maxGain

/-- The output of `agc_step` for the tracked envelope `env` (rule R161). -/
def agcOutput (c : Cfg) (env x : F32) : Int :=
  f2i (if flt env c.silence then fpMul c.fp x c.maxGain else fpMul c.fp x (agcGain c env))

/-- `agc_step` (rule R161): track first, then compute the output from the updated envelope. -/
def stepAgc (x : F32) (s : State) : Int × State :=
  let env' := agcTrack s.cfg s.env (fabs x)
  (agcOutput s.cfg env' x, { s with env := env' })

/-- `AGC_STEP` (rule R162). -/
def execAgcStep (opa : Word) (s : State) : Host.Outcome State Fault Refusal :=
  let r := stepAgc (f32Operand opa) s
  .next (r.2.withResults (i32Result r.1) 0#32)

/-- `AGC_MUTE` (rule R163). -/
def execAgcMute (s : State) : Host.Outcome State Fault Refusal :=
  .next ({ s with env := s.cfg.muteEnv }.withResults 0#32 0#32)

/-- `SMETER_UPDATE` (rule R169). -/
def execSmeterUpdate (s : State) : Host.Outcome State Fault Refusal :=
  let v : BitVec 8 := BitVec.ofNat 8 (smeterValue s.cfg s.env).toNat
  .next ({ s with smeter := v }.withResults (u32Result v.toNat) 0#32)

end Sys2Proof.Machine
end

