-- ==== Sys2Proof/Machine/Receive.lean ====
section
/-! DEFINITION. The receive demodulator (41_receive.md): `RX_SAMPLE`. -/

namespace Sys2Proof.Machine

/-- The selectivity filter of a mode (rule R143): only that instance is stepped. -/
def rxFilter : RxMode → FirInst
  | .ssb => .rxSsb
  | .cw => .rxCw

/-- The smoother of a branch, in the chain exactly when `RX_SMOOTH` (rule R141). -/
def smoothRx (k : MaInst) (x : F32) (s : State) : F32 × State :=
  if s.cfg.rxSmooth then stepMa k x s else (x, s)

/-- `RX_SAMPLE` (rule R140). -/
def execRxSample (mode : RxMode) (opa opb : Word) (s : State) : Host.Outcome State Fault Refusal :=
  let di := stepDcb .rxI (codeToF32 s.cfg opa) s
  let dq := stepDcb .rxQ (codeToF32 s.cfg opb) di.2
  let mi := smoothRx .rxI di.1 dq.2
  let mq := smoothRx .rxQ dq.1 mi.2
  let p := stepAp .rxP mi.1 mq.2
  let n := stepAp .rxN mq.1 p.2
  let e := fpSub s.cfg.fp p.1 n.1
  let f := stepFir (rxFilter mode) e n.2
  let a := fpMul s.cfg.fp f.1 s.cfg.rxScale
  let out := stepAgc a f.2
  .next (out.2.withResults (i32Result out.1) 0#32)

end Sys2Proof.Machine
end

