-- ==== Sys2Proof/Machine/Transmit.lean ====
section
/-! DEFINITION. The transmit processor (43_transmit.md): `TX_SAMPLE`. -/

namespace Sys2Proof.Machine

/-- `√(I² + Q²)` as rule R190 step 4 computes it. -/
def txMagnitude (c : Cfg) (i q : F32) : F32 := fpSqrt c.fp (fpAdd c.fp (fpMul c.fp i i) (fpMul c.fp q q))

/-- The envelope divisor (rule R193): `r` when above `TX_MAG_FLOOR`, the floor otherwise; a NaN takes the floor. -/
def txDivisor (c : Cfg) (r : F32) : F32 := if fgt r c.txMagFloor then r else c.txMagFloor

/-- `TX_SAMPLE` (rule R190). -/
def execTxSample (opa : Word) (s : State) : Host.Outcome State Fault Refusal :=
  let d := stepDcb .tx (codeToF32 s.cfg opa) s
  let u := fpMul s.cfg.fp d.1 s.cfg.txNorm
  let g := fpMul s.cfg.fp u s.cfg.txGain
  let sh := stepFir .txShape g d.2
  let i := stepAp .txP sh.1 sh.2
  let q := stepAp .txN sh.1 i.2
  let m := txDivisor s.cfg (txMagnitude s.cfg i.1 q.1)
  let fi := stepFir .txI (fpDiv s.cfg.fp i.1 m) q.2
  let fq := stepFir .txQ (fpDiv s.cfg.fp q.1 m) fi.2
  .next (fq.2.withResults (i32Result (f2i (fpMul s.cfg.fp fi.1 s.cfg.txOutScale)))
    (i32Result (f2i (fpMul s.cfg.fp fq.1 s.cfg.txOutScale))))

end Sys2Proof.Machine
end

