-- ==== Sys2Proof/Machine/UnitSteps.lean ====
section
/-! DEFINITION. The unit-step commands of 40_stream_filters.md: `DCB_STEP`, `AP_STEP`, `FIR_STEP`, `MA_STEP`. -/

namespace Sys2Proof.Machine

/-- `DCB_STEP` (rule R101). -/
def execDcbStep (inst : DcbInst) (opa : Word) (s : State) : Host.Outcome State Fault Refusal :=
  let r := stepDcb inst (f32Operand opa) s
  .next (r.2.withResults (f32Result r.1) 0#32)

/-- `AP_STEP` (rule R106). -/
def execApStep (inst : ApInst) (opa : Word) (s : State) : Host.Outcome State Fault Refusal :=
  let r := stepAp inst (f32Operand opa) s
  .next (r.2.withResults (f32Result r.1) 0#32)

/-- `FIR_STEP` (rule R111). -/
def execFirStep (inst : FirInst) (opa : Word) (s : State) : Host.Outcome State Fault Refusal :=
  let r := stepFir inst (f32Operand opa) s
  .next (r.2.withResults (f32Result r.1) 0#32)

/-- `MA_STEP` (rule R117). -/
def execMaStep (inst : MaInst) (opa : Word) (s : State) : Host.Outcome State Fault Refusal :=
  let r := stepMa inst (f32Operand opa) s
  .next (r.2.withResults (f32Result r.1) 0#32)

end Sys2Proof.Machine
end

