-- ==== Sys2Proof/Machine/Dispatch.lean ====
section
/-! DEFINITION. One arm per command of 30_encoding.md rule R73, each one call of its meaning. -/

namespace Sys2Proof.Machine

def exec (i : Instr) (s : State) : Host.Outcome State Fault Refusal :=
  match i with
  | .nop => Sys2Proof.Machine.execNop s
  | .rxSample mode opa opb => Sys2Proof.Machine.execRxSample mode opa opb s
  | .txSample opa => Sys2Proof.Machine.execTxSample opa s
  | .agcMute => Sys2Proof.Machine.execAgcMute s
  | .smeterUpdate => Sys2Proof.Machine.execSmeterUpdate s
  | .micSample opa opb => Sys2Proof.Machine.execMicSample opa opb s
  | .read reg => Sys2Proof.Machine.execRead reg s
  | .statusClear => Sys2Proof.Machine.execStatusClear s
  | .dcbStep inst opa => Sys2Proof.Machine.execDcbStep inst opa s
  | .apStep inst opa => Sys2Proof.Machine.execApStep inst opa s
  | .firStep inst opa => Sys2Proof.Machine.execFirStep inst opa s
  | .maStep inst opa => Sys2Proof.Machine.execMaStep inst opa s
  | .agcStep opa => Sys2Proof.Machine.execAgcStep opa s

end Sys2Proof.Machine
end

