-- ==== Sys2Proof/Machine/Step.lean ====
section
/-! DEFINITION. One step of the machine: the host's next event, performed whole (20_memory.md rules R58, R59). -/

namespace Sys2Proof.Machine

/-- One presented command: a legal word performs its rule, any other word is an illegal command (30_encoding.md rule
R72, 60_exceptions.md rule R254). -/
def perform (t : Transaction) (s : State) : Host.Outcome State Fault Refusal :=
  match decode t with
  | .ok i => exec i s
  | .error _ => .next (illegalCommand s)

/-- One step. Reset takes precedence over a command presented at the same time, which is lost (rules R254, R280).
While the host presents nothing the state stays (log entry 2). -/
def step (s : State) : Host.Outcome State Fault Refusal :=
  match s.takeEvent with
  | none => .next s
  | some (.reset _, s') => .next s'.assertReset
  | some (.command t, s') => perform t s'

/-- `s` with the command whose bits are `w` as the next event the host presents, before any it presents already. -/
def State.withFetchWord (s : State) (nbits w : Nat) : State :=
  { s with input := .command (transactionOfNat nbits w) :: s.input }

end Sys2Proof.Machine
end

