-- ==== Sys2Proof/Machine/Assembler.lean ====
section
/-! DEFINITION. The spec's assembly syntax (30_encoding.md rules R78 to R80): one command per line,
`MNEMONIC[.SELNAME] [operand[, operand]]`. There are no pseudo-instructions: one line is one command. -/

namespace Sys2Proof.Machine

/-- What the assembler reads an operand position as (rule R74). -/
inductive OperandKind where
  | code
  | f32
  | time
deriving DecidableEq, Repr

/-- One form of rule R78's table: the name with its `SELNAME`, the command word, the operands in order. -/
structure AsmForm where
  name : String
  cmd : Word
  operands : List OperandKind
deriving DecidableEq, Repr

/-- Why a line is refused. -/
inductive AsmError where
  /-- No form of rule R78 has this name. -/
  | unknownForm
  /-- More operands than the form takes. -/
  | tooManyOperands
  /-- An operand is no literal of rule R79. -/
  | badLiteral
  /-- A CODE operand outside [0, 2^`ADC_BITS` - 1] (rule R79). -/
  | codeOutOfRange
deriving DecidableEq, Repr

/-- The chain, meter and control forms of rule R78. -/
def chainForms : List AsmForm :=
  [⟨"NOP", 0x00000000#32, []⟩,
   ⟨"RX_SAMPLE.SSB", 0x00000001#32, [.code, .code]⟩,
   ⟨"RX_SAMPLE.CW", 0x00000101#32, [.code, .code]⟩,
   ⟨"TX_SAMPLE", 0x00000002#32, [.code]⟩,
   ⟨"AGC_MUTE", 0x00000003#32, []⟩,
   ⟨"SMETER_UPDATE", 0x00000004#32, []⟩,
   ⟨"MIC_SAMPLE", 0x00000005#32, [.code, .time]⟩,
   ⟨"READ.SMETER", 0x00000006#32, []⟩,
   ⟨"READ.MICPEAK", 0x00000106#32, []⟩,
   ⟨"READ.ENV", 0x00000206#32, []⟩,
   ⟨"READ.STATUS", 0x00000306#32, []⟩,
   ⟨"STATUS_CLEAR", 0x00000007#32, []⟩]

/-- The unit-step forms of rule R78. -/
def unitForms : List AsmForm :=
  [⟨"DCB_STEP.RX_I", 0x00000010#32, [.f32]⟩,
   ⟨"DCB_STEP.RX_Q", 0x00000110#32, [.f32]⟩,
   ⟨"DCB_STEP.TX", 0x00000210#32, [.f32]⟩,
   ⟨"AP_STEP.RX_P", 0x00000011#32, [.f32]⟩,
   ⟨"AP_STEP.RX_N", 0x00000111#32, [.f32]⟩,
   ⟨"AP_STEP.TX_P", 0x00000211#32, [.f32]⟩,
   ⟨"AP_STEP.TX_N", 0x00000311#32, [.f32]⟩,
   ⟨"FIR_STEP.RX_SSB", 0x00000012#32, [.f32]⟩,
   ⟨"FIR_STEP.RX_CW", 0x00000112#32, [.f32]⟩,
   ⟨"FIR_STEP.TX_SHAPE", 0x00000212#32, [.f32]⟩,
   ⟨"FIR_STEP.TX_I", 0x00000312#32, [.f32]⟩,
   ⟨"FIR_STEP.TX_Q", 0x00000412#32, [.f32]⟩,
   ⟨"MA_STEP.RX_I", 0x00000013#32, [.f32]⟩,
   ⟨"MA_STEP.RX_Q", 0x00000113#32, [.f32]⟩,
   ⟨"AGC_STEP", 0x00000014#32, [.f32]⟩]

/-- Every form of rule R78. -/
def asmForms : List AsmForm := chainForms ++ unitForms

def decDigit (c : Char) : Option Nat :=
  if '0'.toNat ≤ c.toNat ∧ c.toNat ≤ '9'.toNat then some (c.toNat - '0'.toNat) else none

def hexDigit (c : Char) : Option Nat :=
  if 'a'.toNat ≤ c.toNat ∧ c.toNat ≤ 'f'.toNat then some (c.toNat - 'a'.toNat + 10)
  else if 'A'.toNat ≤ c.toNat ∧ c.toNat ≤ 'F'.toNat then some (c.toNat - 'A'.toNat + 10)
  else decDigit c

/-- The value of a row of digits read after `acc`. -/
def digitsFrom (base : Nat) (digit : Char → Option Nat) : List Char → Nat → Option Nat
  | [], acc => some acc
  | c :: cs, acc =>
    match digit c with
    | some d => digitsFrom base digit cs (acc * base + d)
    | none => none

/-- The value of at least one digit. -/
def digitsValue (base : Nat) (digit : Char → Option Nat) (cs : List Char) : Option Nat :=
  if cs.isEmpty then none else digitsFrom base digit cs 0

/-- An exponent: an optional sign and decimal digits; (negative, value). -/
def exponentValue (cs : List Char) : Option (Bool × Nat) :=
  match cs with
  | '-' :: ds => (digitsValue 10 decDigit ds).map fun e => (true, e)
  | '+' :: ds => (digitsValue 10 decDigit ds).map fun e => (false, e)
  | ds => (digitsValue 10 decDigit ds).map fun e => (false, e)

/-- The digits of a mantissa and how many of them stand after the decimal point. -/
def mantissaValue (cs : List Char) : Option (Nat × Nat) :=
  match cs.splitOn '.' with
  | [whole] => (digitsValue 10 decDigit whole).map fun n => (n, 0)
  | [whole, frac] => (digitsValue 10 decDigit (whole ++ frac)).map fun n => (n, frac.length)
  | _ => none

/-- An unsigned float literal as the nearest binary32 (rule R79). -/
def floatMagnitude (neg : Bool) (cs : List Char) : Option F32 :=
  let parts := match cs.splitOn 'e' with
    | [m, e] => (mantissaValue m).bind fun mv => (exponentValue e).map fun ev => (mv, ev)
    | [m] => (mantissaValue m).map fun mv => (mv, (false, 0))
    | _ => none
  parts.map fun p =>
    if p.2.1 then ratToF32 neg p.1.1 (10 ^ (p.1.2 + p.2.2)) else ratToF32 neg (p.1.1 * 10 ^ p.2.2) (10 ^ p.1.2)

/-- A float literal, with an optional minus sign (log entry 13). -/
def floatValue (cs : List Char) : Option F32 :=
  match cs with
  | '-' :: ds => floatMagnitude true ds
  | ds => floatMagnitude false ds

/-- An integer literal stored as an unsigned 32-bit value (rule R79). The spec does not say what becomes of a literal of
2^32 or more; the model refuses it (DESIGN CHOICE, log entry 13). -/
def integerWord (n : Option Nat) : Option Word := n.bind fun v => if v < 2 ^ 32 then some (BitVec.ofNat 32 v) else none

/-- An operand literal (rule R79). Only a float literal may carry a minus sign: the spec gives an integer literal none and
stores it as an unsigned value, and the model refuses a negative one for every kind of operand (DESIGN CHOICE, log entry
13). -/
def literalWord (cs : List Char) : Option Word :=
  match cs with
  | 'f' :: '3' :: '2' :: ':' :: '0' :: 'x' :: ds => if ds.length = 8 then integerWord (digitsValue 16 hexDigit ds) else none
  | '0' :: 'x' :: ds => integerWord (digitsValue 16 hexDigit ds)
  | ds =>
    if ds.contains '.' || ds.contains 'e' || ds.contains 'E' then
      floatValue (ds.map fun c => if c = 'E' then 'e' else c)
    else integerWord (digitsValue 10 decDigit ds)

def trimSpaces (cs : List Char) : List Char := ((cs.dropWhile (· == ' ')).reverse.dropWhile (· == ' ')).reverse

/-- One operand word, or why it is refused. -/
def assembleOperand (adcBits : Nat) (k : OperandKind) (cs : List Char) : Except AsmError Word :=
  match literalWord (trimSpaces cs) with
  | none => .error .badLiteral
  | some w => if k = .code ∧ codeInRange adcBits w = false then .error .codeOutOfRange else .ok w

/-- The operand words in order; a missing operand is assembled as 0 (rule R78). -/
def assembleOperands (adcBits : Nat) : List OperandKind → List (List Char) → Except AsmError (List Word)
  | _, [] => .ok []
  | [], _ :: _ => .error .tooManyOperands
  | k :: ks, cs :: rest =>
    match assembleOperand adcBits k cs with
    | .error e => .error e
    | .ok w => (assembleOperands adcBits ks rest).map (w :: ·)

/-- Assembles one line into the three words of its command (rules R78, R79). -/
def assemble (adcBits : Nat) (line : String) : Except AsmError Transaction :=
  let cs := trimSpaces line.toList
  let head := cs.takeWhile (· != ' ')
  let tail := trimSpaces (cs.dropWhile (· != ' '))
  match asmForms.find? fun f => f.name.toList = head with
  | none => .error .unknownForm
  | some f =>
    match assembleOperands adcBits f.operands (if tail.isEmpty then [] else tail.splitOn ',') with
    | .error e => .error e
    | .ok ws => .ok ⟨f.cmd, ws.getD 0 0#32, ws.getD 1 0#32⟩

end Sys2Proof.Machine
end

