-- ==== Sys2Proof/Safety.lean ====
section
/-! DEFINITION. The terms claims about runs are stated in: performing a list of commands, the results a host sees, the
parts of the state each chain owns (60_exceptions.md rule R260), the invariant of the machine, and the host duties of
70_reset_and_hazards.md that one core can show. -/

namespace Sys2Proof.Safety

open Machine

/-- A step that completes with a next state: the only safe outcome. -/
def completes (s : State) : Prop := ∃ t, step s = .next t

/-- The state after a presented command, or the state itself if the machine stopped. -/
def after (t : Transaction) (s : State) : State :=
  match perform t s with
  | .next s' => s'
  | .fault _ => s
  | .refused _ => s

/-- The state after a list of commands, in presentation order (20_memory.md rule R58). -/
def performAll : List Transaction → State → State
  | [], s => s
  | t :: ts, s => performAll ts (after t s)

/-- Whether a presented command is legal and `p` of what it decodes to. -/
def decodesTo (p : Instr → Bool) (t : Transaction) : Bool :=
  match decode t with
  | .ok i => p i
  | .error _ => false

/-- The results `RESA`, `RESB` the host sees of those commands of a list that satisfy `p`. -/
def results (p : Instr → Bool) : List Transaction → State → List (Word × Word)
  | [], _ => []
  | t :: ts, s =>
    let s' := after t s
    if decodesTo p t then (s'.resa, s'.resb) :: results p ts s' else results p ts s'

def isRxSample : Instr → Bool
  | .rxSample _ _ _ => true
  | _ => false

def isTxSample : Instr → Bool
  | .txSample _ => true
  | _ => false

/-- The commands that write state the receive chain owns: the chain itself, the AGC's own commands and the unit steps
of its instances (10_state.md rule R23, 70_reset_and_hazards.md rule R285). -/
def touchesRx : Instr → Bool
  | .rxSample _ _ _ => true
  | .agcMute => true
  | .agcStep _ => true
  | .dcbStep k _ => decide (k ≠ .tx)
  | .apStep k _ => decide (k = .rxP ∨ k = .rxN)
  | .firStep k _ => decide (k = .rxSsb ∨ k = .rxCw)
  | .maStep _ _ => true
  | _ => false

/-- The commands that write state the transmit chain owns. -/
def touchesTx : Instr → Bool
  | .txSample _ => true
  | .dcbStep k _ => decide (k = .tx)
  | .apStep k _ => decide (k = .txP ∨ k = .txN)
  | .firStep k _ => decide (k = .txShape ∨ k = .txI ∨ k = .txQ)
  | _ => false

/-- The commands rule R55 of 20_memory.md calls idempotent. -/
def idempotent : Instr → Bool
  | .nop => true
  | .read _ => true
  | .statusClear => true
  | .agcMute => true
  | _ => false

/-- The configuration keeps the envelope positive: `FP` is the spec's, `K_DECAY` > 0, and `MUTE_ENV` is no negative zero.
Rule R29 of 10_state.md states its facts about `ENV` for the spec's values (log entry 16). -/
def envConfig (c : Cfg) : Prop := c.fp = .binary32 ∧ fgt c.kDecay posZero = true ∧ signBit c.muteEnv = false

/-- The invariant of the machine: what 10_state.md says holds in every reachable state. -/
structure Inv (s : State) : Prop where
  /-- The configuration is well formed (00_scope.md rule R16). -/
  cfgWf : s.cfg.wf = true
  cfgEnv : envConfig s.cfg
  /-- `ENV` is never a NaN and never negative (rule R29). -/
  envNumber : isNaN s.env = false
  envSign : signBit s.env = false
  /-- `SMETER` is in [0, `SM_MAX`] (rule R30). -/
  smeterRange : s.smeter.toNat ≤ s.cfg.smMax.toNat
  /-- `MIC_PEAK` is in [0, 2^(`ADC_BITS` - 1)] (rule R31). -/
  micRange : s.micPeak.toNat ≤ 2 ^ (s.cfg.adcBits - 1)
  /-- `STATUS` bits 31:1 are zero (rule R32). -/
  statusReserved : statusRead s.status = s.status
  /-- Every DC blocker has `y_prev = s`, bit for bit (rule R25). -/
  dcbTied : ∀ k, (s.dcb k).yPrev = (s.dcb k).s
  /-- A FIR write position is below `FIR_CAP` (rules R27, R51). -/
  firRange : ∀ k, (s.fir k).idx.toNat < s.cfg.firCap
  /-- A smoother's positions are below `MA_LEN` (rules R28, R51). -/
  maRange : ∀ k, ∀ st ∈ [(s.ma k).stage0, (s.ma k).stage1, (s.ma k).stage2, (s.ma k).stage3], st.pos.toNat < s.cfg.maLen

/-- A mic time `t` in ticks less than 2^32 ticks after the stored time `t0` (rule R288's clock does not run backwards; that
rule bounds the ticks between consecutive commands, not the age of a stored time, which this does). -/
def micClockOk (t0 t : Nat) : Prop := t0 ≤ t ∧ t < t0 + 2 ^ 32

/-- A host that keeps to rule R285: no unit step on an instance a chain owns. -/
def noUnitStep (t : Transaction) : Prop :=
  decodesTo (fun i => (touchesRx i && !isRxSample i && i != .agcMute) || (touchesTx i && !isTxSample i)) t = false

end Sys2Proof.Safety
end

