-- ==== Sys2Proof/Certificates/Slice0/Obligations.lean ====
section
/-! DEFINITION. The statements for the provers. Each definition's docstring names the rule of spec/ it rests on; where a
clause is the model's own choice it says so and names the log entry. The helpers come first; they spell the spec's
pseudocode out again, apart from the model's own operations. -/

namespace Sys2Proof.Claims

open Machine

/-- The pairs (`OP`, `SEL`) of rule R73's opcode map, written out. -/
def legalPairs : List (Nat × Nat) :=
  [(0x00, 0), (0x01, 0), (0x01, 1), (0x02, 0), (0x03, 0), (0x04, 0), (0x05, 0), (0x06, 0), (0x06, 1), (0x06, 2),
   (0x06, 3), (0x07, 0), (0x10, 0), (0x10, 1), (0x10, 2), (0x11, 0), (0x11, 1), (0x11, 2), (0x11, 3), (0x12, 0),
   (0x12, 1), (0x12, 2), (0x12, 3), (0x12, 4), (0x13, 0), (0x13, 1), (0x14, 0)]

/-- The command word `c` is legal by rule R72. -/
def legalWord (c : Word) : Prop := c.toNat / 2 ^ 12 = 0 ∧ (c.toNat % 256, c.toNat / 256 % 16) ∈ legalPairs

/-- The configuration takes the spec's value of every parameter rule R7 gives one. -/
def specValues (c : Cfg) : Prop := ∃ p, c = Cfg.ofOpen p

/-- A finite binary32 word. -/
abbrev finiteWord (w : F32) : Prop := w.toNat / 2 ^ 23 % 256 ≠ 255

/-- A positive binary32 number, +∞ included. -/
abbrev positiveWord (w : F32) : Prop := 0 < w.toNat ∧ w.toNat ≤ 0x7F800000

/-- A table of finite entries and of a length rule R16 allows. -/
def tableWord (c : Cfg) (h : List F32) : Prop := 1 ≤ h.length ∧ h.length ≤ c.firCap ∧ ∀ w ∈ h, finiteWord w

/-- The list of rule R16 and of rule R7's table, written out. The model's own conjuncts: equal words for 'symmetric' (log
entry 19), the rounded quotient of the bound on `MUTE_ENV` and the two conjuncts on `ADC_BITS` and `BIAS` (log entry 8),
and the bounds on `FIR_CAP`, `MA_STAGES` and `MA_LEN` (log entry 4). -/
def wellFormedR16 (c : Cfg) : Prop :=
  (∀ h ∈ [c.hSsb, c.hCw, c.hTxs, c.hTxi, c.hTxq], tableWord c h) ∧
  (∀ w ∈ [c.kP.k0, c.kP.k1, c.kP.k2, c.kN.k0, c.kN.k1, c.kN.k2, c.kDc, c.kDecay, c.rxScale, c.txGain, c.txNorm,
    c.txOutScale, c.muteEnv], finiteWord w) ∧
  (∀ w ∈ [c.maxGain, c.silence, c.target], positiveWord w) ∧
  (∀ j, j < c.hTxs.length → c.hTxs.getD j 0#32 = c.hTxs.getD (c.hTxs.length - 1 - j) 0#32) ∧
  f2i (fpMul c.fp (flog10 c.log10 c.smLoRef) c.smLogScale) < f2i (fpMul c.fp (flog10 c.log10 c.smHiRef) c.smLogScale) ∧
  1 ≤ c.micStep ∧ c.micDecay.toNat ≤ c.micHang.toNat ∧ fle (fdiv c.target c.maxGain) c.muteEnv = true ∧
  (1 ≤ c.adcBits ∧ c.adcBits ≤ 16 ∧ c.bias = 2 ^ (c.adcBits - 1)) ∧
  (1 ≤ c.firCap ∧ c.firCap ≤ 256) ∧ (1 ≤ c.maStages ∧ c.maStages ≤ 4) ∧ (1 ≤ c.maLen ∧ c.maLen ≤ 32)

/-- The integer code of a CODE operand (rule R74). -/
def code (c : Cfg) (w : Word) : Nat := w.toNat % 2 ^ c.adcBits

/-- The new `s` of a DC blocker (rule R100), the operations being those of the configuration's `FP`. -/
def dcbNext (c : Cfg) (st : DcbState) (x : F32) : F32 :=
  fpAdd c.fp (fpSub c.fp st.s st.xPrev) (fpSub c.fp x (fpMul c.fp c.kDc st.yPrev))

/-- The output of one all-pass stage (rule R103). -/
def apNext (c : Cfg) (k : F32) (st : ApStage) (x : F32) : F32 :=
  fpSub c.fp (fpMul c.fp k (fpAdd c.fp x st.yPrev)) st.xPrev

/-- The output and state of an all-pass cascade (rules R103, R104). -/
def cascade (c : Cfg) (k : Triple) (st : ApState) (x : F32) : F32 × ApState :=
  let y0 := apNext c k.k0 st.stage0 x
  let y1 := apNext c k.k1 st.stage1 y0
  let y2 := apNext c k.k2 st.stage2 y1
  (y2, ⟨⟨x, y0⟩, ⟨y0, y1⟩, ⟨y1, y2⟩⟩)

/-- Entry `(idx - j) mod FIR_CAP` of a FIR history, on whole numbers (rule R51; `FIR_CAP` is 256 in the spec). -/
def historyAt (c : Cfg) (buf : Vector F32 256) (idx j : Nat) : F32 :=
  buf.toList.getD (((idx : Int) - (j : Int)) % (c.firCap : Int)).toNat posZero

/-- The output and state of a FIR convolver (rule R107): the sum in increasing `j` from +0.0. -/
def convolve (c : Cfg) (table : List F32) (st : FirState) (x : F32) : F32 × FirState :=
  let buf' := st.buf.set st.idx.toNat x st.idx.isLt
  ((List.range table.length).foldl
      (fun acc j => fpAdd c.fp acc (fpMul c.fp (table.getD j posZero) (historyAt c buf' st.idx.toNat j))) posZero,
    ⟨buf', BitVec.ofNat 8 ((st.idx.toNat + 1) % c.firCap)⟩)

/-- The same sum over an unbounded history `xs`, oldest first, at sample `n` (rule R110); samples before the first are
the zeros of reset. -/
def convolveUnbounded (c : Cfg) (table xs : List F32) (n : Nat) : F32 :=
  (List.range table.length).foldl
    (fun acc j =>
      fpAdd c.fp acc (fpMul c.fp (table.getD j posZero) (if j ≤ n then xs.getD (n - j) posZero else posZero))) posZero

/-- One box-car stage (rule R112; `MA_LEN` is 32 in the spec). -/
def boxcar (c : Cfg) (st : MaStage) (x : F32) : F32 × MaStage :=
  let old := st.dly.toList.getD st.pos.toNat posZero
  let sum' := fpAdd c.fp (fpSub c.fp st.sum old) x
  (fpDiv c.fp sum' (i2f c.maLen),
    ⟨sum', st.dly.set st.pos.toNat x st.pos.isLt, BitVec.ofNat 5 ((st.pos.toNat + 1) % c.maLen)⟩)

/-- The first `MA_STAGES` box-car stages in order (rule R113; `MA_STAGES` is 4 in the spec). -/
def smoother (c : Cfg) (st : MaState) (x : F32) : F32 × MaState :=
  let r0 := if 0 < c.maStages then boxcar c st.stage0 x else (x, st.stage0)
  let r1 := if 1 < c.maStages then boxcar c st.stage1 r0.1 else (r0.1, st.stage1)
  let r2 := if 2 < c.maStages then boxcar c st.stage2 r1.1 else (r1.1, st.stage2)
  let r3 := if 3 < c.maStages then boxcar c st.stage3 r2.1 else (r2.1, st.stage3)
  (r3.1, ⟨r0.2, r1.2, r2.2, r3.2⟩)

/-- The envelope after a sample (rule R160). -/
def trackedEnv (c : Cfg) (env x : F32) : F32 := if fgt (fabs x) env = true then fabs x else fpMul c.fp env c.kDecay

/-- The AGC output for a sample and the tracked envelope (rule R161). -/
def agcResult (c : Cfg) (env x : F32) : Int :=
  let q := fpDiv c.fp c.target env
  if flt env c.silence = true then f2i (fpMul c.fp x c.maxGain)
  else if flt q c.maxGain = true then f2i (fpMul c.fp x q)
  else f2i (fpMul c.fp x c.maxGain)

/-- `smeter_value()` (rule R167). -/
def smeterReading (c : Cfg) (env : F32) : Int :=
  let scaled := fun v => f2i (fpMul c.fp (flog10 c.log10 v) c.smLogScale)
  let lo := scaled c.smLoRef
  let hi := scaled c.smHiRef
  if fle env c.smFloor = true then 0 else ((min (max (scaled env) lo) hi - lo) * c.smMax.toNat).tdiv (hi - lo)

/-- Elapsed ticks modulo 2^32 (rule R210). -/
def elapsed (now since : Word) : Nat := (now.toNat + 2 ^ 32 - since.toNat) % 2 ^ 32

/-- The results `RESA` of commands performed one after another. -/
def outputs : List Instr → State → List Word
  | [], _ => []
  | i :: is, s =>
    match exec i s with
    | .next t => t.resa :: outputs is t
    | .fault _ => []
    | .refused _ => []

/-- The value of a number on one line with the infinities, in units of 2^-149: every finite magnitude is below 2^277. -/
def extended (a : F32) : Int := if isInf a = true then (if signBit a = true then -(2 ^ 300) else 2 ^ 300) else units a

/-- The infinity and the zero of sign `neg`. -/
def infinityOf (neg : Bool) : F32 := if neg then 0xFF800000#32 else 0x7F800000#32

def zeroOf (neg : Bool) : F32 := if neg then 0x80000000#32 else 0x00000000#32

/-- How far the value of `y` lies from `num / den` units of 2^-149, scaled by `den`. -/
def gap (num : Int) (den : Nat) (y : F32) : Nat := (units y * (den : Int) - num).natAbs

/-- `r` is the binary32 that IEEE 754 rounding to nearest, ties to even, gives for the real `num / den` units of 2^-149
(00_scope.md rule R10): an infinity from (2^24 - 1/2) * 2^253 units on, else a nearest finite value, and on a tie the
one with an even significand. -/
def RoundsTo (num : Int) (den : Nat) (r : F32) : Prop :=
  isNaN r = false ∧ (isInf r = true ↔ (2 ^ 278 - 2 ^ 253) * den ≤ 2 * num.natAbs) ∧
    (isFinite r = true → ∀ y, isFinite y = true →
      gap num den r ≤ gap num den y ∧ (gap num den r = gap num den y → units y ≠ units r → fracField r % 2 = 0))

end Sys2Proof.Claims

open Sys2Proof Sys2Proof.Machine Sys2Proof.Claims

/-! Encoding. -/

/-- 30_encoding.md R70 to R75 and 20_memory.md R54: the decoder reads back every command from its twelve bytes, with
every operand at every value, and leaves the bytes after it. -/
def Obligations.CommandBytesRoundTrip : Prop :=
  ∀ (i : Instr) (rest : List Byte), decodeBytes (encodeBytes i ++ rest) = .ok (i, rest)

/-- Rule R72: a command word is legal exactly when rule R73's map lists its `OP` and `SEL` and `RSV` is 0; any other word
changes only `STATUS.ILL` and the result registers. -/
def Obligations.LegalCommandWordsExactly : Prop :=
  ∀ t : Transaction, ((∃ i, decode t = .ok i) ↔ legalWord t.cmd) ∧
    (¬ legalWord t.cmd → ∀ s, perform t s = .next { s with status := s.status ||| 1#32, resa := 0#32, resb := 0#32 })

/-- Rule R73 read backwards: the presented word of a decoded command is the one the encoder gives, and an operand word
is either kept or, where the command ignores it, zeroed: the decoder then gives the same command for every value of it. -/
def Obligations.DecodedCommandReencodes : Prop :=
  ∀ (t : Transaction) (i : Instr), decode t = .ok i →
    (encode i).cmd = t.cmd ∧ decode (encode i) = .ok i ∧
      ((encode i).opa = t.opa ∨ (encode i).opa = 0#32 ∧ ∀ a, decode { t with opa := a } = .ok i) ∧
      ((encode i).opb = t.opb ∨ (encode i).opb = 0#32 ∧ ∀ b, decode { t with opb := b } = .ok i)

/-- The 27 command words of 30_encoding.md R78's table, written out, decode each to the command it stands for, with its
operands in order. -/
def Obligations.WrittenWordsDecode : Prop :=
  ∀ a b : Word,
    decode ⟨0x00000000#32, a, b⟩ = .ok .nop ∧ decode ⟨0x00000001#32, a, b⟩ = .ok (.rxSample .ssb a b) ∧
    decode ⟨0x00000101#32, a, b⟩ = .ok (.rxSample .cw a b) ∧ decode ⟨0x00000002#32, a, b⟩ = .ok (.txSample a) ∧
    decode ⟨0x00000003#32, a, b⟩ = .ok .agcMute ∧ decode ⟨0x00000004#32, a, b⟩ = .ok .smeterUpdate ∧
    decode ⟨0x00000005#32, a, b⟩ = .ok (.micSample a b) ∧ decode ⟨0x00000006#32, a, b⟩ = .ok (.read .smeter) ∧
    decode ⟨0x00000106#32, a, b⟩ = .ok (.read .micPeak) ∧ decode ⟨0x00000206#32, a, b⟩ = .ok (.read .env) ∧
    decode ⟨0x00000306#32, a, b⟩ = .ok (.read .status) ∧ decode ⟨0x00000007#32, a, b⟩ = .ok .statusClear ∧
    decode ⟨0x00000010#32, a, b⟩ = .ok (.dcbStep .rxI a) ∧ decode ⟨0x00000110#32, a, b⟩ = .ok (.dcbStep .rxQ a) ∧
    decode ⟨0x00000210#32, a, b⟩ = .ok (.dcbStep .tx a) ∧ decode ⟨0x00000011#32, a, b⟩ = .ok (.apStep .rxP a) ∧
    decode ⟨0x00000111#32, a, b⟩ = .ok (.apStep .rxN a) ∧ decode ⟨0x00000211#32, a, b⟩ = .ok (.apStep .txP a) ∧
    decode ⟨0x00000311#32, a, b⟩ = .ok (.apStep .txN a) ∧ decode ⟨0x00000012#32, a, b⟩ = .ok (.firStep .rxSsb a) ∧
    decode ⟨0x00000112#32, a, b⟩ = .ok (.firStep .rxCw a) ∧ decode ⟨0x00000212#32, a, b⟩ = .ok (.firStep .txShape a) ∧
    decode ⟨0x00000312#32, a, b⟩ = .ok (.firStep .txI a) ∧ decode ⟨0x00000412#32, a, b⟩ = .ok (.firStep .txQ a) ∧
    decode ⟨0x00000013#32, a, b⟩ = .ok (.maStep .rxI a) ∧ decode ⟨0x00000113#32, a, b⟩ = .ok (.maStep .rxQ a) ∧
    decode ⟨0x00000014#32, a, b⟩ = .ok (.agcStep a)

/-- Every form of the assembler's table (30_encoding.md R78) is one legal command word, and no word has two forms. -/
def Obligations.AssemblerFormsAreLegal : Prop :=
  (∀ f ∈ asmForms, legalWord f.cmd) ∧ (asmForms.map AsmForm.cmd).Nodup ∧ asmForms.length = legalPairs.length

/-- 30_encoding.md R74, 93_implementation_defined.md V4: bits of a CODE operand above `ADC_BITS` have no effect. -/
def Obligations.CodeHighBitsIgnored : Prop :=
  ∀ (s : State) (m : RxMode) (a a' b b' now : Word), code s.cfg a = code s.cfg a' → code s.cfg b = code s.cfg b' →
    exec (.rxSample m a b) s = exec (.rxSample m a' b') s ∧ exec (.txSample a) s = exec (.txSample a') s ∧
      exec (.micSample a now) s = exec (.micSample a' now) s

/-! The step. -/

/-- 20_memory.md R58: when the host presents a word that decodes to a command, the step is that command's meaning on the
state whose stream has moved past it. -/
def Obligations.StepPerformsDecodedCommand : Prop :=
  ∀ (s : State) (t : Transaction) (rest : List HostEvent) (i : Instr), s.input = .command t :: rest →
    decode t = .ok i → step s = exec i { s with input := rest }

/-- 60_exceptions.md R250: an illegal command performs no operation, sets `ILL`, zeroes the results and records nothing
else; the next command is accepted. That the host's stream moves on is the model's (log entry 1, DESIGN CHOICE). -/
def Obligations.IllegalCommandRecordsOnlyIll : Prop :=
  ∀ (s : State) (t : Transaction) (rest : List HostEvent), s.input = .command t :: rest → ¬ legalWord t.cmd →
    step s = .next { s with status := s.status ||| 1#32, resa := 0#32, resb := 0#32, input := rest }

/-- 70_reset_and_hazards.md R280 and 60_exceptions.md R254: asserted reset gives every piece of state its reset value, does
not affect the configuration, and wins over a command presented with it. -/
def Obligations.ResetTakesPrecedence : Prop :=
  ∀ (s : State) (lost : Option Transaction) (rest : List HostEvent), s.input = .reset lost :: rest →
    step s = .next { State.reset with cfg := s.cfg, input := rest }

/-- 10_state.md R38: every field after reset. -/
def Obligations.ResetValues : Prop :=
  (∀ k, State.reset.dcb k = ⟨0#32, 0#32, 0#32⟩) ∧
    (∀ k, State.reset.ap k = ⟨⟨0#32, 0#32⟩, ⟨0#32, 0#32⟩, ⟨0#32, 0#32⟩⟩) ∧
    (∀ k j, (State.reset.fir k).buf.toList.getD j 0#32 = 0#32 ∧ (State.reset.fir k).idx = 0#8) ∧
    (∀ k, ∀ st ∈ [(State.reset.ma k).stage0, (State.reset.ma k).stage1, (State.reset.ma k).stage2,
      (State.reset.ma k).stage3], st.sum = 0#32 ∧ st.pos = 0#5 ∧ ∀ j, st.dly.toList.getD j 0#32 = 0#32) ∧
    State.reset.env = 0#32 ∧ State.reset.smeter = 0#8 ∧ State.reset.micPeak = 0#16 ∧ State.reset.tDecay = 0#32 ∧
    State.reset.tHang = 0#32 ∧ State.reset.status = 0#32 ∧ State.reset.resa = 0#32 ∧ State.reset.resb = 0#32

/-- 60_exceptions.md R251, 70_reset_and_hazards.md R291: every command completes, whatever its operands and the state,
and so does every step. -/
def Obligations.EveryStepCompletes : Prop :=
  (∀ i s, ∃ t, exec i s = .next t) ∧ ∀ s, ∃ t, step s = .next t

/-- The model's choice (log entry 2, DESIGN CHOICE): while the host presents nothing the state stays. -/
def Obligations.NothingPresentedNothingHappens : Prop :=
  ∀ s : State, s.input = [] → step s = .next s

/-- 20_memory.md R58: a run over a list of presented commands is the commands performed one after another in order. That a
run takes one event of the stream a step and uses it up is the model's (log entry 1, DESIGN CHOICE). -/
def Obligations.RunIsSequential : Prop :=
  ∀ (ts : List Transaction) (s : State),
    Host.Core.run Sys2Proof.core ts.length ({ s with input := ts.map HostEvent.command } : State)
      = .next ({ Safety.performAll ts s with input := [] } : State)

/-- 00_scope.md R16, 93_implementation_defined.md V6: a block is built of exactly the configurations that meet R16's list, as
`wellFormedR16` writes it out. That others are refused where a block is built is the model's (log entry 14); so are the
conjuncts `wellFormedR16` names (log entries 4, 8, 19). -/
def Obligations.IllFormedConfigurationRefused : Prop :=
  ∀ c : Cfg, (wellFormedR16 c → State.build c = .next { State.reset with cfg := c }) ∧
    (¬ wellFormedR16 c → State.build c = .refused .illFormedConfig)

/-! What each command does, and what it leaves alone: every equation gives the whole next state. -/

/-- 45_control.md R230. -/
def Obligations.NopOnlyClearsResults : Prop :=
  ∀ s : State, exec .nop s = .next { s with resa := 0#32, resb := 0#32 }

/-- 45_control.md R231 with 10_state.md R32: the selected register, zero-extended; the reserved `STATUS` bits read as
zero; nothing else changes. -/
def Obligations.ReadReturnsRegister : Prop :=
  ∀ s : State,
    exec (.read .smeter) s = .next { s with resa := s.smeter.setWidth 32, resb := 0#32 } ∧
    exec (.read .micPeak) s = .next { s with resa := s.micPeak.setWidth 32, resb := 0#32 } ∧
    exec (.read .env) s = .next { s with resa := s.env, resb := 0#32 } ∧
    exec (.read .status) s = .next { s with resa := if s.status.getLsbD 0 then 1#32 else 0#32, resb := 0#32 }

/-- 45_control.md R232: bit 0 is cleared and every other bit kept. -/
def Obligations.StatusClearClearsIll : Prop :=
  ∀ s : State, ∃ st : Word, exec .statusClear s = .next { s with status := st, resa := 0#32, resb := 0#32 } ∧
    st.getLsbD 0 = false ∧ ∀ n, n ≠ 0 → st.getLsbD n = s.status.getLsbD n

/-- 42_agc_smeter.md R163. -/
def Obligations.MuteForcesEnvelope : Prop :=
  ∀ s : State, exec .agcMute s = .next { s with env := s.cfg.muteEnv, resa := 0#32, resb := 0#32 }

/-- 40_stream_filters.md R100: the selected DC blocker takes the update, every read before any write; nothing else changes
but the results. -/
def Obligations.DcbStepUpdatesOneInstance : Prop :=
  ∀ (s : State) (x : Word),
    let i := dcbNext s.cfg s.dcbRxI x
    let q := dcbNext s.cfg s.dcbRxQ x
    let t := dcbNext s.cfg s.dcbTx x
    exec (.dcbStep .rxI x) s = .next { s with dcbRxI := ⟨i, x, i⟩, resa := i, resb := 0#32 } ∧
    exec (.dcbStep .rxQ x) s = .next { s with dcbRxQ := ⟨q, x, q⟩, resa := q, resb := 0#32 } ∧
    exec (.dcbStep .tx x) s = .next { s with dcbTx := ⟨t, x, t⟩, resa := t, resb := 0#32 }

/-- 40_stream_filters.md R103, R104, R106: the selected cascade with its own coefficient triple. -/
def Obligations.ApStepUpdatesOneInstance : Prop :=
  ∀ (s : State) (x : Word),
    let a := cascade s.cfg s.cfg.kP s.apRxP x
    let b := cascade s.cfg s.cfg.kN s.apRxN x
    let c := cascade s.cfg s.cfg.kP s.apTxP x
    let d := cascade s.cfg s.cfg.kN s.apTxN x
    exec (.apStep .rxP x) s = .next { s with apRxP := a.2, resa := a.1, resb := 0#32 } ∧
    exec (.apStep .rxN x) s = .next { s with apRxN := b.2, resa := b.1, resb := 0#32 } ∧
    exec (.apStep .txP x) s = .next { s with apTxP := c.2, resa := c.1, resb := 0#32 } ∧
    exec (.apStep .txN x) s = .next { s with apTxN := d.2, resa := d.1, resb := 0#32 }

/-- 40_stream_filters.md R107, R111: the selected FIR with its own table, indices modulo `FIR_CAP`. R107 says 256; any other
`FIR_CAP` of 00_scope.md R7 as the modulus is the model's (log entry 4, DESIGN CHOICE). The bounds on `FIR_CAP` and on the tables hold of
every well-formed configuration. -/
def Obligations.FirStepUpdatesOneInstance : Prop :=
  ∀ (s : State) (x : Word), s.cfg.firCap ≤ 256 → (∀ k, (firTable s.cfg k).length ≤ s.cfg.firCap) →
    let a := convolve s.cfg s.cfg.hSsb s.firRxSsb x
    let b := convolve s.cfg s.cfg.hCw s.firRxCw x
    let c := convolve s.cfg s.cfg.hTxs s.firTxShape x
    let d := convolve s.cfg s.cfg.hTxi s.firTxI x
    let e := convolve s.cfg s.cfg.hTxq s.firTxQ x
    exec (.firStep .rxSsb x) s = .next { s with firRxSsb := a.2, resa := a.1, resb := 0#32 } ∧
    exec (.firStep .rxCw x) s = .next { s with firRxCw := b.2, resa := b.1, resb := 0#32 } ∧
    exec (.firStep .txShape x) s = .next { s with firTxShape := c.2, resa := c.1, resb := 0#32 } ∧
    exec (.firStep .txI x) s = .next { s with firTxI := d.2, resa := d.1, resb := 0#32 } ∧
    exec (.firStep .txQ x) s = .next { s with firTxQ := e.2, resa := e.1, resb := 0#32 }

/-- 40_stream_filters.md R112, R113, R117; the divisor of the spec's `MA_LEN` is 32.0. The rules say four stages, 32 entries and
32.0; any other `MA_STAGES` and `MA_LEN` of 00_scope.md R7 in their places is the model's (log entry 4, DESIGN CHOICE). -/
def Obligations.MaStepUpdatesOneInstance : Prop :=
  (∀ (s : State) (x : Word),
    let i := smoother s.cfg s.maRxI x
    let q := smoother s.cfg s.maRxQ x
    exec (.maStep .rxI x) s = .next { s with maRxI := i.2, resa := i.1, resb := 0#32 } ∧
    exec (.maStep .rxQ x) s = .next { s with maRxQ := q.2, resa := q.1, resb := 0#32 }) ∧ i2f 32 = 0x42000000#32

/-- 42_agc_smeter.md R160, R161, R162: the envelope is tracked first and the output computed from it. -/
def Obligations.AgcStepTracksThenScales : Prop :=
  ∀ (s : State) (x : Word),
    let e := trackedEnv s.cfg s.env x
    exec (.agcStep x) s = .next { s with env := e, resa := BitVec.ofInt 32 (agcResult s.cfg e x), resb := 0#32 }

/-- 42_agc_smeter.md R167, R169 and 10_state.md R30: the new value is in [0, `SM_MAX`], is stored and returned. -/
def Obligations.SmeterUpdateInRange : Prop :=
  ∀ s : State, s.cfg.wf = true →
    let v := smeterReading s.cfg s.env
    0 ≤ v ∧ v ≤ s.cfg.smMax.toNat ∧
      exec .smeterUpdate s = .next { s with smeter := BitVec.ofInt 8 v, resa := BitVec.ofInt 32 v, resb := 0#32 }

/-- 44_mic_level.md R210, R211, R212: capture, decay after both timers, or hold. -/
def Obligations.MicSampleCapturesDecaysOrHolds : Prop :=
  ∀ (s : State) (a now : Word),
    let m := ((code s.cfg a : Int) - (s.cfg.bias : Int)).natAbs
    let down := BitVec.ofNat 16 (s.micPeak.toNat - min s.micPeak.toNat s.cfg.micStep)
    (s.micPeak.toNat < m → exec (.micSample a now) s = .next { s with
        micPeak := BitVec.ofNat 16 m, tDecay := now, tHang := now, resa := (BitVec.ofNat 16 m).setWidth 32, resb := 0#32 }) ∧
    (m ≤ s.micPeak.toNat → s.cfg.micHang.toNat ≤ elapsed now s.tHang → s.cfg.micDecay.toNat ≤ elapsed now s.tDecay →
      exec (.micSample a now) s = .next { s with
        micPeak := down, tDecay := now, resa := down.setWidth 32, resb := 0#32 }) ∧
    (m ≤ s.micPeak.toNat → (elapsed now s.tHang < s.cfg.micHang.toNat ∨ elapsed now s.tDecay < s.cfg.micDecay.toNat) →
      exec (.micSample a now) s = .next { s with resa := s.micPeak.setWidth 32, resb := 0#32 })

/-- 41_receive.md R140, R141, R143: the whole receive chain as one update. Only the selected FIR is stepped; the smoothers
are stepped exactly when `RX_SMOOTH`. -/
def Obligations.RxSampleRunsTheChain : Prop :=
  ∀ (s : State) (m : RxMode) (a b : Word), s.cfg.firCap ≤ 256 → (∀ k, (firTable s.cfg k).length ≤ s.cfg.firCap) →
    let xi := i2f (code s.cfg a)
    let xq := i2f (code s.cfg b)
    let di := dcbNext s.cfg s.dcbRxI xi
    let dq := dcbNext s.cfg s.dcbRxQ xq
    let mi := if s.cfg.rxSmooth then smoother s.cfg s.maRxI di else (di, s.maRxI)
    let mq := if s.cfg.rxSmooth then smoother s.cfg s.maRxQ dq else (dq, s.maRxQ)
    let p := cascade s.cfg s.cfg.kP s.apRxP mi.1
    let n := cascade s.cfg s.cfg.kN s.apRxN mq.1
    let e := fpSub s.cfg.fp p.1 n.1
    let fs := if m = .ssb then convolve s.cfg s.cfg.hSsb s.firRxSsb e else (posZero, s.firRxSsb)
    let fc := if m = .cw then convolve s.cfg s.cfg.hCw s.firRxCw e else (posZero, s.firRxCw)
    let x := fpMul s.cfg.fp (if m = .ssb then fs.1 else fc.1) s.cfg.rxScale
    let env := trackedEnv s.cfg s.env x
    exec (.rxSample m a b) s = .next { s with
      dcbRxI := ⟨di, xi, di⟩, dcbRxQ := ⟨dq, xq, dq⟩, maRxI := mi.2, maRxQ := mq.2, apRxP := p.2, apRxN := n.2,
      firRxSsb := fs.2, firRxCw := fc.2, env := env, resa := BitVec.ofInt 32 (agcResult s.cfg env x), resb := 0#32 }

/-- 43_transmit.md R190 to R194: the whole transmit chain as one update. -/
def Obligations.TxSampleRunsTheChain : Prop :=
  ∀ (s : State) (a : Word), s.cfg.firCap ≤ 256 → (∀ k, (firTable s.cfg k).length ≤ s.cfg.firCap) →
    let fp := s.cfg.fp
    let x := i2f (code s.cfg a)
    let d := dcbNext s.cfg s.dcbTx x
    let g := fpMul fp (fpMul fp d s.cfg.txNorm) s.cfg.txGain
    let sh := convolve s.cfg s.cfg.hTxs s.firTxShape g
    let i := cascade s.cfg s.cfg.kP s.apTxP sh.1
    let q := cascade s.cfg s.cfg.kN s.apTxN sh.1
    let r := fpSqrt fp (fpAdd fp (fpMul fp i.1 i.1) (fpMul fp q.1 q.1))
    let m := if fgt r s.cfg.txMagFloor then r else s.cfg.txMagFloor
    let fi := convolve s.cfg s.cfg.hTxi s.firTxI (fpDiv fp i.1 m)
    let fq := convolve s.cfg s.cfg.hTxq s.firTxQ (fpDiv fp q.1 m)
    exec (.txSample a) s = .next { s with
      dcbTx := ⟨d, x, d⟩, firTxShape := sh.2, apTxP := i.2, apTxN := q.2, firTxI := fi.2, firTxQ := fq.2,
      resa := BitVec.ofInt 32 (f2i (fpMul fp fi.1 s.cfg.txOutScale)),
      resb := BitVec.ofInt 32 (f2i (fpMul fp fq.1 s.cfg.txOutScale)) }

/-! Who writes what. -/

/-- 10_state.md R30, R33, 42_agc_smeter.md R163, 44_mic_level.md R214, 60_exceptions.md R250: `ENV`, `SMETER`, the mic meter
and `STATUS` are each written by their own commands alone. -/
def Obligations.RegistersWrittenByTheirCommands : Prop :=
  ∀ (i : Instr) (s t : State), exec i s = .next t →
    (t.env ≠ s.env → i = .agcMute ∨ (∃ x, i = .agcStep x) ∨ ∃ m a b, i = .rxSample m a b) ∧
    (t.smeter ≠ s.smeter → i = .smeterUpdate) ∧
    (t.micPeak ≠ s.micPeak ∨ t.tDecay ≠ s.tDecay ∨ t.tHang ≠ s.tHang → ∃ a b, i = .micSample a b) ∧
    (t.status ≠ s.status → i = .statusClear)

/-- 20_memory.md R52, R62: no step changes the configuration, reset included (70_reset_and_hazards.md R280). -/
def Obligations.ConfigurationNeverChanges : Prop :=
  ∀ s t : State, step s = .next t → t.cfg = s.cfg

/-- 20_memory.md R55: `READ`, `NOP`, `STATUS_CLEAR` and `AGC_MUTE` repeated are the same as once. -/
def Obligations.IdempotentCommands : Prop :=
  ∀ (i : Instr) (s t : State), Safety.idempotent i = true → exec i s = .next t → exec i t = .next t

/-- 60_exceptions.md R260, 70_reset_and_hazards.md R285: what `RX_SAMPLE` commands return does not depend on any command
that writes no state of the receive chain. -/
def Obligations.ReceiveChainIsolated : Prop :=
  ∀ (ts : List Transaction) (s : State),
    Safety.results Safety.isRxSample ts s
      = Safety.results Safety.isRxSample (ts.filter (Safety.decodesTo Safety.touchesRx)) s

/-- 60_exceptions.md R260, 70_reset_and_hazards.md R285: what `TX_SAMPLE` commands return does not depend on any command
that writes no state of the transmit chain; so, with no unit step on a chain's instance, they return what they return with
every other command absent. -/
def Obligations.TransmitChainIsolated : Prop :=
  ∀ (ts : List Transaction) (s : State),
    Safety.results Safety.isTxSample ts s
        = Safety.results Safety.isTxSample (ts.filter (Safety.decodesTo Safety.touchesTx)) s ∧
      ((∀ t ∈ ts, Safety.noUnitStep t) → Safety.results Safety.isTxSample ts s
        = Safety.results Safety.isTxSample (ts.filter (Safety.decodesTo Safety.isTxSample)) s)

/-! The invariant. -/

/-- 10_state.md R25, R27 to R32: from every state of the invariant, every step leads to a state of it. -/
def Obligations.InvariantKeptByEveryStep : Prop :=
  ∀ s t : State, Safety.Inv s → step s = .next t → Safety.Inv t

/-- The invariant holds right after reset, for every admissible choice of the OPEN parameters (log entry 7). -/
def Obligations.InvariantHoldsAtReset : Prop := Safety.Inv State.reset

/-- The invariant holds of every block that is built of a well-formed configuration whose `FP` is the spec's, whose `K_DECAY`
is positive and whose `MUTE_ENV` is no negative zero (the premise is the model's, log entry 16). -/
def Obligations.InvariantHoldsWhenBuilt : Prop :=
  ∀ (c : Cfg) (s : State), State.build c = .next s → Safety.envConfig c → Safety.Inv s

/-! The units. -/

/-- 40_stream_filters.md R101: from reset the first output of a DC blocker equals the input. Stated for a number other than
the negative zero: the sum of rule R100 gives +0.0 for -0.0 and the quiet NaN for a NaN (log entry 17). -/
def Obligations.DcbFirstOutputIsInput : Prop :=
  ∀ (s : State) (k : DcbInst) (x : Word), s.dcb k = ⟨0#32, 0#32, 0#32⟩ → s.cfg.fp = .binary32 → isFinite s.cfg.kDc = true →
    isNaN x = false → x ≠ 0x80000000#32 → ∃ t, exec (.dcbStep k x) s = .next t ∧ t.resa = x

/-- 40_stream_filters.md R101: a NaN in a DC blocker stays in it through every command; only reset clears it. -/
def Obligations.DcbNanPersists : Prop :=
  ∀ (k : DcbInst) (ts : List Transaction) (s : State), isNaN (s.dcb k).s = true →
    isNaN ((Safety.performAll ts s).dcb k).s = true

/-- 40_stream_filters.md R110: from zero history, the circular buffer gives at every sample the sum over an unbounded
history, in the same product order. -/
def Obligations.FirMatchesUnboundedHistory : Prop :=
  ∀ (s : State) (k : FirInst) (xs : List Word), s.fir k = ⟨Vector.replicate 256 0#32, 0#8⟩ →
    s.cfg.firCap ≤ 256 → (firTable s.cfg k).length ≤ s.cfg.firCap →
    (outputs (xs.map fun x => Instr.firStep k x) s).length = xs.length ∧ ∀ n, n < xs.length →
      (outputs (xs.map fun x => Instr.firStep k x) s).getD n 0#32 = convolveUnbounded s.cfg (firTable s.cfg k) xs n

/-- 40_stream_filters.md R109: from zero history, 1.0 followed by zeros makes a FIR output its finite coefficient table, then
+0.0 for ever. A coefficient -0.0 comes out as +0.0, the sum of zeros from +0.0 (log entry 17). -/
def Obligations.FirImpulseResponse : Prop :=
  ∀ (s : State) (k : FirInst) (m n : Nat), s.fir k = ⟨Vector.replicate 256 0#32, 0#8⟩ → s.cfg.fp = .binary32 →
    s.cfg.firCap ≤ 256 → (firTable s.cfg k).length ≤ s.cfg.firCap → (∀ h ∈ firTable s.cfg k, isFinite h = true) → n ≤ m →
    let h := (firTable s.cfg k).getD n 0#32
    (outputs ((0x3F800000#32 :: List.replicate m 0#32).map fun x => Instr.firStep k x) s).getD n 0x7FC00000#32
      = if h = 0x80000000#32 then 0#32 else h

/-- 40_stream_filters.md R116: dividing by 32.0 is multiplying by 2^-5, bit for bit. -/
def Obligations.DivisionBy32IsScaling : Prop := ∀ x : F32, fdiv x 0x42000000#32 = fmul x 0x3D000000#32

/-- 42_agc_smeter.md R165: with the spec's `K_DECAY`, `TARGET`, `MAX_GAIN` and `SILENCE`, every finite sample gives an output
in [-2047, 2047], for every envelope that is a number and not negative. -/
def Obligations.AgcOutputBounded : Prop :=
  ∀ (s : State) (x : Word), specValues s.cfg → isNaN s.env = false → signBit s.env = false → isFinite x = true →
    ∃ t, exec (.agcStep x) s = .next t ∧ -2047 ≤ t.resa.toInt ∧ t.resa.toInt ≤ 2047

/-- 42_agc_smeter.md R164: with the spec's values the applied gain never exceeds `MAX_GAIN`: |`RESA`| is at most
f2i(fmul(|x|, 40.0)), for every sample and every envelope that is a number and not negative. -/
def Obligations.AgcGainCeiling : Prop :=
  ∀ (s : State) (x : Word), specValues s.cfg → isNaN s.env = false → signBit s.env = false →
    ∃ t, exec (.agcStep x) s = .next t ∧ (t.resa.toInt.natAbs : Int) ≤ f2i (fmul (fabs x) 0x42200000#32)

/-- 42_agc_smeter.md R166: for a zero sample the output is 0; a positive finite envelope does not rise and stays positive,
and strictly falls if it is normal; the envelope +0.0 stays +0.0. -/
def Obligations.ZeroInputDecaysEnvelope : Prop :=
  ∀ (s : State) (x : Word), specValues s.cfg → x = 0x00000000#32 ∨ x = 0x80000000#32 →
    (1 ≤ s.env.toNat → s.env.toNat ≤ 0x7F7FFFFF → ∃ t, exec (.agcStep x) s = .next t ∧ t.resa = 0#32 ∧
      fgt t.env 0x00000000#32 = true ∧ fle t.env s.env = true ∧ (0x00800000 ≤ s.env.toNat → flt t.env s.env = true)) ∧
    (s.env = 0x00000000#32 → ∃ t, exec (.agcStep x) s = .next t ∧ t.resa = 0#32 ∧ t.env = 0x00000000#32)

/-- 42_agc_smeter.md R162: an envelope of +∞ stays +∞ and every output is 0, with the spec's values. -/
def Obligations.InfiniteEnvelopeSticks : Prop :=
  ∀ (s : State) (x : Word), specValues s.cfg → s.env = 0x7F800000#32 →
    exec (.agcStep x) s = .next { s with resa := 0#32, resb := 0#32 }

/-- 42_agc_smeter.md R168, R169: the S-meter's domain ends with the spec's parameters, and readings at them. -/
def Obligations.SmeterSpecConstants : Prop :=
  ∀ p : OpenParams, logPeak (Cfg.ofOpen p) 0x41F00000#32 = 1512 ∧ logPeak (Cfg.ofOpen p) 0x42F00000#32 = 2129 ∧
    smeterValue (Cfg.ofOpen p) 0x3F800000#32 = 0 ∧ smeterValue (Cfg.ofOpen p) 0x41F00000#32 = 0 ∧
    smeterValue (Cfg.ofOpen p) 0x42F00000#32 = 255 ∧ smeterValue (Cfg.ofOpen p) 0x7F800000#32 = 255

/-- 44_mic_level.md R212 with a clock that does not run backwards (70_reset_and_hazards.md R288): a mic timer has expired
exactly when its duration is at most the ticks since the stored time modulo 2^32; so, when less than 2^32 ticks have passed
since the stored time, exactly when its duration has truly passed. R288 alone does not give that last premise: it bounds the
ticks between consecutive commands, and a stored time may be older. -/
def Obligations.MicTimersExactUnderHostDuty : Prop :=
  ∀ (t0 t : Nat) (duration : Word), t0 ≤ t →
    (timerExpired (BitVec.ofNat 32 t) (BitVec.ofNat 32 t0) duration = true ↔ duration.toNat ≤ (t - t0) % 2 ^ 32) ∧
      (Safety.micClockOk t0 t →
        (timerExpired (BitVec.ofNat 32 t) (BitVec.ofNat 32 t0) duration = true ↔ duration.toNat ≤ t - t0))

/-- 44_mic_level.md R213: one `MIC_SAMPLE` lowers the held peak by at most `MIC_STEP`, and not at all before the hang time has
passed since the last capture; a decrement leaves the hang timer alone. -/
def Obligations.MicPeakFallsSlowly : Prop :=
  ∀ (s : State) (a now : Word), s.cfg.wf = true → ∃ t, exec (.micSample a now) s = .next t ∧
    s.micPeak.toNat ≤ t.micPeak.toNat + s.cfg.micStep ∧
    (elapsed now s.tHang < s.cfg.micHang.toNat → s.micPeak.toNat ≤ t.micPeak.toNat) ∧
    (t.micPeak.toNat < s.micPeak.toNat → t.tHang = s.tHang ∧ t.tDecay = now)

/-! The numeric primitives. -/

/-- 00_scope.md R10: `fadd` is correctly rounded on finite operands, with the sign of the sum, an exact zero sum being +0.0
unless both operands are negative; an infinity absorbs a finite operand. -/
def Obligations.FaddCorrectlyRounded : Prop :=
  ∀ a b : F32, isFinite a = true →
    (isFinite b = true → RoundsTo (units a + units b) 1 (fadd a b) ∧
      (units a + units b ≠ 0 → (signBit (fadd a b) = true ↔ units a + units b < 0)) ∧
      (units a + units b = 0 → fadd a b = if signBit a && signBit b then 0x80000000#32 else 0x00000000#32)) ∧
    (isInf b = true → fadd a b = b ∧ fadd b a = b)

/-- 00_scope.md R10: `fsub` is correctly rounded on finite operands, with the sign of the difference; an exact zero difference
is +0.0 unless a negative zero has a positive zero taken from it (log entry 9). -/
def Obligations.FsubCorrectlyRounded : Prop :=
  ∀ a b : F32, isFinite a = true → isFinite b = true →
    RoundsTo (units a - units b) 1 (fsub a b) ∧
      (units a - units b ≠ 0 → (signBit (fsub a b) = true ↔ units a - units b < 0)) ∧
      (units a - units b = 0 → fsub a b = if signBit a && !signBit b then 0x80000000#32 else 0x00000000#32)

/-- 00_scope.md R10, R12, 43_transmit.md R193: the operations on infinities, zero divisors and roots of special values, as IEEE
754 gives them (PRESUMED, log entry 9). -/
def Obligations.SpecialOperandsFollowIeee : Prop :=
  ∀ a b : F32,
    (isInf a = true → isInf b = true → fadd a b = (if signBit a = signBit b then a else 0x7FC00000#32) ∧
      fsub a b = (if signBit a = signBit b then 0x7FC00000#32 else a) ∧ fdiv a b = 0x7FC00000#32) ∧
    (isInf a = true → isFinite b = true → fadd a b = a ∧ fadd b a = a ∧ fsub a b = a ∧
      fsub b a = infinityOf (!signBit a) ∧ fdiv a b = infinityOf (signBit a != signBit b) ∧
      fdiv b a = zeroOf (signBit b != signBit a)) ∧
    (isInf a = true → isNaN b = false →
      fmul a b = (if isZero b then 0x7FC00000#32 else infinityOf (signBit a != signBit b)) ∧
      fmul b a = (if isZero b then 0x7FC00000#32 else infinityOf (signBit a != signBit b))) ∧
    (isFinite a = true → isZero b = true →
      fdiv a b = if isZero a then 0x7FC00000#32 else infinityOf (signBit a != signBit b)) ∧
    (isZero a = true → fsqrt a = a) ∧ fsqrt 0x7F800000#32 = 0x7F800000#32 ∧
    (isNaN a = false → isZero a = false → signBit a = true → fsqrt a = 0x7FC00000#32)

/-- 00_scope.md R10: `fmul` is correctly rounded on finite operands and its sign is the product's. -/
def Obligations.FmulCorrectlyRounded : Prop :=
  ∀ a b : F32, isFinite a = true → isFinite b = true →
    RoundsTo (units a * units b) (2 ^ 149) (fmul a b) ∧ signBit (fmul a b) = (signBit a != signBit b)

/-- 00_scope.md R10: `fdiv` is correctly rounded on finite operands with a divisor other than zero. -/
def Obligations.FdivCorrectlyRounded : Prop :=
  ∀ a b : F32, isFinite a = true → isFinite b = true → isZero b = false →
    RoundsTo (if signBit a != signBit b then -((mag a * 2 ^ 149 : Nat) : Int) else ((mag a * 2 ^ 149 : Nat) : Int)) (mag b)
      (fdiv a b) ∧ signBit (fdiv a b) = (signBit a != signBit b)

/-- 00_scope.md R10: `fsqrt` of a positive finite value is the nearest binary32: the exact root lies on the near side of the
midpoint to every other value. -/
def Obligations.FsqrtCorrectlyRounded : Prop :=
  ∀ a : F32, isFinite a = true → isZero a = false → signBit a = false →
    isFinite (fsqrt a) = true ∧ signBit (fsqrt a) = false ∧ ∀ y : F32, isFinite y = true → signBit y = false →
      (mag (fsqrt a) < mag y → 4 * (mag a * 2 ^ 149) ≤ (mag (fsqrt a) + mag y) ^ 2) ∧
      (mag y < mag (fsqrt a) → (mag (fsqrt a) + mag y) ^ 2 ≤ 4 * (mag a * 2 ^ 149))

/-- The binary digits `flog10` rounds are exact: `log10Floor p q` is the floor of log10(p / q) * 2^64. These digits are the
model's device (log entry 5); the spec asks only for the correctly rounded logarithm (00_scope.md R7, D4). -/
def Obligations.LogarithmDigitsExact : Prop :=
  ∀ p q : Nat, 0 < q → q ≤ p → p < 10 ^ 64 * q →
    10 ^ log10Floor p q * q ^ 2 ^ 64 ≤ p ^ 2 ^ 64 ∧ p ^ 2 ^ 64 < 10 ^ (log10Floor p q + 1) * q ^ 2 ^ 64

/-- 00_scope.md R7 with 92_eei_decisions.md D4: the spec's `flog10` is correctly rounded. The result for a positive finite
operand is finite and nearer to the operand's base-10 logarithm than every other finite binary32 value; no tie arises, and
the logarithm of 1.0 is +0.0. -/
def Obligations.Log10CorrectlyRounded : Prop :=
  flog10 .correctlyRounded 0x3F800000#32 = 0x00000000#32 ∧
    ∀ a : F32, isFinite a = true → isZero a = false → signBit a = false →
      isFinite (flog10 .correctlyRounded a) = true ∧ ∀ y : F32, isFinite y = true →
        units y ≠ units (flog10 .correctlyRounded a) →
        |Real.logb 10 ((units a : ℝ) / 2 ^ 149) - (units (flog10 .correctlyRounded a) : ℝ) / 2 ^ 149|
          < |Real.logb 10 ((units a : ℝ) / 2 ^ 149) - (units y : ℝ) / 2 ^ 149|

/-- 00_scope.md R13: `f2i` gives 0 for a NaN, truncates a finite value toward zero and clamps; the infinities give the
ends of the range. -/
def Obligations.F2iTruncatesAndClamps : Prop :=
  ∀ v : F32, (isNaN v = true → f2i v = 0) ∧
    (isFinite v = true → f2i v = max (-(2 ^ 31)) (min (2 ^ 31 - 1) ((units v).tdiv (2 ^ 149)))) ∧
    f2i 0x7F800000#32 = 2 ^ 31 - 1 ∧ f2i 0xFF800000#32 = -(2 ^ 31)

/-- 00_scope.md R10: `i2f` is exact for |n| ≤ 2^24. -/
def Obligations.I2fExact : Prop :=
  ∀ n : Int, n.natAbs ≤ 2 ^ 24 → isFinite (i2f n) = true ∧ units (i2f n) = n * 2 ^ 149

/-- 00_scope.md R10: the ordered comparisons are those of the numbers, the infinities beyond every finite value, and a NaN
compares false. -/
def Obligations.ComparisonsFollowTheNumbers : Prop :=
  ∀ a b : F32,
    (isNaN a = false → isNaN b = false → (flt a b = true ↔ extended a < extended b) ∧
      (fgt a b = true ↔ extended b < extended a) ∧ (fle a b = true ↔ extended a ≤ extended b)) ∧
    (isNaN a = true ∨ isNaN b = true → flt a b = false ∧ fgt a b = false ∧ fle a b = false)

/-- 00_scope.md R12: under every `FP` and every `LOG10` a NaN result of a primitive is the quiet NaN, and a NaN operand gives
it (for another build's `FP` or `LOG10` the last clauses are the model's, log entries 4 and 5). -/
def Obligations.NanResultsAreQuiet : Prop :=
  ∀ (fp : FpFormat) (lg : Log10Choice) (a b : F32) (n : Int),
    (∀ r ∈ [fpAdd fp a b, fpSub fp a b, fpMul fp a b, fpDiv fp a b, fpSqrt fp a, flog10 lg a, fabs a, i2f n],
      isNaN r = true → r = 0x7FC00000#32) ∧
    (isNaN a = true ∨ isNaN b = true → ∀ r ∈ [fpAdd fp a b, fpSub fp a b, fpMul fp a b, fpDiv fp a b], r = 0x7FC00000#32) ∧
    (isNaN a = true → fpSqrt fp a = 0x7FC00000#32 ∧ flog10 lg a = 0x7FC00000#32 ∧ fabs a = 0x7FC00000#32)
end

