-- ==== Sys2Proof/Laws/Decode.lean ====
section
/-! SUPPORT. The fields of an encoded command word, and a word from its bytes (30_encoding.md rule R71, 20_memory.md
rule R54). -/

namespace Sys2Proof

theorem cmdWord_toNat (op : BitVec 8) (sel : BitVec 4) : (cmdWord op sel).toNat = sel.toNat * 2 ^ 8 + op.toNat := by
  have h1 := op.isLt
  have h2 := sel.isLt
  unfold cmdWord
  rw [BitVec.toNat_append, BitVec.toNat_append, Nat.shiftLeft_eq, Nat.shiftLeft_eq, ← Nat.shiftLeft_eq,
    ← Nat.shiftLeft_eq, ← Nat.shiftLeft_add_eq_or_of_lt h1, ← Nat.shiftLeft_add_eq_or_of_lt h2]
  simp [Nat.shiftLeft_eq]

/-- The reserved field of an encoded command word is zero. -/
theorem rsvField_cmdWord (op : BitVec 8) (sel : BitVec 4) : rsvField (cmdWord op sel) = 0#20 := by
  apply BitVec.eq_of_toNat_eq
  have h1 := op.isLt
  have h2 := sel.isLt
  unfold rsvField
  rw [BitVec.extractLsb'_toNat, cmdWord_toNat, Nat.shiftRight_eq_div_pow]
  simp
  omega

/-- The `SEL` field of an encoded command word. -/
theorem selField_cmdWord (op : BitVec 8) (sel : BitVec 4) : selField (cmdWord op sel) = sel := by
  apply BitVec.eq_of_toNat_eq
  have h1 := op.isLt
  have h2 := sel.isLt
  unfold selField
  rw [BitVec.extractLsb'_toNat, cmdWord_toNat, Nat.shiftRight_eq_div_pow]
  simp
  omega

/-- The `OP` field of an encoded command word. -/
theorem opField_cmdWord (op : BitVec 8) (sel : BitVec 4) : opField (cmdWord op sel) = op := by
  apply BitVec.eq_of_toNat_eq
  have h1 := op.isLt
  have h2 := sel.isLt
  unfold opField
  rw [BitVec.extractLsb'_toNat, cmdWord_toNat, Nat.shiftRight_eq_div_pow]
  simp
  omega

end Sys2Proof
end

