-- ==== Sys2Proof/Laws/Float32.lean ====
section
/-! SUPPORT. Lemmas about the binary32 primitives: the fields of a packed value, the range of a rounded magnitude, and
what each primitive does with the special values. -/

namespace Sys2Proof.Machine

/-- A rounded magnitude never exceeds that of infinity. -/
theorem roundUnits_le_infBits (n d : Nat) : roundUnits n d ≤ infBits := by
  unfold roundUnits
  exact Nat.min_le_right _ _

theorem infBits_lt : infBits < 2 ^ 31 := by decide

theorem pack_toNat (neg : Bool) (m : Nat) (h : m < 2 ^ 31) : (pack neg m).toNat = if neg then 2 ^ 31 + m else m := by
  unfold pack
  rw [BitVec.toNat_ofNat]
  cases neg <;> simp <;> omega

/-- The sign of a packed value. -/
theorem signBit_pack (neg : Bool) (m : Nat) (h : m < 2 ^ 31) : signBit (pack neg m) = neg := by
  unfold signBit
  rw [BitVec.getLsbD, Nat.testBit, Nat.shiftRight_eq_div_pow, pack_toNat neg m h]
  cases neg
  · simp; omega
  · simp; omega

theorem expField_pack (neg : Bool) (m : Nat) (h : m < 2 ^ 31) : expField (pack neg m) = m / 2 ^ 23 := by
  unfold expField
  rw [pack_toNat neg m h]
  cases neg
  · simp; omega
  · simp only [if_true]; omega

theorem fracField_pack (neg : Bool) (m : Nat) (h : m < 2 ^ 31) : fracField (pack neg m) = m % 2 ^ 23 := by
  unfold fracField
  rw [pack_toNat neg m h]
  cases neg
  · simp
  · simp only [if_true]; omega

/-- A packed rounded magnitude is never a NaN. -/
theorem isNaN_pack (neg : Bool) (m : Nat) (h : m ≤ infBits) : isNaN (pack neg m) = false := by
  have hb := infBits_lt
  unfold isNaN
  rw [expField_pack neg m (by omega), fracField_pack neg m (by omega)]
  have : infBits = 2139095040 := by decide
  by_cases he : m / 2 ^ 23 = 255
  · have hf : m % 2 ^ 23 = 0 := by omega
    rw [hf]
    exact Bool.and_false _
  · rw [beq_eq_false_iff_ne.mpr he]
    exact Bool.false_and _

/-- The pattern of a rounded magnitude, taken apart: its sign and that it is a number. -/
theorem pack_roundUnits (neg : Bool) (n d : Nat) :
    signBit (pack neg (roundUnits n d)) = neg ∧ isNaN (pack neg (roundUnits n d)) = false :=
  ⟨signBit_pack _ _ (Nat.lt_of_le_of_lt (roundUnits_le_infBits n d) infBits_lt),
    isNaN_pack _ _ (roundUnits_le_infBits n d)⟩

/-- A NaN operand gives the quiet NaN (00_scope.md rule R12). -/
theorem fadd_nan_left (a b : F32) (h : isNaN a = true) : fadd a b = qNaN := by
  unfold fadd
  simp [h]

theorem fadd_nan_right (a b : F32) (h : isNaN b = true) : fadd a b = qNaN := by
  unfold fadd
  simp [h]

theorem fmul_nan_left (a b : F32) (h : isNaN a = true) : fmul a b = qNaN := by
  unfold fmul
  simp [h]

theorem fmul_nan_right (a b : F32) (h : isNaN b = true) : fmul a b = qNaN := by
  unfold fmul
  simp [h]

theorem fdiv_nan_left (a b : F32) (h : isNaN a = true) : fdiv a b = qNaN := by
  unfold fdiv
  simp [h]

theorem fdiv_nan_right (a b : F32) (h : isNaN b = true) : fdiv a b = qNaN := by
  unfold fdiv
  simp [h]

theorem isNaN_qNaN : isNaN qNaN = true := by decide

/-- `quiet` answers its argument or the quiet NaN, and a NaN of it is the quiet NaN. -/
theorem quiet_of_number (r : F32) (h : isNaN r = false) : quiet r = r := by
  unfold quiet
  simp [h]

theorem quiet_nan (r : F32) (h : isNaN (quiet r) = true) : quiet r = qNaN := by
  unfold quiet at *
  split
  · rfl
  · next hr => rw [if_neg hr] at h; exact absurd h hr

/-- Under another build's `FP` a NaN operand gives the quiet NaN and a NaN result is the quiet NaN. -/
theorem fpOther_nan_left (op : FpOp) (a b : F32) (h : isNaN a = true) : fpOther op a b = qNaN := by
  unfold fpOther
  simp [h]

theorem fpOther_nan_right (op : FpOp) (a b : F32) (h : isNaN b = true) : fpOther op a b = qNaN := by
  unfold fpOther
  simp [h]

theorem fpOther_nan_result (op : FpOp) (a b : F32) (h : isNaN (fpOther op a b) = true) : fpOther op a b = qNaN := by
  unfold fpOther at *
  split
  · rfl
  · next hr => rw [if_neg hr] at h; exact quiet_nan _ h

/-! The operations under the spec's `FP`. -/

@[simp] theorem fpAdd_binary32 (a b : F32) : fpAdd .binary32 a b = fadd a b := rfl

@[simp] theorem fpSub_binary32 (a b : F32) : fpSub .binary32 a b = fsub a b := rfl

@[simp] theorem fpMul_binary32 (a b : F32) : fpMul .binary32 a b = fmul a b := rfl

@[simp] theorem fpDiv_binary32 (a b : F32) : fpDiv .binary32 a b = fdiv a b := rfl

@[simp] theorem fpSqrt_binary32 (a : F32) : fpSqrt .binary32 a = fsqrt a := rfl

theorem f2i_nan (v : F32) (h : isNaN v = true) : f2i v = 0 := by
  unfold f2i
  simp [h]

/-- `f2i` always answers a signed 32-bit integer (00_scope.md rule R13). -/
theorem f2i_range (v : F32) : -(2 ^ 31) ≤ f2i v ∧ f2i v ≤ 2 ^ 31 - 1 := by
  unfold f2i
  dsimp only
  split
  · omega
  · split <;> omega

/-- A comparison that holds is of two numbers. -/
theorem fgt_numbers (a b : F32) (h : fgt a b = true) : isNaN a = false ∧ isNaN b = false := by
  unfold fgt at h
  simp only [Bool.and_eq_true, Bool.not_eq_true'] at h
  exact h.1

theorem flt_numbers (a b : F32) (h : flt a b = true) : isNaN a = false ∧ isNaN b = false := by
  unfold flt at h
  simp only [Bool.and_eq_true, Bool.not_eq_true'] at h
  exact h.1

theorem fle_numbers (a b : F32) (h : fle a b = true) : isNaN a = false ∧ isNaN b = false := by
  unfold fle at h
  simp only [Bool.and_eq_true, Bool.not_eq_true'] at h
  exact h.1

end Sys2Proof.Machine
end

