-- ==== Sys2Proof/Laws/State.lean ====
section
/-! SUPPORT. One lemma per observer per update of the state. The observers are the four banks of instances
(`State.dcb`, `State.ap`, `State.fir`, `State.ma`) and the plain fields; together they determine a state
(`State.ext_observers`). -/

namespace Sys2Proof.Machine

/-- A state is determined by its banks and its plain fields. -/
theorem State.ext_observers {s t : State} (hd : ∀ k, s.dcb k = t.dcb k) (ha : ∀ k, s.ap k = t.ap k)
    (hf : ∀ k, s.fir k = t.fir k) (hm : ∀ k, s.ma k = t.ma k) (he : s.env = t.env) (hs : s.smeter = t.smeter)
    (hp : s.micPeak = t.micPeak) (htd : s.tDecay = t.tDecay) (hth : s.tHang = t.tHang) (hst : s.status = t.status)
    (hra : s.resa = t.resa) (hrb : s.resb = t.resb) (hc : s.cfg = t.cfg) (hi : s.input = t.input) : s = t := by
  have d0 := hd .rxI; have d1 := hd .rxQ; have d2 := hd .tx
  have a0 := ha .rxP; have a1 := ha .rxN; have a2 := ha .txP; have a3 := ha .txN
  have f0 := hf .rxSsb; have f1 := hf .rxCw; have f2 := hf .txShape; have f3 := hf .txI; have f4 := hf .txQ
  have m0 := hm .rxI; have m1 := hm .rxQ
  cases s; cases t
  simp only [State.dcb, State.ap, State.fir, State.ma] at *
  simp_all

/-! The result registers. -/

@[simp] theorem withResults_env (s : State) (a b : Word) : (s.withResults a b).env = s.env := rfl
@[simp] theorem withResults_smeter (s : State) (a b : Word) : (s.withResults a b).smeter = s.smeter := rfl
@[simp] theorem withResults_micPeak (s : State) (a b : Word) : (s.withResults a b).micPeak = s.micPeak := rfl
@[simp] theorem withResults_tDecay (s : State) (a b : Word) : (s.withResults a b).tDecay = s.tDecay := rfl
@[simp] theorem withResults_tHang (s : State) (a b : Word) : (s.withResults a b).tHang = s.tHang := rfl
@[simp] theorem withResults_status (s : State) (a b : Word) : (s.withResults a b).status = s.status := rfl
@[simp] theorem withResults_cfg (s : State) (a b : Word) : (s.withResults a b).cfg = s.cfg := rfl
@[simp] theorem withResults_input (s : State) (a b : Word) : (s.withResults a b).input = s.input := rfl
@[simp] theorem withResults_resa (s : State) (a b : Word) : (s.withResults a b).resa = a := rfl
@[simp] theorem withResults_resb (s : State) (a b : Word) : (s.withResults a b).resb = b := rfl
@[simp] theorem withResults_dcb (s : State) (a b : Word) (k : DcbInst) : (s.withResults a b).dcb k = s.dcb k := by
  cases k <;> rfl
@[simp] theorem withResults_ap (s : State) (a b : Word) (k : ApInst) : (s.withResults a b).ap k = s.ap k := by
  cases k <;> rfl
@[simp] theorem withResults_fir (s : State) (a b : Word) (k : FirInst) : (s.withResults a b).fir k = s.fir k := by
  cases k <;> rfl
@[simp] theorem withResults_ma (s : State) (a b : Word) (k : MaInst) : (s.withResults a b).ma k = s.ma k := by
  cases k <;> rfl
@[simp] theorem withResults_withResults (s : State) (a b c d : Word) :
    (s.withResults a b).withResults c d = s.withResults c d := rfl

/-! The illegal command. -/

@[simp] theorem illegalCommand_env (s : State) : (illegalCommand s).env = s.env := rfl
@[simp] theorem illegalCommand_smeter (s : State) : (illegalCommand s).smeter = s.smeter := rfl
@[simp] theorem illegalCommand_micPeak (s : State) : (illegalCommand s).micPeak = s.micPeak := rfl
@[simp] theorem illegalCommand_tDecay (s : State) : (illegalCommand s).tDecay = s.tDecay := rfl
@[simp] theorem illegalCommand_tHang (s : State) : (illegalCommand s).tHang = s.tHang := rfl
@[simp] theorem illegalCommand_cfg (s : State) : (illegalCommand s).cfg = s.cfg := rfl
@[simp] theorem illegalCommand_input (s : State) : (illegalCommand s).input = s.input := rfl
@[simp] theorem illegalCommand_status (s : State) : (illegalCommand s).status = setIll s.status := rfl
@[simp] theorem illegalCommand_resa (s : State) : (illegalCommand s).resa = 0#32 := rfl
@[simp] theorem illegalCommand_resb (s : State) : (illegalCommand s).resb = 0#32 := rfl
@[simp] theorem illegalCommand_dcb (s : State) (k : DcbInst) : (illegalCommand s).dcb k = s.dcb k := by cases k <;> rfl
@[simp] theorem illegalCommand_ap (s : State) (k : ApInst) : (illegalCommand s).ap k = s.ap k := by cases k <;> rfl
@[simp] theorem illegalCommand_fir (s : State) (k : FirInst) : (illegalCommand s).fir k = s.fir k := by cases k <;> rfl
@[simp] theorem illegalCommand_ma (s : State) (k : MaInst) : (illegalCommand s).ma k = s.ma k := by cases k <;> rfl

/-! Reset. -/

@[simp] theorem assertReset_env (s : State) : s.assertReset.env = posZero := rfl
@[simp] theorem assertReset_smeter (s : State) : s.assertReset.smeter = 0#8 := rfl
@[simp] theorem assertReset_micPeak (s : State) : s.assertReset.micPeak = 0#16 := rfl
@[simp] theorem assertReset_tDecay (s : State) : s.assertReset.tDecay = 0#32 := rfl
@[simp] theorem assertReset_tHang (s : State) : s.assertReset.tHang = 0#32 := rfl
@[simp] theorem assertReset_status (s : State) : s.assertReset.status = 0#32 := rfl
@[simp] theorem assertReset_resa (s : State) : s.assertReset.resa = 0#32 := rfl
@[simp] theorem assertReset_resb (s : State) : s.assertReset.resb = 0#32 := rfl
@[simp] theorem assertReset_cfg (s : State) : s.assertReset.cfg = s.cfg := rfl
@[simp] theorem assertReset_input (s : State) : s.assertReset.input = s.input := rfl
@[simp] theorem assertReset_dcb (s : State) (k : DcbInst) : s.assertReset.dcb k = DcbState.zero := by cases k <;> rfl
@[simp] theorem assertReset_ap (s : State) (k : ApInst) : s.assertReset.ap k = ApState.zero := by cases k <;> rfl
@[simp] theorem assertReset_fir (s : State) (k : FirInst) : s.assertReset.fir k = FirState.zero := by cases k <;> rfl
@[simp] theorem assertReset_ma (s : State) (k : MaInst) : s.assertReset.ma k = MaState.zero := by cases k <;> rfl

/-! Writing one instance of the bank `dcb`. -/

@[simp] theorem setDcb_env (s : State) (k : DcbInst) (v : DcbState) : (s.setDcb k v).env = s.env := by cases k <;> rfl
@[simp] theorem setDcb_smeter (s : State) (k : DcbInst) (v : DcbState) : (s.setDcb k v).smeter = s.smeter := by cases k <;> rfl
@[simp] theorem setDcb_micPeak (s : State) (k : DcbInst) (v : DcbState) : (s.setDcb k v).micPeak = s.micPeak := by cases k <;> rfl
@[simp] theorem setDcb_tDecay (s : State) (k : DcbInst) (v : DcbState) : (s.setDcb k v).tDecay = s.tDecay := by cases k <;> rfl
@[simp] theorem setDcb_tHang (s : State) (k : DcbInst) (v : DcbState) : (s.setDcb k v).tHang = s.tHang := by cases k <;> rfl
@[simp] theorem setDcb_status (s : State) (k : DcbInst) (v : DcbState) : (s.setDcb k v).status = s.status := by cases k <;> rfl
@[simp] theorem setDcb_resa (s : State) (k : DcbInst) (v : DcbState) : (s.setDcb k v).resa = s.resa := by cases k <;> rfl
@[simp] theorem setDcb_resb (s : State) (k : DcbInst) (v : DcbState) : (s.setDcb k v).resb = s.resb := by cases k <;> rfl
@[simp] theorem setDcb_cfg (s : State) (k : DcbInst) (v : DcbState) : (s.setDcb k v).cfg = s.cfg := by cases k <;> rfl
@[simp] theorem setDcb_input (s : State) (k : DcbInst) (v : DcbState) : (s.setDcb k v).input = s.input := by cases k <;> rfl
@[simp] theorem setDcb_ap (s : State) (k : DcbInst) (v : DcbState) (k2 : ApInst) : (s.setDcb k v).ap k2 = s.ap k2 := by
  cases k <;> cases k2 <;> rfl
@[simp] theorem setDcb_fir (s : State) (k : DcbInst) (v : DcbState) (k2 : FirInst) : (s.setDcb k v).fir k2 = s.fir k2 := by
  cases k <;> cases k2 <;> rfl
@[simp] theorem setDcb_ma (s : State) (k : DcbInst) (v : DcbState) (k2 : MaInst) : (s.setDcb k v).ma k2 = s.ma k2 := by
  cases k <;> cases k2 <;> rfl
theorem setDcb_dcb (s : State) (k k2 : DcbInst) (v : DcbState) :
    (s.setDcb k v).dcb k2 = if k2 = k then v else s.dcb k2 := by
  cases k <;> cases k2 <;> rfl
@[simp] theorem setDcb_dcb_same (s : State) (k : DcbInst) (v : DcbState) : (s.setDcb k v).dcb k = v := by cases k <;> rfl
theorem setDcb_dcb_other (s : State) (k k2 : DcbInst) (v : DcbState) (h : k2 ≠ k) : (s.setDcb k v).dcb k2 = s.dcb k2 := by
  rw [setDcb_dcb, if_neg h]

/-! Writing one instance of the bank `ap`. -/

@[simp] theorem setAp_env (s : State) (k : ApInst) (v : ApState) : (s.setAp k v).env = s.env := by cases k <;> rfl
@[simp] theorem setAp_smeter (s : State) (k : ApInst) (v : ApState) : (s.setAp k v).smeter = s.smeter := by cases k <;> rfl
@[simp] theorem setAp_micPeak (s : State) (k : ApInst) (v : ApState) : (s.setAp k v).micPeak = s.micPeak := by cases k <;> rfl
@[simp] theorem setAp_tDecay (s : State) (k : ApInst) (v : ApState) : (s.setAp k v).tDecay = s.tDecay := by cases k <;> rfl
@[simp] theorem setAp_tHang (s : State) (k : ApInst) (v : ApState) : (s.setAp k v).tHang = s.tHang := by cases k <;> rfl
@[simp] theorem setAp_status (s : State) (k : ApInst) (v : ApState) : (s.setAp k v).status = s.status := by cases k <;> rfl
@[simp] theorem setAp_resa (s : State) (k : ApInst) (v : ApState) : (s.setAp k v).resa = s.resa := by cases k <;> rfl
@[simp] theorem setAp_resb (s : State) (k : ApInst) (v : ApState) : (s.setAp k v).resb = s.resb := by cases k <;> rfl
@[simp] theorem setAp_cfg (s : State) (k : ApInst) (v : ApState) : (s.setAp k v).cfg = s.cfg := by cases k <;> rfl
@[simp] theorem setAp_input (s : State) (k : ApInst) (v : ApState) : (s.setAp k v).input = s.input := by cases k <;> rfl
@[simp] theorem setAp_dcb (s : State) (k : ApInst) (v : ApState) (k2 : DcbInst) : (s.setAp k v).dcb k2 = s.dcb k2 := by
  cases k <;> cases k2 <;> rfl
@[simp] theorem setAp_fir (s : State) (k : ApInst) (v : ApState) (k2 : FirInst) : (s.setAp k v).fir k2 = s.fir k2 := by
  cases k <;> cases k2 <;> rfl
@[simp] theorem setAp_ma (s : State) (k : ApInst) (v : ApState) (k2 : MaInst) : (s.setAp k v).ma k2 = s.ma k2 := by
  cases k <;> cases k2 <;> rfl
theorem setAp_ap (s : State) (k k2 : ApInst) (v : ApState) :
    (s.setAp k v).ap k2 = if k2 = k then v else s.ap k2 := by
  cases k <;> cases k2 <;> rfl
@[simp] theorem setAp_ap_same (s : State) (k : ApInst) (v : ApState) : (s.setAp k v).ap k = v := by cases k <;> rfl
theorem setAp_ap_other (s : State) (k k2 : ApInst) (v : ApState) (h : k2 ≠ k) : (s.setAp k v).ap k2 = s.ap k2 := by
  rw [setAp_ap, if_neg h]

/-! Writing one instance of the bank `fir`. -/

@[simp] theorem setFir_env (s : State) (k : FirInst) (v : FirState) : (s.setFir k v).env = s.env := by cases k <;> rfl
@[simp] theorem setFir_smeter (s : State) (k : FirInst) (v : FirState) : (s.setFir k v).smeter = s.smeter := by cases k <;> rfl
@[simp] theorem setFir_micPeak (s : State) (k : FirInst) (v : FirState) : (s.setFir k v).micPeak = s.micPeak := by cases k <;> rfl
@[simp] theorem setFir_tDecay (s : State) (k : FirInst) (v : FirState) : (s.setFir k v).tDecay = s.tDecay := by cases k <;> rfl
@[simp] theorem setFir_tHang (s : State) (k : FirInst) (v : FirState) : (s.setFir k v).tHang = s.tHang := by cases k <;> rfl
@[simp] theorem setFir_status (s : State) (k : FirInst) (v : FirState) : (s.setFir k v).status = s.status := by cases k <;> rfl
@[simp] theorem setFir_resa (s : State) (k : FirInst) (v : FirState) : (s.setFir k v).resa = s.resa := by cases k <;> rfl
@[simp] theorem setFir_resb (s : State) (k : FirInst) (v : FirState) : (s.setFir k v).resb = s.resb := by cases k <;> rfl
@[simp] theorem setFir_cfg (s : State) (k : FirInst) (v : FirState) : (s.setFir k v).cfg = s.cfg := by cases k <;> rfl
@[simp] theorem setFir_input (s : State) (k : FirInst) (v : FirState) : (s.setFir k v).input = s.input := by cases k <;> rfl
@[simp] theorem setFir_dcb (s : State) (k : FirInst) (v : FirState) (k2 : DcbInst) : (s.setFir k v).dcb k2 = s.dcb k2 := by
  cases k <;> cases k2 <;> rfl
@[simp] theorem setFir_ap (s : State) (k : FirInst) (v : FirState) (k2 : ApInst) : (s.setFir k v).ap k2 = s.ap k2 := by
  cases k <;> cases k2 <;> rfl
@[simp] theorem setFir_ma (s : State) (k : FirInst) (v : FirState) (k2 : MaInst) : (s.setFir k v).ma k2 = s.ma k2 := by
  cases k <;> cases k2 <;> rfl
theorem setFir_fir (s : State) (k k2 : FirInst) (v : FirState) :
    (s.setFir k v).fir k2 = if k2 = k then v else s.fir k2 := by
  cases k <;> cases k2 <;> rfl
@[simp] theorem setFir_fir_same (s : State) (k : FirInst) (v : FirState) : (s.setFir k v).fir k = v := by cases k <;> rfl
theorem setFir_fir_other (s : State) (k k2 : FirInst) (v : FirState) (h : k2 ≠ k) : (s.setFir k v).fir k2 = s.fir k2 := by
  rw [setFir_fir, if_neg h]

/-! Writing one instance of the bank `ma`. -/

@[simp] theorem setMa_env (s : State) (k : MaInst) (v : MaState) : (s.setMa k v).env = s.env := by cases k <;> rfl
@[simp] theorem setMa_smeter (s : State) (k : MaInst) (v : MaState) : (s.setMa k v).smeter = s.smeter := by cases k <;> rfl
@[simp] theorem setMa_micPeak (s : State) (k : MaInst) (v : MaState) : (s.setMa k v).micPeak = s.micPeak := by cases k <;> rfl
@[simp] theorem setMa_tDecay (s : State) (k : MaInst) (v : MaState) : (s.setMa k v).tDecay = s.tDecay := by cases k <;> rfl
@[simp] theorem setMa_tHang (s : State) (k : MaInst) (v : MaState) : (s.setMa k v).tHang = s.tHang := by cases k <;> rfl
@[simp] theorem setMa_status (s : State) (k : MaInst) (v : MaState) : (s.setMa k v).status = s.status := by cases k <;> rfl
@[simp] theorem setMa_resa (s : State) (k : MaInst) (v : MaState) : (s.setMa k v).resa = s.resa := by cases k <;> rfl
@[simp] theorem setMa_resb (s : State) (k : MaInst) (v : MaState) : (s.setMa k v).resb = s.resb := by cases k <;> rfl
@[simp] theorem setMa_cfg (s : State) (k : MaInst) (v : MaState) : (s.setMa k v).cfg = s.cfg := by cases k <;> rfl
@[simp] theorem setMa_input (s : State) (k : MaInst) (v : MaState) : (s.setMa k v).input = s.input := by cases k <;> rfl
@[simp] theorem setMa_dcb (s : State) (k : MaInst) (v : MaState) (k2 : DcbInst) : (s.setMa k v).dcb k2 = s.dcb k2 := by
  cases k <;> cases k2 <;> rfl
@[simp] theorem setMa_ap (s : State) (k : MaInst) (v : MaState) (k2 : ApInst) : (s.setMa k v).ap k2 = s.ap k2 := by
  cases k <;> cases k2 <;> rfl
@[simp] theorem setMa_fir (s : State) (k : MaInst) (v : MaState) (k2 : FirInst) : (s.setMa k v).fir k2 = s.fir k2 := by
  cases k <;> cases k2 <;> rfl
theorem setMa_ma (s : State) (k k2 : MaInst) (v : MaState) :
    (s.setMa k v).ma k2 = if k2 = k then v else s.ma k2 := by
  cases k <;> cases k2 <;> rfl
@[simp] theorem setMa_ma_same (s : State) (k : MaInst) (v : MaState) : (s.setMa k v).ma k = v := by cases k <;> rfl
theorem setMa_ma_other (s : State) (k k2 : MaInst) (v : MaState) (h : k2 ≠ k) : (s.setMa k v).ma k2 = s.ma k2 := by
  rw [setMa_ma, if_neg h]

/-! The envelope alone. -/

@[simp] theorem withEnv_dcb (s : State) (e : F32) (k : DcbInst) : State.dcb (State.mk s.dcbRxI s.dcbRxQ s.dcbTx s.apRxP s.apRxN s.apTxP
    s.apTxN s.firRxSsb s.firRxCw s.firTxShape s.firTxI s.firTxQ s.maRxI s.maRxQ e s.smeter s.micPeak s.tDecay s.tHang s.status
    s.resa s.resb s.cfg s.input) k = s.dcb k := by
  cases k <;> rfl
@[simp] theorem withEnv_ap (s : State) (e : F32) (k : ApInst) : State.ap (State.mk s.dcbRxI s.dcbRxQ s.dcbTx s.apRxP s.apRxN s.apTxP
    s.apTxN s.firRxSsb s.firRxCw s.firTxShape s.firTxI s.firTxQ s.maRxI s.maRxQ e s.smeter s.micPeak s.tDecay s.tHang s.status
    s.resa s.resb s.cfg s.input) k = s.ap k := by
  cases k <;> rfl
@[simp] theorem withEnv_fir (s : State) (e : F32) (k : FirInst) : State.fir (State.mk s.dcbRxI s.dcbRxQ s.dcbTx s.apRxP s.apRxN s.apTxP
    s.apTxN s.firRxSsb s.firRxCw s.firTxShape s.firTxI s.firTxQ s.maRxI s.maRxQ e s.smeter s.micPeak s.tDecay s.tHang s.status
    s.resa s.resb s.cfg s.input) k = s.fir k := by
  cases k <;> rfl
@[simp] theorem withEnv_ma (s : State) (e : F32) (k : MaInst) : State.ma (State.mk s.dcbRxI s.dcbRxQ s.dcbTx s.apRxP s.apRxN s.apTxP
    s.apTxN s.firRxSsb s.firRxCw s.firTxShape s.firTxI s.firTxQ s.maRxI s.maRxQ e s.smeter s.micPeak s.tDecay s.tHang s.status
    s.resa s.resb s.cfg s.input) k = s.ma k := by
  cases k <;> rfl

end Sys2Proof.Machine
end

