-- ==== Sys2Proof/Laws/Ops.lean ====
section
/-! SUPPORT. One lemma per shared operation that says everything it does, for proofs to cite instead of unfolding it. -/

namespace Sys2Proof.Machine

/-- A DC-blocker step: the output of the unit function, and only that instance changed. -/
theorem stepDcb_spec (k : DcbInst) (x : F32) (s : State) :
    stepDcb k x s = ((dcbUnit s.cfg (s.dcb k) x).1, s.setDcb k (dcbUnit s.cfg (s.dcb k) x).2) := rfl

/-- An all-pass cascade step: the output of the unit function, and only that instance changed. -/
theorem stepAp_spec (k : ApInst) (x : F32) (s : State) :
    stepAp k x s = ((apUnit s.cfg (apCoeffs s.cfg k) (s.ap k) x).1, s.setAp k (apUnit s.cfg (apCoeffs s.cfg k) (s.ap k) x).2) := rfl

/-- A FIR step: the output of the unit function, and only that instance changed. -/
theorem stepFir_spec (k : FirInst) (x : F32) (s : State) :
    stepFir k x s = ((firUnit s.cfg (firTable s.cfg k) (s.fir k) x).1, s.setFir k (firUnit s.cfg (firTable s.cfg k) (s.fir k) x).2) :=
  rfl

/-- A smoother step: the output of the unit function, and only that instance changed. -/
theorem stepMa_spec (k : MaInst) (x : F32) (s : State) :
    stepMa k x s = ((maUnit s.cfg (s.ma k) x).1, s.setMa k (maUnit s.cfg (s.ma k) x).2) := rfl

/-- An AGC step: the tracked envelope is the only state written, and the output is computed from it. -/
theorem stepAgc_spec (x : F32) (s : State) :
    stepAgc x s = (agcOutput s.cfg (agcTrack s.cfg s.env (fabs x)) x, { s with env := agcTrack s.cfg s.env (fabs x) }) := rfl

/-- The DC blocker leaves `y_prev = s` (rule R25). -/
theorem dcbUnit_tied (c : Cfg) (st : DcbState) (x : F32) : (dcbUnit c st x).2.yPrev = (dcbUnit c st x).2.s := rfl

/-- The DC blocker's output is its new `s`. -/
theorem dcbUnit_output (c : Cfg) (st : DcbState) (x : F32) : (dcbUnit c st x).1 = (dcbUnit c st x).2.s := rfl

/-- Reading the FIR history after a write: the written entry at its index, the old entry elsewhere. -/
theorem firRead_firWrite (buf : Vector F32 Config.firStore) (i j : BitVec 8) (x : F32) :
    firRead (firWrite buf i x) j = if j = i then x else firRead buf j := by
  unfold firRead firWrite
  rw [Vector.getElem_set]
  by_cases h : i.toNat = j.toNat
  · rw [if_pos h, if_pos (BitVec.eq_of_toNat_eq h.symm)]
  · rw [if_neg h, if_neg (fun e => h (by rw [e]))]

/-- The masked index on whole numbers, as rule R107 writes it (20_memory.md rule R51). -/
theorem firIndex_toNat (c : Cfg) (idx : BitVec 8) (j : Nat) (h : 1 ≤ c.firCap) (h' : c.firCap ≤ 256) :
    ((firIndex c idx j).toNat : Int) = ((idx.toNat : Int) - (j : Int)) % (c.firCap : Int) := by
  unfold firIndex
  have hlt := Nat.mod_lt (idx.toNat + (c.firCap - j % c.firCap)) h
  have hj := Nat.mod_lt j h
  have hdiv := Nat.mod_add_div j c.firCap
  rw [BitVec.toNat_ofNat, Nat.mod_eq_of_lt (by omega), Int.natCast_mod]
  refine Int.emod_eq_emod_iff_emod_sub_eq_zero.mpr (Int.emod_eq_zero_of_dvd ⟨1 + ((j / c.firCap : Nat) : Int), ?_⟩)
  have hz : (j : Int) = (j % c.firCap : Nat) + (c.firCap : Int) * ((j / c.firCap : Nat) : Int) := by exact_mod_cast hdiv.symm
  rw [Nat.cast_add, Nat.cast_sub hj.le]
  linarith

/-- The FIR write position advances by one, modulo `FIR_CAP` (rule R107). -/
theorem firUnit_idx (c : Cfg) (table : List F32) (st : FirState) (x : F32) :
    (firUnit c table st x).2.idx = firNext c st.idx := rfl

/-- The advanced position stays below `FIR_CAP`. -/
theorem firNext_lt (c : Cfg) (idx : BitVec 8) (h : 1 ≤ c.firCap) (h' : c.firCap ≤ 256) : (firNext c idx).toNat < c.firCap := by
  unfold firNext
  have hlt := Nat.mod_lt (idx.toNat + 1) h
  rw [BitVec.toNat_ofNat, Nat.mod_eq_of_lt (by omega)]
  exact hlt

/-- A smoother stage that is not there passes its input on. -/
theorem maStageAt_absent (c : Cfg) (k : Nat) (st : MaStage) (x : F32) (h : c.maStages ≤ k) : maStageAt c k st x = (x, st) :=
  if_neg (by omega)

theorem maStageAt_present (c : Cfg) (k : Nat) (st : MaStage) (x : F32) (h : k < c.maStages) :
    maStageAt c k st x = maStageUnit c st x := if_pos h

/-- Taking the host's next event leaves the block itself alone. -/
theorem takeEvent_cons (s : State) (e : HostEvent) (rest : List HostEvent) (h : s.input = e :: rest) :
    s.takeEvent = some (e, { s with input := rest }) := by
  unfold State.takeEvent
  rw [h]

theorem takeEvent_nil (s : State) (h : s.input = []) : s.takeEvent = none := by
  unfold State.takeEvent
  rw [h]

/-- Building a block: the reset state under a well-formed configuration, a refusal otherwise (rules R16, R282). -/
theorem build_wf (c : Cfg) (h : c.wf = true) : State.build c = .next { State.reset with cfg := c } := by
  unfold State.build
  rw [if_pos h]

theorem build_illFormed (c : Cfg) (h : c.wf = false) : State.build c = .refused .illFormedConfig := by
  unfold State.build
  rw [if_neg (by rw [h]; decide)]

end Sys2Proof.Machine
end

