-- ==== Sys2Proof/Laws/PerInstr.lean ====
section
/-! SUPPORT. A fact about every command as syntax: the encoded command word has its reserved bits zero and its `OP` in
the opcode map of 30_encoding.md rule R73. -/

namespace Sys2Proof.Laws

/-- The `OP` values of rule R73's map. -/
def opcodes : List (BitVec 8) :=
  [0x00#8, 0x01#8, 0x02#8, 0x03#8, 0x04#8, 0x05#8, 0x06#8, 0x07#8, 0x10#8, 0x11#8, 0x12#8, 0x13#8, 0x14#8]

/-- The encoded command word has `RSV` = 0 and an `OP` of the map. -/
def EncodedWord.Statement (i : Instr) : Prop :=
  rsvField (encode i).cmd = 0#20 ∧ opcodes.contains (opField (encode i).cmd) = true

/-- Every word the encoder builds from an `OP` of the map satisfies the statement. -/
theorem EncodedWord.of_cmdWord (i : Instr) (op : BitVec 8) (sel : BitVec 4) (h : (encode i).cmd = cmdWord op sel)
    (hop : opcodes.contains op = true) : EncodedWord.Statement i := by
  unfold EncodedWord.Statement
  rw [h, rsvField_cmdWord, opField_cmdWord]
  exact ⟨rfl, hop⟩

theorem EncodedWord.nop : EncodedWord.Statement .nop :=
  EncodedWord.of_cmdWord _ _ _ rfl (by decide)

theorem EncodedWord.rxSample (mode : RxMode) (opa opb : Word) : EncodedWord.Statement (.rxSample mode opa opb) :=
  EncodedWord.of_cmdWord _ _ _ rfl (by decide)

theorem EncodedWord.txSample (opa : Word) : EncodedWord.Statement (.txSample opa) :=
  EncodedWord.of_cmdWord _ _ _ rfl (by decide)

theorem EncodedWord.agcMute : EncodedWord.Statement .agcMute :=
  EncodedWord.of_cmdWord _ _ _ rfl (by decide)

theorem EncodedWord.smeterUpdate : EncodedWord.Statement .smeterUpdate :=
  EncodedWord.of_cmdWord _ _ _ rfl (by decide)

theorem EncodedWord.micSample (opa opb : Word) : EncodedWord.Statement (.micSample opa opb) :=
  EncodedWord.of_cmdWord _ _ _ rfl (by decide)

theorem EncodedWord.read (reg : ReadReg) : EncodedWord.Statement (.read reg) :=
  EncodedWord.of_cmdWord _ _ _ rfl (by decide)

theorem EncodedWord.statusClear : EncodedWord.Statement .statusClear :=
  EncodedWord.of_cmdWord _ _ _ rfl (by decide)

theorem EncodedWord.dcbStep (inst : DcbInst) (opa : Word) : EncodedWord.Statement (.dcbStep inst opa) :=
  EncodedWord.of_cmdWord _ _ _ rfl (by decide)

theorem EncodedWord.apStep (inst : ApInst) (opa : Word) : EncodedWord.Statement (.apStep inst opa) :=
  EncodedWord.of_cmdWord _ _ _ rfl (by decide)

theorem EncodedWord.firStep (inst : FirInst) (opa : Word) : EncodedWord.Statement (.firStep inst opa) :=
  EncodedWord.of_cmdWord _ _ _ rfl (by decide)

theorem EncodedWord.maStep (inst : MaInst) (opa : Word) : EncodedWord.Statement (.maStep inst opa) :=
  EncodedWord.of_cmdWord _ _ _ rfl (by decide)

theorem EncodedWord.agcStep (opa : Word) : EncodedWord.Statement (.agcStep opa) :=
  EncodedWord.of_cmdWord _ _ _ rfl (by decide)

end Sys2Proof.Laws
end

