-- ==== Sys2Proof/Tests/Slice0.lean ====
section
/-! SUPPORT. The model's own tests. Expected values are those of 95_test_vectors.md or worked by hand from its rows, never
the model's answer. Each runs one step on a small state. The witnesses at the end meet the hypotheses of the statements,
at the ends of their ranges. -/

namespace Sys2Proof.Tests

-- One theorem after another: every kernel evaluation at once would take more threads than memory has room for.
set_option Elab.async false

open Machine Claims

/-- Configuration EX of 95_test_vectors.md section 2. -/
def exCfg : Cfg :=
  { Cfg.ofOpen Config.witnessOpen with hSsb := [0x3F000000#32, 0x3E800000#32, 0x3E000000#32, 0x3D800000#32] }

/-- The block of configuration EX after reset. -/
def base : State := { State.reset with cfg := exCfg }

/-- The state after an outcome, `base` if it is none. -/
def nextOf (o : Host.Outcome State Fault Refusal) : State :=
  match o with
  | .next t => t
  | .fault _ => base
  | .refused _ => base

/-- The state after one presented command. -/
def run (cmd opa opb : Word) (s : State) : State := nextOf (perform ⟨cmd, opa, opb⟩ s)

/-! Well-formedness: an ill-formed term for each check, which the check refuses. -/

theorem test_wf_ex : exCfg.wf = true := by decide +kernel

theorem test_wf_infinite_coefficient : Cfg.wf { exCfg with kDc := 0x7F800000#32 } = false := by decide +kernel

theorem test_wf_nan_allpass : Cfg.wf { exCfg with kN := ⟨0#32, 0x7FC00000#32, 0#32⟩ } = false := by decide +kernel

theorem test_wf_empty_table : Cfg.wf { exCfg with hCw := [] } = false := by decide +kernel

theorem test_wf_long_table : Cfg.wf { exCfg with hTxi := List.replicate 257 posZero } = false := by decide +kernel

theorem test_wf_large_capacity : Cfg.wf { exCfg with firCap := 257 } = false ∧ Cfg.wf { exCfg with maStages := 5 } = false ∧
    Cfg.wf { exCfg with maLen := 0 } = false := by decide +kernel

theorem test_wf_asymmetric_shape : Cfg.wf { exCfg with hTxs := [0x3F800000#32, 0#32] } = false := by decide +kernel

theorem test_wf_zero_gain : Cfg.wf { exCfg with silence := 0x00000000#32 } = false := by decide +kernel

theorem test_wf_small_mute : Cfg.wf { exCfg with muteEnv := 0x424C0000#32 } = false := by decide +kernel

theorem test_wf_empty_smeter_domain : Cfg.wf { exCfg with smLoRef := 0x42F00000#32 } = false := by decide +kernel

theorem test_wf_zero_mic_step : Cfg.wf { exCfg with micStep := 0 } = false := by decide +kernel

theorem test_wf_decay_after_hang : Cfg.wf { exCfg with micDecay := 501#32 } = false := by decide +kernel

theorem test_wf_bias_off_centre : Cfg.wf { exCfg with bias := 2047 } = false := by decide +kernel

theorem test_wf_wide_code : Cfg.wf { exCfg with adcBits := 17, bias := 65536 } = false := by decide +kernel

theorem test_build_refuses : State.build { exCfg with hCw := [] } = .refused .illFormedConfig :=
  if_neg (by rw [test_wf_empty_table]; decide)

theorem test_instr_code_range : Instr.wellFormed 12 (.txSample 4096#32) = false ∧ Instr.wellFormed 12 (.txSample 4095#32) = true ∧
    Instr.wellFormed 12 (.rxSample .ssb 0#32 4096#32) = false ∧ Instr.wellFormed 12 (.micSample 4096#32 0#32) = false := by
  decide

/-! Decoding: one word of each constructor, written out from the fields of 30_encoding.md R71 and R73
(20 bits `RSV`, 4 bits `SEL`, 8 bits `OP`). -/

theorem test_decode_nop : decode ⟨0b00000000000000000000_0000_00000000#32, 7#32, 9#32⟩ = .ok .nop := by rfl

theorem test_decode_rxSample :
    decode ⟨0b00000000000000000000_0001_00000001#32, 7#32, 9#32⟩ = .ok (.rxSample .cw 7#32 9#32) := by rfl

theorem test_decode_txSample : decode ⟨0b00000000000000000000_0000_00000010#32, 7#32, 9#32⟩ = .ok (.txSample 7#32) := by rfl

theorem test_decode_agcMute : decode ⟨0b00000000000000000000_0000_00000011#32, 7#32, 9#32⟩ = .ok .agcMute := by rfl

theorem test_decode_smeterUpdate : decode ⟨0b00000000000000000000_0000_00000100#32, 7#32, 9#32⟩ = .ok .smeterUpdate := by rfl

theorem test_decode_micSample :
    decode ⟨0b00000000000000000000_0000_00000101#32, 7#32, 9#32⟩ = .ok (.micSample 7#32 9#32) := by rfl

theorem test_decode_read : decode ⟨0b00000000000000000000_0010_00000110#32, 7#32, 9#32⟩ = .ok (.read .env) := by rfl

theorem test_decode_statusClear : decode ⟨0b00000000000000000000_0000_00000111#32, 7#32, 9#32⟩ = .ok .statusClear := by rfl

theorem test_decode_dcbStep : decode ⟨0b00000000000000000000_0001_00010000#32, 7#32, 9#32⟩ = .ok (.dcbStep .rxQ 7#32) := by rfl

theorem test_decode_apStep : decode ⟨0b00000000000000000000_0011_00010001#32, 7#32, 9#32⟩ = .ok (.apStep .txN 7#32) := by rfl

theorem test_decode_firStep : decode ⟨0b00000000000000000000_0100_00010010#32, 7#32, 9#32⟩ = .ok (.firStep .txQ 7#32) := by rfl

theorem test_decode_maStep : decode ⟨0b00000000000000000000_0001_00010011#32, 7#32, 9#32⟩ = .ok (.maStep .rxQ 7#32) := by rfl

theorem test_decode_agcStep : decode ⟨0b00000000000000000000_0000_00010100#32, 7#32, 9#32⟩ = .ok (.agcStep 7#32) := by rfl

/-- The illegal words K2, K5, K6, K9 of 95_test_vectors.md, each under its own name. -/
theorem test_decode_illegal :
    decode ⟨0x00000008#32, 0#32, 0#32⟩ = .error (.reservedOp 0x08#8) ∧
    decode ⟨0x00000100#32, 0#32, 0#32⟩ = .error (.illegalSel 0x00#8 1#4) ∧
    decode ⟨0x00000201#32, 0#32, 0#32⟩ = .error (.illegalSel 0x01#8 2#4) ∧
    decode ⟨0x00001001#32, 0#32, 0#32⟩ = .error .reservedBits :=
  ⟨rfl, rfl, rfl, rfl⟩

/-- Byte order of 20_memory.md R54, and the 96-bit numbering: `CMD`, then `OPA`, then `OPB`. -/
theorem test_table_word :
    decodeTableWord 96 0x00000212_00000BB8_00000101 = some (.rxSample .cw 0x00000BB8#32 0x00000212#32) ∧
    decodeTableWord 32 0x00000101 = some (.rxSample .cw 0#32 0#32) ∧ decodeTableWord 32 0x00000114 = none := by decide

/-! One step of each command. -/

theorem test_nop : exec .nop { base with resa := 5#32, resb := 6#32 } = .next base := by rfl

/-- X1a. -/
theorem test_rxSample_ssb :
    let t := run 0x00000001#32 3000#32 2048#32 base
    t.resa = 2046#32 ∧ t.env = 0x439DC000#32 ∧ t.firRxSsb.idx = 1#8 ∧ t.firRxCw.idx = 0#8 ∧ t.apRxN.stage2.yPrev = 0xC3800000#32 := by
  decide +kernel

/-- X3: `RX_SMOOTH` true. -/
theorem test_rxSample_smoothed :
    let t := run 0x00000001#32 3000#32 2048#32 { base with cfg := { exCfg with rxSmooth := true } }
    t.resa = 0#32 ∧ t.apRxN.stage2.yPrev = 0xB9800000#32 ∧ t.maRxQ.stage0.pos = 1#5 := by decide +kernel

/-- T1. -/
theorem test_txSample_floor :
    let t := run 0x00000002#32 4095#32 0#32 base
    t.resa = 63#32 ∧ t.resb = 0xFFFFFFC1#32 ∧ t.firTxShape.idx = 1#8 ∧ t.env = 0#32 := by decide +kernel

/-- T4, with high bits of the code set (30_encoding.md R74). -/
theorem test_txSample_high_bits :
    let t := run 0x00000002#32 0xFFFFF800#32 0#32 base
    t.resa = 32#32 ∧ t.resb = 0xFFFFFFE0#32 := by decide +kernel

/-- P3 line 5. -/
theorem test_agcMute : (run 0x00000003#32 0#32 0#32 { base with env := 0x42C80000#32 }).env = 0x49800000#32 := by decide +kernel

/-- P3 line 3: `ENV` = 100.0. -/
theorem test_smeterUpdate :
    let t := run 0x00000004#32 0#32 0#32 { base with env := 0x42C80000#32 }
    t.smeter = 221#8 ∧ t.resa = 221#32 := by decide +kernel

/-- The row 31.0 of 95_test_vectors.md section 3.7. -/
theorem test_smeterUpdate_low : (run 0x00000004#32 0#32 0#32 { base with env := 0x41F80000#32 }).resa = 6#32 := by decide +kernel

/-- The wrap vector of 95_test_vectors.md section 3.10. -/
theorem test_micSample_decay :
    let t := run 0x00000005#32 2048#32 0x000000F4#32 { base with micPeak := 10#16, tDecay := 0xFFFFFF00#32, tHang := 0xFFFFFF00#32 }
    t.resa = 9#32 ∧ t.tDecay = 0xF4#32 ∧ t.tHang = 0xFFFFFF00#32 := by decide +kernel

/-- P5 line 6. -/
theorem test_micSample_capture :
    let t := run 0x00000005#32 1000#32 530#32 { base with micPeak := 998#16, tDecay := 520#32 }
    t.resa = 1048#32 ∧ t.micPeak = 1048#16 ∧ t.tDecay = 530#32 ∧ t.tHang = 530#32 := by decide +kernel

theorem test_read_micPeak : (run 0x00000106#32 0#32 0#32 { base with micPeak := 1047#16 }).resa = 0x417#32 := by decide +kernel

/-- K12. -/
theorem test_read_status : (run 0x00000306#32 0#32 0#32 { base with status := 1#32 }).resa = 1#32 := by decide +kernel

/-- K13. -/
theorem test_statusClear : (run 0x00000007#32 0#32 0#32 { base with status := 1#32 }).status = 0#32 := by decide +kernel

/-- D1, second output. -/
theorem test_dcbStep :
    let t := run 0x00000010#32 0x45000000#32 0#32 { base with dcbRxI := ⟨0x45000000#32, 0x45000000#32, 0x45000000#32⟩ }
    t.resa = 0x44F33333#32 ∧ t.dcbRxI = ⟨0x44F33333#32, 0x45000000#32, 0x44F33333#32⟩ ∧ t.dcbRxQ = DcbState.zero := by decide +kernel

/-- D4, second output: infinity then zero. -/
theorem test_dcbStep_nan :
    (run 0x00000210#32 0#32 0#32 { base with dcbTx := ⟨0x7F800000#32, 0x7F800000#32, 0x7F800000#32⟩ }).resa = 0x7FC00000#32 := by
  decide +kernel

/-- Vector P2 of section 3.3, first output: the N cascades take `K_N`. -/
theorem test_apStep : (run 0x00000111#32 0x3F800000#32 0#32 base).resa = 0xBE000000#32 := by decide +kernel

/-- P4 line 7: the second output of vector P1, from the state after line 6 worked by hand. -/
theorem test_apStep_second :
    (run 0x00000011#32 0#32 0#32 { base with
      apRxP := ⟨⟨0x3F800000#32, 0x3F000000#32⟩, ⟨0x3F000000#32, 0x3E800000#32⟩, ⟨0x3E800000#32, 0x3E000000#32⟩⟩ }).resa
      = 0xBF100000#32 := by decide +kernel

/-- F1, second output. -/
theorem test_firStep :
    let t := run 0x00000012#32 0#32 0#32 { base with firRxSsb := ⟨(Vector.replicate 256 0#32).set 0 0x3F800000#32, 1#8⟩ }
    t.resa = 0x3E800000#32 ∧ t.firRxSsb.idx = 2#8 := by decide +kernel

/-- The same with the history wrapping round (40_stream_filters.md R110). -/
theorem test_firStep_wrap :
    let t := run 0x00000012#32 0#32 0#32 { base with firRxSsb := ⟨(Vector.replicate 256 0#32).set 254 0x3F800000#32, 0#8⟩ }
    t.resa = 0x3E000000#32 ∧ t.firRxSsb.idx = 1#8 := by decide +kernel

/-- M1. -/
theorem test_maStep :
    let t := run 0x00000013#32 0x3F800000#32 0#32 base
    t.resa = 0x35800000#32 ∧ t.maRxI.stage2.sum = 0x3A800000#32 ∧ t.maRxI.stage3.pos = 1#5 ∧ t.maRxQ = MaState.zero := by
  decide +kernel

/-- A2. -/
theorem test_agcStep_attack :
    let t := run 0x00000014#32 0x42C80000#32 0#32 { base with env := 0x3F000000#32 }
    t.resa = 2046#32 ∧ t.env = 0x42C80000#32 := by decide +kernel

/-- A4b. -/
theorem test_agcStep_decay :
    let t := run 0x00000014#32 0xC2C80000#32 0#32 { base with env := 0x42C80000#32 }
    t.resa = 0xFFFFF801#32 ∧ t.env = 0x42C7FDF4#32 := by decide +kernel

/-- K10. -/
theorem test_illegal :
    run 0x00000114#32 0x42C80000#32 0#32 { base with resa := 5#32 } = { base with status := 1#32 } := by rfl

/-- Reset wins over the command presented with it (60_exceptions.md R254). -/
theorem test_reset :
    step { base with env := 1#32, input := [.reset (some ⟨3#32, 0#32, 0#32⟩), .reset none] } = .next { base with input := [.reset none] } := by
  rfl

theorem test_fetch_word :
    step (base.withFetchWord 96 0x00000000_42C80000_00000014) = exec (.agcStep 0x42C80000#32) base := by rfl

/-! The assembler (30_encoding.md R78, R79). -/

theorem test_asm_code : assemble 12 "RX_SAMPLE.SSB 3000, 2048" = .ok ⟨0x00000001#32, 0x00000BB8#32, 0x00000800#32⟩ := by decide +kernel

theorem test_asm_float : assemble 12 "DCB_STEP.TX 2048.0" = .ok ⟨0x00000210#32, 0x45000000#32, 0#32⟩ := by decide +kernel

theorem test_asm_bits : assemble 12 "AGC_STEP f32:0x7FC00000" = .ok ⟨0x00000014#32, 0x7FC00000#32, 0#32⟩ := by decide +kernel

theorem test_asm_range : assemble 12 "TX_SAMPLE 4096" = .error .codeOutOfRange := by decide +kernel

/-- The model's choice (log entry 13): no negative and no overlong integer literal. -/
theorem test_asm_integers :
    assemble 12 "MIC_SAMPLE 0, -5" = .error .badLiteral ∧ assemble 12 "MIC_SAMPLE 0, 4294967296" = .error .badLiteral ∧
      assemble 12 "MIC_SAMPLE 0, 0xFFFFFFFF" = .ok ⟨0x00000005#32, 0#32, 0xFFFFFFFF#32⟩ := by decide +kernel

/-! The sizes of the histories (rule R7): positions wrap at `FIR_CAP`, and `MA_LEN` = 32 divides by 32.0. -/

theorem test_firIndex :
    firIndex exCfg 0#8 1 = 255#8 ∧ firIndex { exCfg with firCap := 4 } 0#8 1 = 3#8 ∧ firNext { exCfg with firCap := 4 } 3#8 = 0#8 ∧
      maDivisor exCfg = 0x42000000#32 := by decide +kernel

/-! Numeric primitives (95_test_vectors.md section 3.1, 00_scope.md R10). -/

theorem test_f2i : [0x44FFDFFF#32, 0xC2100000#32, 0xBFFFFCB9#32, 0x7FC00000#32, 0x4F32D05E#32, 0xCF32D05E#32, 0x4EFFFFFF#32].map f2i
    = [2046, -36, -1, 0, 2147483647, -2147483648, 2147483520] := by decide +kernel

theorem test_log10 : flog10 .correctlyRounded 0x41F00000#32 = 0x3FBD124F#32 ∧ flog10 .correctlyRounded 0x42F00000#32 = 0x4005114E#32 := by
  decide +kernel

/-! Witnesses: the hypotheses of the statements hold together. -/

theorem witness_DecodedCommandReencodes : decode ⟨0x00000412#32, 7#32, 9#32⟩ = .ok (.firStep .txQ 7#32) := by rfl

theorem witness_LegalCommandWordsExactly : legalWord 0x00000412#32 ∧ ¬ legalWord 0x00000512#32 ∧ ¬ legalWord 0x00001000#32 := by
  unfold legalWord
  decide

theorem witness_CodeHighBitsIgnored :
    code base.cfg 0xFFFFFFFF#32 = code base.cfg 0x00000FFF#32 ∧ code base.cfg 0xFFFFF000#32 = code base.cfg 0#32 := by decide +kernel

theorem witness_StepPerformsDecodedCommand :
    ({ base with input := [.command ⟨0x00000014#32, 7#32, 0#32⟩] } : State).input = .command ⟨0x00000014#32, 7#32, 0#32⟩ :: [] ∧
      decode ⟨0x00000014#32, 7#32, 0#32⟩ = .ok (.agcStep 7#32) := ⟨rfl, rfl⟩

theorem witness_IllegalCommandRecordsOnlyIll :
    ({ base with input := [.command ⟨0x00000015#32, 7#32, 0#32⟩] } : State).input = .command ⟨0x00000015#32, 7#32, 0#32⟩ :: [] ∧
      ¬ legalWord 0x00000015#32 := by
  refine ⟨rfl, ?_⟩
  unfold legalWord
  decide

theorem witness_ResetTakesPrecedence :
    ({ base with input := [.reset (some ⟨0#32, 0#32, 0#32⟩)] } : State).input = .reset (some ⟨0#32, 0#32, 0#32⟩) :: [] := rfl

theorem witness_NothingPresentedNothingHappens : base.input = [] := rfl

/-- A check of every entry of a list, run on the entries. -/
theorem forall_of_all {α : Type} (p : α → Prop) [DecidablePred p] (l : List α) (h : l.all (fun a => decide (p a)) = true) :
    ∀ a ∈ l, p a := fun a ha => of_decide_eq_true (List.all_eq_true.mp h a ha)

theorem tableWord_of_check (c : Cfg) (t : List F32) (hl : 1 ≤ t.length ∧ t.length ≤ c.firCap)
    (hf : t.all (fun w => decide (finiteWord w)) = true) : tableWord c t :=
  ⟨hl.1, hl.2, forall_of_all _ t hf⟩

/-- Configuration EX meets rule R16's list, and with `MIC_STEP` = 0 it does not. -/
theorem witness_IllFormedConfigurationRefused : wellFormedR16 exCfg ∧ ¬ wellFormedR16 { exCfg with micStep := 0 } := by
  refine ⟨⟨?_, forall_of_all finiteWord _ (by decide +kernel),
    forall_of_all positiveWord _ (by decide +kernel), ?_, ?_, ?_, ?_, ?_, ?_, ?_, ?_, ?_⟩,
    fun h => absurd h.2.2.2.2.2.1 (by decide)⟩
  · intro t ht
    simp only [List.mem_cons, List.not_mem_nil, or_false] at ht
    rcases ht with rfl | rfl | rfl | rfl | rfl <;> exact tableWord_of_check _ _ (by decide +kernel) (by decide +kernel)
  all_goals decide +kernel

theorem witness_SmeterUpdateInRange : base.cfg.wf = true := by decide +kernel

/-- The three clauses at the values where they meet: one above the peak; the peak itself with both timers just expired;
the same one tick earlier on either timer. -/
theorem witness_MicSampleCapturesDecaysOrHolds :
    let s : State := { base with micPeak := 10#16, tDecay := 480#32, tHang := 0#32 }
    let m := fun a : Word => ((code s.cfg a : Int) - (s.cfg.bias : Int)).natAbs
    s.micPeak.toNat < m 2059#32 ∧ m 2058#32 ≤ s.micPeak.toNat ∧ s.cfg.micHang.toNat ≤ elapsed 500#32 s.tHang ∧
      s.cfg.micDecay.toNat ≤ elapsed 500#32 s.tDecay ∧ elapsed 499#32 s.tHang < s.cfg.micHang.toNat ∧
      elapsed 499#32 s.tDecay < s.cfg.micDecay.toNat := by decide +kernel

/-- Each register is changed by a command of its own. -/
theorem witness_RegistersWrittenByTheirCommands :
    (run 0x00000003#32 0#32 0#32 base).env ≠ base.env ∧ (run 0x00000004#32 0#32 0#32 { base with env := 0x42C80000#32 }).smeter ≠ base.smeter ∧
      (run 0x00000005#32 0#32 0#32 base).micPeak ≠ base.micPeak ∧ (run 0x00000007#32 0#32 0#32 { base with status := 1#32 }).status ≠ 1#32 := by
  decide +kernel

theorem witness_ConfigurationNeverChanges : step { base with input := [.reset none] } = .next base := rfl

theorem witness_IdempotentCommands : Safety.idempotent .agcMute = true ∧ exec .agcMute base = .next { base with env := 0x49800000#32 } :=
  ⟨rfl, rfl⟩

theorem witness_TransmitChainIsolated :
    ∀ t ∈ [(⟨0x00000002#32, 4095#32, 0#32⟩ : Transaction), ⟨0x00000001#32, 3000#32, 2048#32⟩, ⟨0x00000003#32, 0#32, 0#32⟩,
      ⟨0x00000015#32, 0#32, 0#32⟩], Safety.noUnitStep t := by
  unfold Safety.noUnitStep
  decide

theorem witness_inv_base : Safety.Inv base where
  cfgWf := by decide +kernel
  cfgEnv := by unfold Safety.envConfig; decide +kernel
  envNumber := by decide +kernel
  envSign := by decide +kernel
  smeterRange := by decide +kernel
  micRange := by decide +kernel
  statusReserved := by decide +kernel
  dcbTied := by intro k; cases k <;> rfl
  firRange := by intro k; cases k <;> decide +kernel
  maRange := by intro k; cases k <;> decide +kernel

/-- The base state with every field the invariant bounds at the end of its range. -/
def edge : State :=
  { base with
    env := 0x7F800000#32, smeter := 255#8, micPeak := 2048#16, status := 1#32,
    firRxSsb := ⟨Vector.replicate 256 0#32, 255#8⟩, maRxI := { MaState.zero with stage0 := { MaStage.zero with pos := 31#5 } } }

/-- The invariant at the ends of its ranges. -/
theorem witness_InvariantKeptByEveryStep : Safety.Inv edge ∧ step edge = .next edge := by
  refine ⟨⟨?_, ?_, ?_, ?_, ?_, ?_, ?_, ?_, ?_, ?_⟩, rfl⟩
  · decide +kernel
  · unfold Safety.envConfig; decide +kernel
  · decide +kernel
  · decide +kernel
  · decide +kernel
  · decide +kernel
  · decide +kernel
  · intro k; cases k <;> rfl
  · intro k; cases k <;> decide +kernel
  · intro k; cases k <;> decide +kernel

theorem witness_InvariantHoldsWhenBuilt : State.build exCfg = .next base ∧ Safety.envConfig exCfg := by
  refine ⟨?_, ?_⟩
  · exact if_pos test_wf_ex
  · unfold Safety.envConfig; decide +kernel

theorem witness_DcbFirstOutputIsInput :
    base.dcb .rxI = ⟨0#32, 0#32, 0#32⟩ ∧ base.cfg.fp = .binary32 ∧ isFinite base.cfg.kDc = true ∧ isNaN 0x7F800000#32 = false ∧ (0x7F800000#32 : Word) ≠ 0x80000000#32 :=
  ⟨rfl, rfl, by decide +kernel, by decide, by decide⟩

theorem witness_DcbNanPersists :
    isNaN (({ base with dcbTx := ⟨0x7FC00000#32, 0#32, 0x7FC00000#32⟩ } : State).dcb .tx).s = true := by decide +kernel

/-- A block whose `H_SSB` has the full length. -/
def longBase : State := { State.reset with cfg := Cfg.ofOpen Config.witnessOpen }

theorem witness_FirMatchesUnboundedHistory :
    longBase.fir .rxSsb = ⟨Vector.replicate 256 0#32, 0#8⟩ ∧ longBase.cfg.firCap ≤ 256 ∧
      (firTable longBase.cfg .rxSsb).length ≤ longBase.cfg.firCap ∧ 256 ≤ (firTable longBase.cfg .rxSsb).length :=
  ⟨rfl, by decide, by decide +kernel, by decide +kernel⟩

/-- The bounds the statements about whole chains ask for, with one table of the full length; the same for `RX_SAMPLE` and
`TX_SAMPLE`. -/
theorem witness_FirStepUpdatesOneInstance :
    longBase.cfg.firCap ≤ 256 ∧ ∀ k, (firTable longBase.cfg k).length ≤ longBase.cfg.firCap :=
  ⟨by decide, by intro k; cases k <;> decide +kernel⟩

theorem witness_FirImpulseResponse :
    longBase.fir .rxSsb = ⟨Vector.replicate 256 0#32, 0#8⟩ ∧ longBase.cfg.fp = .binary32 ∧ longBase.cfg.firCap ≤ 256 ∧
      (firTable longBase.cfg .rxSsb).length ≤ longBase.cfg.firCap ∧ (∀ h ∈ firTable longBase.cfg .rxSsb, isFinite h = true) ∧ 256 ≤ 256 :=
  ⟨rfl, rfl, by decide, by decide +kernel, List.all_eq_true.mp (by decide +kernel), le_refl _⟩

theorem witness_AgcOutputBounded :
    specValues longBase.cfg ∧ isNaN longBase.env = false ∧ signBit longBase.env = false ∧ isFinite 0xFF7FFFFF#32 = true :=
  ⟨⟨Config.witnessOpen, rfl⟩, by decide +kernel, by decide +kernel, by decide⟩

theorem witness_AgcGainCeiling :
    let s : State := { longBase with env := 0x7F800000#32 }
    specValues s.cfg ∧ isNaN s.env = false ∧ signBit s.env = false :=
  ⟨⟨Config.witnessOpen, rfl⟩, by decide, by decide⟩

theorem witness_ZeroInputDecaysEnvelope :
    specValues longBase.cfg ∧ longBase.env = 0x00000000#32 ∧
      (1 ≤ (0x00000001#32 : Word).toNat ∧ (0x00000001#32 : Word).toNat ≤ 0x7F7FFFFF) ∧
      (0x00800000 ≤ (0x00800000#32 : Word).toNat ∧ (0x00800000#32 : Word).toNat ≤ 0x7F7FFFFF) ∧
      (0x00800000 ≤ (0x7F7FFFFF#32 : Word).toNat ∧ (0x7F7FFFFF#32 : Word).toNat ≤ 0x7F7FFFFF) :=
  ⟨⟨Config.witnessOpen, rfl⟩, rfl, by decide, by decide, by decide⟩

theorem witness_InfiniteEnvelopeSticks :
    let s : State := { longBase with env := 0x7F800000#32 }
    specValues s.cfg ∧ s.env = 0x7F800000#32 := ⟨⟨Config.witnessOpen, rfl⟩, rfl⟩

theorem witness_MicTimersExactUnderHostDuty : 0 ≤ 2 ^ 32 ∧ Safety.micClockOk 0 (2 ^ 32 - 1) ∧ Safety.micClockOk (2 ^ 32 - 1) (2 ^ 32 + 5) := by
  unfold Safety.micClockOk
  decide

theorem witness_MicPeakFallsSlowly :
    let s : State := { base with micPeak := 10#16 }
    s.cfg.wf = true ∧ elapsed 499#32 s.tHang < s.cfg.micHang.toNat ∧ (run 0x00000005#32 2048#32 500#32 s).micPeak.toNat < s.micPeak.toNat := by
  decide +kernel

theorem witness_FaddCorrectlyRounded :
    isFinite 0x7F7FFFFF#32 = true ∧ isFinite 0x00000001#32 = true ∧ isInf 0xFF800000#32 = true := by decide

theorem witness_FsubCorrectlyRounded : isFinite 0x80000000#32 = true ∧ isFinite 0x7F7FFFFF#32 = true := by decide

theorem witness_SpecialOperandsFollowIeee :
    isInf 0x7F800000#32 = true ∧ isInf 0xFF800000#32 = true ∧ isFinite 0x80000000#32 = true ∧ isZero 0x80000000#32 = true ∧
      isNaN 0xFF800000#32 = false ∧ isZero 0xFF800000#32 = false ∧ signBit 0xFF800000#32 = true := by decide

theorem witness_FmulCorrectlyRounded : isFinite 0x7F7FFFFF#32 = true ∧ isFinite 0x80000001#32 = true := by decide

theorem witness_FdivCorrectlyRounded :
    isFinite 0x7F7FFFFF#32 = true ∧ isFinite 0x00000001#32 = true ∧ isZero 0x00000001#32 = false := by decide

theorem witness_FsqrtCorrectlyRounded :
    isFinite 0x00000001#32 = true ∧ isZero 0x00000001#32 = false ∧ signBit 0x00000001#32 = false := by decide

theorem witness_LogarithmDigitsExact : 0 < 1 ∧ 1 ≤ 10 ^ 64 - 1 ∧ 10 ^ 64 - 1 < 10 ^ 64 * 1 := by decide

theorem witness_Log10CorrectlyRounded :
    isFinite 0x00000001#32 = true ∧ isZero 0x00000001#32 = false ∧ signBit 0x00000001#32 = false ∧ isFinite 0x7F7FFFFF#32 = true := by
  decide

theorem witness_F2iTruncatesAndClamps : isNaN 0xFFC00001#32 = true ∧ isFinite 0x4F000000#32 = true := by decide

theorem witness_I2fExact : (-(2 ^ 24) : Int).natAbs ≤ 2 ^ 24 := by decide

theorem witness_ComparisonsFollowTheNumbers :
    isNaN 0x80000000#32 = false ∧ isNaN 0xFF800000#32 = false ∧ isNaN 0x7FC00000#32 = true := by decide

theorem witness_NanResultsAreQuiet : isNaN (fsub 0x7F800000#32 0x7F800000#32) = true ∧ isNaN 0x7F800001#32 = true := by decide +kernel

end Sys2Proof.Tests
end

/-! The magnitude line of binary32. Bits 30:0 of a word, read as one number, order the magnitudes; `bitsMag` is the
magnitude they stand for, in units of 2^-149, and `NearestBits` says which of them rounding to nearest, ties to even,
takes (00_scope.md rule R10). -/

namespace Sys2Proof.Machine

/-- Bits 30:0 of a word: the exponent field over the fraction. -/
def magBits (a : F32) : Nat := a.toNat % 2 ^ 31

/-- The magnitude that magnitude bits stand for, in units of 2^-149. It goes on past the bits of infinity as if the
exponent field had no end. -/
def bitsMag (w : Nat) : Nat := (w - 2 ^ 23 * (w / 2 ^ 23 - 1)) * 2 ^ (w / 2 ^ 23 - 1)

/-- The binade `k` in which magnitude bits `w` hold the significand `m`. -/
theorem exists_binade (w : Nat) : ∃ k m, w = 2 ^ 23 * k + m ∧ m < 2 ^ 24 ∧ (k = 0 ∨ 2 ^ 23 ≤ m) :=
  ⟨w / 2 ^ 23 - 1, w - 2 ^ 23 * (w / 2 ^ 23 - 1), by omega, by omega, by omega⟩

/-- The magnitude of significand `m` in binade `k`; `m = 2^24` is the carry into the next binade. -/
theorem bitsMag_binade (k m : Nat) (hm : m ≤ 2 ^ 24) (hk : k = 0 ∨ 2 ^ 23 ≤ m) :
    bitsMag (2 ^ 23 * k + m) = m * 2 ^ k := by
  unfold bitsMag
  by_cases hcarry : m = 2 ^ 24
  · have he : (2 ^ 23 * k + m) / 2 ^ 23 - 1 = k + 1 := by omega
    rw [he, hcarry, show 2 ^ 23 * k + 2 ^ 24 - 2 ^ 23 * (k + 1) = 2 ^ 23 by omega, pow_succ]
    ring
  · have he : (2 ^ 23 * k + m) / 2 ^ 23 - 1 = k := by omega
    rw [he, Nat.add_sub_cancel_left]

/-- Neighbouring magnitudes are one spacing of their binade apart. -/
theorem bitsMag_succ (k m : Nat) (hm : m < 2 ^ 24) (hk : k = 0 ∨ 2 ^ 23 ≤ m) :
    bitsMag (2 ^ 23 * k + m + 1) = (m + 1) * 2 ^ k :=
  bitsMag_binade k (m + 1) hm (by omega)

theorem bitsMag_strictMono : StrictMono bitsMag := by
  refine strictMono_nat_of_lt_succ fun w => ?_
  obtain ⟨k, m, rfl, hm, hk⟩ := exists_binade w
  rw [bitsMag_binade k m hm.le hk, bitsMag_succ k m hm hk]
  exact Nat.mul_lt_mul_of_pos_right (Nat.lt_succ_self m) (by positivity)

@[simp] theorem bitsMag_lt_iff {v w : Nat} : bitsMag v < bitsMag w ↔ v < w := bitsMag_strictMono.lt_iff_lt

@[simp] theorem bitsMag_le_iff {v w : Nat} : bitsMag v ≤ bitsMag w ↔ v ≤ w := bitsMag_strictMono.le_iff_le

@[simp] theorem bitsMag_inj {v w : Nat} : bitsMag v = bitsMag w ↔ v = w := bitsMag_strictMono.injective.eq_iff

@[simp] theorem bitsMag_zero : bitsMag 0 = 0 := rfl

theorem bitsMag_infBits : bitsMag infBits = 2 ^ 277 := by
  rw [show infBits = 2 ^ 23 * 254 + 2 ^ 23 from rfl, bitsMag_binade 254 (2 ^ 23) (by decide) (by decide), ← pow_add]

theorem bitsMag_lt_two_pow {w e : Nat} (hw : w < infBits) (he : 277 ≤ e) : bitsMag w < 2 ^ e :=
  (bitsMag_lt_iff.mpr hw).trans_le (bitsMag_infBits.trans_le (Nat.pow_le_pow_right two_pos he))

/-- The largest finite magnitude. -/
theorem bitsMag_maxFinite : bitsMag (infBits - 1) = 2 ^ 277 - 2 ^ 253 := by
  rw [show infBits - 1 = 2 ^ 23 * 253 + (2 ^ 24 - 1) from rfl, bitsMag_binade 253 _ (by decide) (by decide),
    Nat.sub_mul, ← pow_add, one_mul]

/-- From binade `k` on, every magnitude is a whole number of spacings of binade `k`. -/
theorem pow_dvd_bitsMag (k w : Nat) (h : 2 ^ 23 * (k + 1) ≤ w) : 2 ^ k ∣ bitsMag w := by
  obtain ⟨j, m, rfl, hm, hj⟩ := exists_binade w
  rw [bitsMag_binade j m hm.le hj]
  exact (pow_dvd_pow 2 (by omega)).mul_left m

/-- A significand of at most 24 bits, times a power of two, is a magnitude. -/
theorem exists_bitsMag_eq (k m : Nat) (hm : m ≤ 2 ^ 24) : ∃ w, bitsMag w = m * 2 ^ k := by
  induction k generalizing m with
  | zero => exact ⟨2 ^ 23 * 0 + m, bitsMag_binade 0 m hm (.inl rfl)⟩
  | succ k ih =>
    by_cases hbig : 2 ^ 23 ≤ m
    · exact ⟨_, bitsMag_binade (k + 1) m hm (.inr hbig)⟩
    · obtain ⟨w, hw⟩ := ih (2 * m) (by omega)
      exact ⟨w, by rw [hw, pow_succ]; ring⟩

/-! The fields of a word, read off its magnitude bits. -/

theorem magBits_lt (a : F32) : magBits a < 2 ^ 31 := Nat.mod_lt _ (by decide)

theorem expField_eq (a : F32) : expField a = magBits a / 2 ^ 23 := by
  unfold expField magBits
  omega

theorem fracField_eq (a : F32) : fracField a = magBits a % 2 ^ 23 := by
  unfold fracField magBits
  omega

theorem mag_eq_bitsMag (a : F32) : mag a = bitsMag (magBits a) := by
  unfold mag bitsMag
  rw [expField_eq, fracField_eq]
  split
  · next h => simp only [h, Nat.zero_sub, mul_zero, pow_zero, mul_one, Nat.sub_zero]; omega
  · congr 1; omega

theorem isFinite_iff (a : F32) : isFinite a = true ↔ magBits a < infBits := by
  have := magBits_lt a
  simp only [isFinite, expField_eq, bne_iff_ne, infBits]
  omega

theorem isInf_iff (a : F32) : isInf a = true ↔ magBits a = infBits := by
  have := magBits_lt a
  simp only [isInf, expField_eq, fracField_eq, Bool.and_eq_true, beq_iff_eq, infBits]
  omega

theorem isNaN_iff (a : F32) : isNaN a = true ↔ infBits < magBits a := by
  have := magBits_lt a
  simp only [isNaN, expField_eq, fracField_eq, Bool.and_eq_true, beq_iff_eq, bne_iff_ne, infBits]
  omega

theorem isZero_iff (a : F32) : isZero a = true ↔ magBits a = 0 := by
  have := magBits_lt a
  simp only [isZero, expField_eq, fracField_eq, Bool.and_eq_true, beq_iff_eq]
  omega

theorem isNaN_of_isFinite {a : F32} (h : isFinite a = true) : isNaN a = false := by
  rw [isFinite_iff] at h
  rw [Bool.eq_false_iff, ne_eq, isNaN_iff]
  omega

theorem isInf_of_isFinite {a : F32} (h : isFinite a = true) : isInf a = false := by
  rw [isFinite_iff] at h
  rw [Bool.eq_false_iff, ne_eq, isInf_iff]
  omega

theorem isNaN_of_isInf {a : F32} (h : isInf a = true) : isNaN a = false := by
  rw [isInf_iff] at h
  rw [Bool.eq_false_iff, ne_eq, isNaN_iff]
  omega

theorem isZero_of_isInf {a : F32} (h : isInf a = true) : isZero a = false := by
  rw [isInf_iff] at h
  rw [Bool.eq_false_iff, ne_eq, isZero_iff, h]
  decide

theorem isFinite_of_isZero {a : F32} (h : isZero a = true) : isFinite a = true := by
  rw [isZero_iff] at h
  rw [isFinite_iff, h]
  decide

theorem magBits_pack (neg : Bool) (m : Nat) (h : m < 2 ^ 31) : magBits (pack neg m) = m := by
  unfold magBits
  rw [pack_toNat neg m h]
  split <;> omega

/-- A word is its sign over its magnitude bits. -/
theorem pack_signBit_magBits (a : F32) : pack (signBit a) (magBits a) = a := by
  apply BitVec.eq_of_toNat_eq
  have hlt := a.isLt
  rw [pack_toNat _ _ (magBits_lt a), signBit, ← BitVec.msb_eq_getLsbD_last, BitVec.msb_eq_decide]
  simp only [decide_eq_true_eq, magBits]
  split <;> omega

/-- The signed value of a packed magnitude. -/
theorem units_pack (neg : Bool) (m : Nat) (h : m < 2 ^ 31) :
    units (pack neg m) = if neg then -(bitsMag m : Int) else (bitsMag m : Int) := by
  unfold units
  rw [signBit_pack neg m h, mag_eq_bitsMag, magBits_pack neg m h]

/-- The zeros are the words of magnitude zero. -/
theorem mag_eq_zero_iff (a : F32) : mag a = 0 ↔ isZero a = true := by
  rw [isZero_iff, mag_eq_bitsMag]
  exact bitsMag_inj (w := 0)

theorem mag_lt_two_pow {a : F32} {e : Nat} (h : isFinite a = true) (he : 277 ≤ e) : mag a < 2 ^ e :=
  (mag_eq_bitsMag a).trans_lt (bitsMag_lt_two_pow ((isFinite_iff a).mp h) he)

/-! Flipping the sign. -/

theorem signBit_fneg (a : F32) : signBit (fneg a) = !signBit a := by
  unfold signBit fneg
  rw [BitVec.getLsbD_xor, show (0x80000000#32).getLsbD 31 = true by decide, Bool.xor_true]

theorem magBits_fneg (a : F32) : magBits (fneg a) = magBits a := by
  unfold magBits fneg
  rw [BitVec.toNat_xor, Nat.xor_mod_two_pow]
  simp

theorem isNaN_fneg (a : F32) : isNaN (fneg a) = isNaN a := by
  rw [Bool.eq_iff_iff, isNaN_iff, isNaN_iff, magBits_fneg]

theorem isInf_fneg (a : F32) : isInf (fneg a) = isInf a := by
  rw [Bool.eq_iff_iff, isInf_iff, isInf_iff, magBits_fneg]

theorem isFinite_fneg (a : F32) : isFinite (fneg a) = isFinite a := by
  rw [Bool.eq_iff_iff, isFinite_iff, isFinite_iff, magBits_fneg]

theorem fneg_eq_pack (a : F32) : fneg a = pack (!signBit a) (magBits a) := by
  rw [← signBit_fneg, ← magBits_fneg, pack_signBit_magBits]

theorem units_fneg (a : F32) : units (fneg a) = -units a := by
  unfold units
  rw [signBit_fneg, mag_eq_bitsMag, mag_eq_bitsMag, magBits_fneg]
  cases signBit a <;> simp

/-! Rounding. -/

/-- Magnitude bits `w` are the nearest to `n / d` units: their value lies on this side of every midpoint with another
value, and where `n / d` is such a midpoint, `w` is even. -/
structure NearestBits (n d w : Nat) : Prop where
  below : ∀ y < w, (bitsMag y + bitsMag w) * d ≤ 2 * n ∧ ((bitsMag y + bitsMag w) * d = 2 * n → w % 2 = 0)
  above : ∀ y, w < y → 2 * n ≤ (bitsMag w + bitsMag y) * d ∧ ((bitsMag w + bitsMag y) * d = 2 * n → w % 2 = 0)

/-- The two neighbours decide: the lower value of the pair around `n / d` is nearest when it is not farther than the
upper one. -/
theorem NearestBits.of_floor {n d w : Nat} (hd : 0 < d) (hfloor : bitsMag w * d ≤ n)
    (hmid : 2 * n ≤ (bitsMag w + bitsMag (w + 1)) * d) (htie : (bitsMag w + bitsMag (w + 1)) * d = 2 * n → w % 2 = 0) :
    NearestBits n d w where
  below y hy := by
    have hlt : bitsMag y * d < bitsMag w * d := Nat.mul_lt_mul_of_pos_right (bitsMag_lt_iff.mpr hy) hd
    rw [Nat.add_mul]
    omega
  above y hy := by
    have hle : bitsMag (w + 1) * d ≤ bitsMag y * d := Nat.mul_le_mul_right d (bitsMag_le_iff.mpr hy)
    rw [Nat.add_mul] at *
    exact ⟨by omega, fun he => htie (by omega)⟩

/-- The upper value of the pair around `n / d` is nearest when it is not farther than the lower one. -/
theorem NearestBits.of_ceil {n d w : Nat} (hd : 0 < d) (hceil : n < bitsMag (w + 1) * d)
    (hmid : (bitsMag w + bitsMag (w + 1)) * d ≤ 2 * n)
    (htie : (bitsMag w + bitsMag (w + 1)) * d = 2 * n → (w + 1) % 2 = 0) : NearestBits n d (w + 1) where
  below y hy := by
    have hle : bitsMag y * d ≤ bitsMag w * d := Nat.mul_le_mul_right d (bitsMag_le_iff.mpr (by omega))
    rw [Nat.add_mul] at *
    exact ⟨by omega, fun he => htie (by omega)⟩
  above y hy := by
    have hlt : bitsMag (w + 1) * d < bitsMag y * d := Nat.mul_lt_mul_of_pos_right (bitsMag_lt_iff.mpr hy) hd
    rw [Nat.add_mul]
    omega

/-- The binade and the significand that `roundUnits` computes are those of `n / d` rounded down. -/
theorem roundUnits_binade (n d : Nat) :
    n / (d * 2 ^ (Nat.log2 (n / d) - 23)) < 2 ^ 24 ∧
      (Nat.log2 (n / d) - 23 = 0 ∨ 2 ^ 23 ≤ n / (d * 2 ^ (Nat.log2 (n / d) - 23))) := by
  rw [← Nat.div_div_eq_div_mul]
  generalize hk : Nat.log2 (n / d) - 23 = k
  have hlt : n / d < 2 ^ ((n / d).log2 + 1) := Nat.lt_log2_self
  constructor
  · rw [Nat.div_lt_iff_lt_mul (by positivity), ← pow_add]
    exact hlt.trans_le (Nat.pow_le_pow_right (by decide) (by omega))
  · refine (Nat.eq_zero_or_pos k).imp_right fun hpos => ?_
    have hne : n / d ≠ 0 := fun h0 => by rw [h0, Nat.log2_zero] at hk; omega
    rw [Nat.le_div_iff_mul_le (by positivity), ← pow_add]
    exact (Nat.pow_le_pow_right (by decide) (by omega)).trans (Nat.log2_self_le hne)

/-- `roundUnits` answers the nearest magnitude bits, an overflow giving infinity. -/
theorem exists_nearestBits (n d : Nat) (hd : 0 < d) : ∃ w, NearestBits n d w ∧ roundUnits n d = min w infBits := by
  obtain ⟨hm, hk⟩ := roundUnits_binade n d
  unfold roundUnits
  dsimp only
  generalize Nat.log2 (n / d) - 23 = k at *
  have hsplit := Nat.div_add_mod n (d * 2 ^ k)
  have hrem : n % (d * 2 ^ k) < d * 2 ^ k := Nat.mod_lt n (by positivity)
  generalize n / (d * 2 ^ k) = m at *
  generalize n % (d * 2 ^ k) = r at *
  have hlow : bitsMag (2 ^ 23 * k + m) * d = d * 2 ^ k * m := by rw [bitsMag_binade k m hm.le hk]; ring
  have hhigh : bitsMag (2 ^ 23 * k + m + 1) * d = d * 2 ^ k * m + d * 2 ^ k := by rw [bitsMag_succ k m hm hk]; ring
  generalize d * 2 ^ k = u at *
  refine ⟨_, ?_, rfl⟩
  split
  · rw [← Nat.add_assoc]
    exact .of_ceil hd (by omega) (by rw [Nat.add_mul]; omega) (by rw [Nat.add_mul]; omega)
  · exact .of_floor hd (by omega) (by rw [Nat.add_mul]; omega) (by rw [Nat.add_mul]; omega)

namespace NearestBits

variable {n d w : Nat}

/-- Rounding overflows from the midpoint of the largest finite magnitude and 2^277 units on. -/
theorem overflow_iff (h : NearestBits n d w) (hd : 0 < d) : infBits ≤ w ↔ (2 ^ 278 - 2 ^ 253) * d ≤ 2 * n := by
  have hmid : bitsMag (infBits - 1) + bitsMag infBits = 2 ^ 278 - 2 ^ 253 := by
    rw [bitsMag_maxFinite, bitsMag_infBits, pow_add 2 24 253, pow_add 2 25 253]
    generalize 2 ^ 253 = x
    omega
  rw [← hmid]
  constructor
  · intro hw
    refine le_trans (Nat.mul_le_mul_right d ?_) (h.below (infBits - 1) (by simp only [infBits] at *; omega)).1
    exact Nat.add_le_add_left (bitsMag_le_iff.mpr hw) _
  · intro hn
    by_contra hw
    obtain ⟨hle, htie⟩ := h.above infBits (by omega)
    have hmax : bitsMag w ≤ bitsMag (infBits - 1) := bitsMag_le_iff.mpr (by omega)
    have heq : (bitsMag w + bitsMag infBits) * d = (bitsMag (infBits - 1) + bitsMag infBits) * d :=
      le_antisymm (Nat.mul_le_mul_right d (by omega)) (hn.trans hle)
    have hwmax : w = infBits - 1 := bitsMag_inj.mp (by have := Nat.eq_of_mul_eq_mul_right hd heq; omega)
    have heven := htie (by omega)
    rw [hwmax] at heven
    exact absurd heven (by decide)

/-- A value that is a magnitude rounds to itself. -/
theorem eq_of_exact (h : NearestBits n d w) (hd : 0 < d) {v : Nat} (hv : bitsMag v * d = n) : w = v := by
  rcases lt_trichotomy w v with hlt | heq | hgt
  · have hle := (h.above v hlt).1
    have := Nat.mul_lt_mul_of_pos_right (bitsMag_lt_iff.mpr hlt) hd
    rw [Nat.add_mul] at hle
    omega
  · exact heq
  · have hle := (h.below v hgt).1
    have := Nat.mul_lt_mul_of_pos_right (bitsMag_lt_iff.mpr hgt) hd
    rw [Nat.add_mul] at hle
    omega

end NearestBits

/-- `roundUnits` is exact on a finite magnitude. -/
theorem roundUnits_of_exact (n d v : Nat) (hd : 0 < d) (hv : bitsMag v * d = n) (hfin : v < infBits) :
    roundUnits n d = v := by
  obtain ⟨w, hw, hround⟩ := exists_nearestBits n d hd
  rw [hround, hw.eq_of_exact hd hv, min_eq_left hfin.le]

end Sys2Proof.Machine

/-! Rounding as the statements put it (`RoundsTo`), and the operations of 00_scope.md rule R10. -/

namespace Sys2Proof.Machine

open Claims

namespace NearestBits

variable {n d w : Nat}

/-- No magnitude lies closer than the nearest one, and if another lies as close, the nearest is even. -/
theorem gap_same_sign (h : NearestBits n d w) (hd : 0 < d) (v : Nat) :
    ((bitsMag w * d : Nat) - (n : Int)).natAbs ≤ ((bitsMag v * d : Nat) - (n : Int)).natAbs ∧
      (((bitsMag w * d : Nat) - (n : Int)).natAbs = ((bitsMag v * d : Nat) - (n : Int)).natAbs → v ≠ w → w % 2 = 0) := by
  rcases lt_trichotomy v w with hlt | rfl | hgt
  · have hmul := Nat.mul_lt_mul_of_pos_right (bitsMag_lt_iff.mpr hlt) hd
    obtain ⟨hmid, htie⟩ := h.below v hlt
    rw [Nat.add_mul] at hmid htie
    exact ⟨by omega, fun _ _ => htie (by omega)⟩
  · exact ⟨le_rfl, fun _ hne => absurd rfl hne⟩
  · have hmul := Nat.mul_lt_mul_of_pos_right (bitsMag_lt_iff.mpr hgt) hd
    obtain ⟨hmid, htie⟩ := h.above v hgt
    rw [Nat.add_mul] at hmid htie
    exact ⟨by omega, fun _ _ => htie (by omega)⟩

/-- A magnitude of the other sign lies no closer than zero does. -/
theorem gap_other_sign (h : NearestBits n d w) (hd : 0 < d) (v : Nat) :
    ((bitsMag w * d : Nat) - (n : Int)).natAbs ≤ bitsMag v * d + n ∧
      (((bitsMag w * d : Nat) - (n : Int)).natAbs = bitsMag v * d + n → (v ≠ 0 ∨ w ≠ 0) → w % 2 = 0) := by
  obtain ⟨hle, htie⟩ := h.gap_same_sign hd 0
  rw [bitsMag_zero, Nat.zero_mul] at hle htie
  refine ⟨by omega, fun heq hne => htie (by omega) ?_⟩
  rintro rfl
  have hv : 0 < bitsMag v * d :=
    Nat.mul_pos ((bitsMag_lt_iff (v := 0)).mpr (by omega)) hd
  omega

end NearestBits

/-- The distance of a word from `±n / d` units, by whether the signs agree. -/
theorem gap_eq (neg : Bool) (n d : Nat) (y : F32) :
    gap (if neg then -(n : Int) else (n : Int)) d y =
      if signBit y = neg then ((bitsMag (magBits y) * d : Nat) - (n : Int)).natAbs else bitsMag (magBits y) * d + n := by
  unfold gap units
  rw [mag_eq_bitsMag]
  cases neg <;> cases signBit y <;>
    simp only [if_true, if_false, Bool.false_eq_true, Bool.true_eq_false, Int.neg_mul, ← Nat.cast_mul] <;> omega

/-- A packed rounded magnitude is the correctly rounded result. -/
theorem roundsTo_pack (neg : Bool) (n d : Nat) (hd : 0 < d) :
    RoundsTo (if neg then -(n : Int) else (n : Int)) d (pack neg (roundUnits n d)) := by
  obtain ⟨w, hw, hround⟩ := exists_nearestBits n d hd
  have hlt : roundUnits n d < 2 ^ 31 := (roundUnits_le_infBits n d).trans_lt infBits_lt
  have habs : (if neg then -(n : Int) else (n : Int)).natAbs = n := by cases neg <;> simp
  refine ⟨(pack_roundUnits neg n d).2, ?_, fun hfin y _ => ?_⟩
  · rw [isInf_iff, magBits_pack _ _ hlt, habs, hround, ← hw.overflow_iff hd]
    omega
  · have hr : roundUnits n d = w := by
      rw [isFinite_iff, magBits_pack _ _ hlt] at hfin
      omega
    rw [hr] at hlt ⊢
    rw [gap_eq, gap_eq, signBit_pack _ _ hlt, if_pos rfl, fracField_eq, magBits_pack _ _ hlt, units_pack _ _ hlt]
    have heven : w % 2 ^ 23 % 2 = w % 2 := by omega
    rw [heven]
    by_cases hs : signBit y = neg
    · obtain ⟨hle, htie⟩ := hw.gap_same_sign hd (magBits y)
      rw [if_pos hs]
      refine ⟨hle, fun heq hne => htie heq fun hv => hne ?_⟩
      rw [units, mag_eq_bitsMag, hs, hv]
    · obtain ⟨hle, htie⟩ := hw.gap_other_sign hd (magBits y)
      rw [if_neg hs]
      refine ⟨hle, fun heq hne => htie heq ?_⟩
      by_contra hzero
      push Not at hzero
      refine hne ?_
      rw [units, mag_eq_bitsMag, hzero.1, hzero.2]
      simp

/-- A nonzero integer is its sign over its magnitude. -/
theorem signed_natAbs (z : Int) : (if decide (z < 0) then -(z.natAbs : Int) else (z.natAbs : Int)) = z := by
  simp only [decide_eq_true_eq]
  split <;> omega

/-- The zero of a sign, as a packed word. -/
theorem pack_zero (neg : Bool) : pack neg 0 = if neg then 0x80000000#32 else 0x00000000#32 := by
  cases neg <;> rfl

/-! What each operation answers on finite operands. -/

theorem fadd_finite (a b : F32) (ha : isFinite a = true) (hb : isFinite b = true) :
    fadd a b = if units a + units b = 0 then pack (signBit a && signBit b) 0
      else pack (decide (units a + units b < 0)) (roundUnits (units a + units b).natAbs 1) := by
  simp [fadd, isNaN_of_isFinite ha, isNaN_of_isFinite hb, isInf_of_isFinite ha, isInf_of_isFinite hb]

theorem fmul_finite (a b : F32) (ha : isFinite a = true) (hb : isFinite b = true) :
    fmul a b = pack (signBit a != signBit b) (roundUnits (mag a * mag b) (2 ^ 149)) := by
  simp [fmul, isNaN_of_isFinite ha, isNaN_of_isFinite hb, isInf_of_isFinite ha, isInf_of_isFinite hb]

theorem fdiv_finite (a b : F32) (ha : isFinite a = true) (hb : isFinite b = true) (hz : isZero b = false) :
    fdiv a b = pack (signBit a != signBit b) (roundUnits (2 ^ 149 * mag a) (mag b)) := by
  simp [fdiv, isNaN_of_isFinite ha, isNaN_of_isFinite hb, isInf_of_isFinite ha, isInf_of_isFinite hb, hz]

theorem roundUnits_zero (d : Nat) (hd : 0 < d) : roundUnits 0 d = 0 :=
  roundUnits_of_exact 0 d 0 hd (by simp) (by decide)

/-- The product of two values, by its sign and its magnitude. -/
theorem units_mul (a b : F32) :
    units a * units b = if signBit a != signBit b then -((mag a * mag b : Nat) : Int) else ((mag a * mag b : Nat) : Int) := by
  unfold units
  cases signBit a <;> cases signBit b <;> simp

/-- `fadd` of finite operands: rounding, sign, and the exact zero. -/
theorem fadd_finite_rounds (a b : F32) (ha : isFinite a = true) (hb : isFinite b = true) :
    RoundsTo (units a + units b) 1 (fadd a b) ∧
      (units a + units b ≠ 0 → (signBit (fadd a b) = true ↔ units a + units b < 0)) ∧
      (units a + units b = 0 → fadd a b = if signBit a && signBit b then 0x80000000#32 else 0x00000000#32) := by
  rw [fadd_finite a b ha hb]
  generalize units a + units b = z
  by_cases hz : z = 0
  · rw [if_pos hz, pack_zero]
    refine ⟨?_, fun h => absurd hz h, fun _ => rfl⟩
    have hround := roundsTo_pack (signBit a && signBit b) 0 1 one_pos
    rw [roundUnits_zero 1 one_pos, pack_zero] at hround
    simpa [hz] using hround
  · rw [if_neg hz, (pack_roundUnits _ _ _).1, decide_eq_true_eq]
    refine ⟨?_, fun _ => Iff.rfl, fun h => absurd h hz⟩
    have hround := roundsTo_pack (decide (z < 0)) z.natAbs 1 one_pos
    rwa [signed_natAbs] at hround

end Sys2Proof.Machine

namespace Sys2Proof.Scope

open Machine Claims

/-- Settles O48: the exact sum is rounded once, and an infinity comes back as it is. -/
theorem faddCorrectlyRounded : Obligations.FaddCorrectlyRounded := by
  unfold Obligations.FaddCorrectlyRounded
  intro a b ha
  refine ⟨fadd_finite_rounds a b ha, fun hb => ?_⟩
  simp [fadd, isNaN_of_isFinite ha, isInf_of_isFinite ha, isNaN_of_isInf hb, hb]

/-- Settles O57: `fsub` adds the second operand with its sign flipped. -/
theorem fsubCorrectlyRounded : Obligations.FsubCorrectlyRounded := by
  unfold Obligations.FsubCorrectlyRounded
  intro a b ha hb
  have h := fadd_finite_rounds a (fneg b) ha ((isFinite_fneg b).trans hb)
  rwa [units_fneg, signBit_fneg] at h

/-- Settles O49: the exact product is rounded once under the exclusive or of the signs. -/
theorem fmulCorrectlyRounded : Obligations.FmulCorrectlyRounded := by
  unfold Obligations.FmulCorrectlyRounded
  intro a b ha hb
  rw [fmul_finite a b ha hb, units_mul]
  exact ⟨roundsTo_pack _ _ _ (by positivity), (pack_roundUnits _ _ _).1⟩

/-- Settles O50: the exact quotient is rounded once under the exclusive or of the signs. -/
theorem fdivCorrectlyRounded : Obligations.FdivCorrectlyRounded := by
  unfold Obligations.FdivCorrectlyRounded
  intro a b ha hb hz
  have hpos : 0 < mag b := Nat.pos_of_ne_zero fun h0 => by simp [(mag_eq_zero_iff b).mp h0] at hz
  rw [fdiv_finite a b ha hb hz, Nat.mul_comm (mag a)]
  exact ⟨roundsTo_pack _ _ _ hpos, (pack_roundUnits _ _ _).1⟩

end Sys2Proof.Scope

/-! Conversions, comparisons, NaN results and special operands (00_scope.md rules R10 to R13). -/

namespace Sys2Proof.Machine

open Claims

/-! Integers. -/

/-- A magnitude of at most 24 significant bits below the overflow bound is rounded to itself. -/
theorem bitsMag_roundUnits_of_short (k m d : Nat) (hd : 0 < d) (hm : m ≤ 2 ^ 24) (hk : m * 2 ^ k < 2 ^ 277) :
    roundUnits (m * 2 ^ k * d) d < infBits ∧ bitsMag (roundUnits (m * 2 ^ k * d) d) = m * 2 ^ k := by
  obtain ⟨v, hv⟩ := exists_bitsMag_eq k m hm
  have hfin : v < infBits := by rwa [← bitsMag_lt_iff, bitsMag_infBits, hv]
  rw [← hv, roundUnits_of_exact _ d v hd rfl hfin]
  exact ⟨hfin, rfl⟩

/-- An integer of at most 24 bits is below the overflow bound. -/
theorem int24_lt_overflow (m : Nat) (hm : m ≤ 2 ^ 24) : m * 2 ^ 149 < 2 ^ 277 := by
  rw [show 277 = 128 + 149 from rfl, pow_add]
  exact Nat.mul_lt_mul_of_pos_right (by omega) (by positivity)

theorem units_of_signBit {a : F32} {neg : Bool} (h : signBit a = neg) :
    units a = if neg then -(mag a : Int) else (mag a : Int) := by
  rw [← h]
  rfl

/-- The truncated value of a word, by its sign. -/
theorem units_tdiv (a : F32) (d : Nat) :
    (units a).tdiv d = if signBit a then -((mag a / d : Nat) : Int) else ((mag a / d : Nat) : Int) := by
  unfold units
  split
  · rw [Int.neg_tdiv, Int.ofNat_tdiv]
  · rw [Int.ofNat_tdiv]

/-! Comparisons. -/

/-- The magnitude of a number on the line with the infinities (`Claims.extended`), from its magnitude bits. -/
def extendedMag (w : Nat) : Nat := if w = infBits then 2 ^ 300 else bitsMag w

theorem extended_eq (a : F32) :
    extended a = if signBit a then -(extendedMag (magBits a) : Int) else (extendedMag (magBits a) : Int) := by
  unfold extended extendedMag units
  simp only [isInf_iff, mag_eq_bitsMag]
  split <;> split <;> simp

theorem extendedMag_zero : extendedMag 0 = 0 := rfl

/-- Up to infinity, the order of the magnitude bits is that of the magnitudes. -/
theorem extendedMag_lt_iff {v w : Nat} (hv : v ≤ infBits) (hw : w ≤ infBits) :
    extendedMag v < extendedMag w ↔ v < w := by
  have hbig : ∀ x < infBits, bitsMag x < 2 ^ 300 := fun x hx => bitsMag_lt_two_pow hx (by decide)
  unfold extendedMag
  by_cases hvi : v = infBits <;> by_cases hwi : w = infBits
  · simp [hvi, hwi]
  · rw [if_pos hvi, if_neg hwi]
    have := hbig w (by omega)
    omega
  · rw [if_neg hvi, if_pos hwi]
    have := hbig v (by omega)
    omega
  · rw [if_neg hvi, if_neg hwi, bitsMag_lt_iff]

/-- The order key orders the numbers as their values do. -/
theorem orderKey_lt_iff {a b : F32} (ha : isNaN a = false) (hb : isNaN b = false) :
    orderKey a < orderKey b ↔ extended a < extended b := by
  rw [Bool.eq_false_iff, ne_eq, isNaN_iff, not_lt] at ha hb
  have hab := extendedMag_lt_iff ha hb
  have hba := extendedMag_lt_iff hb ha
  have ha0 := extendedMag_lt_iff (Nat.zero_le _) ha
  have hb0 := extendedMag_lt_iff (Nat.zero_le _) hb
  rw [extendedMag_zero] at ha0 hb0
  rw [extended_eq, extended_eq]
  change (if signBit a then -(magBits a : Int) else (magBits a : Int))
    < (if signBit b then -(magBits b : Int) else (magBits b : Int)) ↔ _
  cases signBit a <;> cases signBit b <;> simp only [if_true, if_false, Bool.false_eq_true] <;> omega

theorem orderKey_le_iff {a b : F32} (ha : isNaN a = false) (hb : isNaN b = false) :
    orderKey a ≤ orderKey b ↔ extended a ≤ extended b := by
  rw [← not_lt, ← not_lt, orderKey_lt_iff hb ha]

/-! NaN results. -/

/-- A result that, when it is a NaN, is the quiet one (00_scope.md rule R12). -/
def QuietNaN (r : F32) : Prop := isNaN r = true → r = qNaN

theorem quietNaN_qNaN : QuietNaN qNaN := fun _ => rfl

theorem quietNaN_of_number {r : F32} (h : isNaN r = false) : QuietNaN r := fun h' => absurd h' (by simp [h])

theorem quietNaN_pack (neg : Bool) (n d : Nat) : QuietNaN (pack neg (roundUnits n d)) :=
  quietNaN_of_number (pack_roundUnits neg n d).2

theorem quietNaN_inf (neg : Bool) : QuietNaN (inf neg) := quietNaN_of_number (isNaN_pack neg _ le_rfl)

theorem quietNaN_packZero (neg : Bool) : QuietNaN (pack neg 0) := quietNaN_of_number (isNaN_pack neg 0 (Nat.zero_le _))

theorem quietNaN_ite {p : Prop} [Decidable p] {r t : F32} (hr : p → QuietNaN r) (ht : ¬ p → QuietNaN t) :
    QuietNaN (if p then r else t) := by
  by_cases h : p
  · rw [if_pos h]; exact hr h
  · rw [if_neg h]; exact ht h

theorem quietNaN_quiet (r : F32) : QuietNaN (quiet r) := quiet_nan r

theorem quietNaN_fadd (a b : F32) : QuietNaN (fadd a b) := by
  unfold fadd
  refine quietNaN_ite (fun _ => quietNaN_qNaN) fun _ => quietNaN_ite (fun ha => ?_) fun _ =>
    quietNaN_ite (fun hb => ?_) fun _ => quietNaN_ite (fun _ => ?_) fun _ => quietNaN_pack _ _ _
  · exact quietNaN_ite (fun _ => quietNaN_qNaN) fun _ => quietNaN_of_number (isNaN_of_isInf ha)
  · exact quietNaN_of_number (isNaN_of_isInf hb)
  · exact quietNaN_packZero _

theorem quietNaN_fmul (a b : F32) : QuietNaN (fmul a b) := by
  unfold fmul
  exact quietNaN_ite (fun _ => quietNaN_qNaN) fun _ => quietNaN_ite
    (fun _ => quietNaN_ite (fun _ => quietNaN_qNaN) fun _ => quietNaN_inf _) fun _ => quietNaN_pack _ _ _

theorem quietNaN_fdiv (a b : F32) : QuietNaN (fdiv a b) := by
  unfold fdiv
  exact quietNaN_ite (fun _ => quietNaN_qNaN) fun _ => quietNaN_ite
    (fun _ => quietNaN_ite (fun _ => quietNaN_qNaN) fun _ => quietNaN_inf _) fun _ => quietNaN_ite
    (fun _ => quietNaN_packZero _) fun _ => quietNaN_ite
    (fun _ => quietNaN_ite (fun _ => quietNaN_qNaN) fun _ => quietNaN_inf _) fun _ => quietNaN_pack _ _ _

theorem quietNaN_fsqrt (a : F32) : QuietNaN (fsqrt a) := by
  unfold fsqrt
  refine quietNaN_ite (fun _ => quietNaN_qNaN) fun hnum => quietNaN_ite (fun _ => ?_) fun _ =>
    quietNaN_ite (fun _ => quietNaN_qNaN) fun _ => quietNaN_ite (fun _ => ?_) fun _ => quietNaN_pack _ _ _
  all_goals exact quietNaN_of_number (by simpa using hnum)

theorem quietNaN_log10Rounded (a : F32) : QuietNaN (log10Rounded a) := by
  unfold log10Rounded
  exact quietNaN_ite (fun _ => quietNaN_qNaN) fun _ => quietNaN_ite (fun _ => quietNaN_quiet _) fun _ =>
    quietNaN_ite (fun hinf => quietNaN_of_number (isNaN_of_isInf hinf)) fun _ =>
    quietNaN_ite (fun _ => quietNaN_pack _ _ _) fun _ => quietNaN_pack _ _ _

theorem quietNaN_flog10 (lg : Log10Choice) (a : F32) : QuietNaN (flog10 lg a) := by
  cases lg with
  | correctlyRounded => exact quietNaN_log10Rounded a
  | implementation => exact quietNaN_ite (fun _ => quietNaN_qNaN) fun _ => quietNaN_quiet _

/-- Clearing the sign keeps the magnitude bits. -/
theorem magBits_clearSign (a : F32) : magBits (a &&& 0x7FFFFFFF#32) = magBits a := by
  unfold magBits
  rw [BitVec.toNat_and, show (0x7FFFFFFF#32).toNat = 2 ^ 31 - 1 from rfl, Nat.and_two_pow_sub_one_eq_mod, Nat.mod_mod]

theorem quietNaN_fabs (a : F32) : QuietNaN (fabs a) := by
  unfold fabs
  refine quietNaN_ite (fun _ => quietNaN_qNaN) fun hnum => quietNaN_of_number ?_
  rw [isNaN_iff, ← magBits_clearSign, ← isNaN_iff] at hnum
  simpa using hnum

theorem quietNaN_fpOther (op : FpOp) (a b : F32) : QuietNaN (fpOther op a b) := fpOther_nan_result op a b

theorem fneg_nan {a : F32} (h : isNaN a = true) : isNaN (fneg a) = true := (isNaN_fneg a).trans h

/-- A NaN operand of the rounded operations gives the quiet NaN, under every `FP`. -/
theorem fpOps_nan_operand (fp : FpFormat) (a b : F32) (h : isNaN a = true ∨ isNaN b = true) :
    fpAdd fp a b = qNaN ∧ fpSub fp a b = qNaN ∧ fpMul fp a b = qNaN ∧ fpDiv fp a b = qNaN := by
  rcases h with h | h <;> cases fp
  · exact ⟨fadd_nan_left a b h, fadd_nan_left a _ h, fmul_nan_left a b h, fdiv_nan_left a b h⟩
  · exact ⟨fpOther_nan_left _ a b h, fpOther_nan_left _ a b h, fpOther_nan_left _ a b h, fpOther_nan_left _ a b h⟩
  · exact ⟨fadd_nan_right a b h, fadd_nan_right a _ (fneg_nan h), fmul_nan_right a b h, fdiv_nan_right a b h⟩
  · exact ⟨fpOther_nan_right _ a b h, fpOther_nan_right _ a b h, fpOther_nan_right _ a b h, fpOther_nan_right _ a b h⟩

/-- A NaN operand of the operations of one operand gives the quiet NaN, under every `FP` and `LOG10`. -/
theorem unaryOps_nan_operand (fp : FpFormat) (lg : Log10Choice) (a : F32) (h : isNaN a = true) :
    fpSqrt fp a = qNaN ∧ flog10 lg a = qNaN ∧ fabs a = qNaN := by
  refine ⟨?_, ?_, if_pos h⟩
  · cases fp with
    | binary32 => exact if_pos h
    | implementation => exact fpOther_nan_left _ _ _ h
  · cases lg with
    | correctlyRounded => exact if_pos h
    | implementation => exact if_pos h

/-! Infinities. -/

theorem inf_eq_infinityOf (neg : Bool) : inf neg = infinityOf neg := by cases neg <;> rfl

theorem pack_zero_eq_zeroOf (neg : Bool) : pack neg 0 = zeroOf neg := by cases neg <;> rfl

theorem fneg_inf {a : F32} (h : isInf a = true) : fneg a = infinityOf (!signBit a) := by
  rw [fneg_eq_pack, (isInf_iff a).mp h, ← inf_eq_infinityOf]
  rfl

theorem fadd_inf_inf {a b : F32} (ha : isInf a = true) (hb : isInf b = true) :
    fadd a b = if signBit a = signBit b then a else qNaN := by
  simp only [fadd, isNaN_of_isInf ha, isNaN_of_isInf hb, ha, hb]
  cases signBit a <;> cases signBit b <;> rfl

theorem fadd_inf_finite {a b : F32} (ha : isInf a = true) (hb : isFinite b = true) : fadd a b = a := by
  simp [fadd, isNaN_of_isInf ha, isNaN_of_isFinite hb, ha, isInf_of_isFinite hb]

theorem fadd_finite_inf {a b : F32} (ha : isFinite a = true) (hb : isInf b = true) : fadd a b = b := by
  simp [fadd, isNaN_of_isFinite ha, isNaN_of_isInf hb, isInf_of_isFinite ha, hb]

theorem fmul_inf_number {a b : F32} (ha : isInf a = true) (hb : isNaN b = false) :
    fmul a b = if isZero b then qNaN else infinityOf (signBit a != signBit b) := by
  simp [fmul, isNaN_of_isInf ha, hb, ha, isZero_of_isInf ha, inf_eq_infinityOf]

theorem fmul_number_inf {a b : F32} (ha : isNaN a = false) (hb : isInf b = true) :
    fmul a b = if isZero a then qNaN else infinityOf (signBit a != signBit b) := by
  simp [fmul, isNaN_of_isInf hb, ha, hb, isZero_of_isInf hb, inf_eq_infinityOf]

theorem fdiv_inf_inf {a b : F32} (ha : isInf a = true) (hb : isInf b = true) : fdiv a b = qNaN := by
  simp [fdiv, isNaN_of_isInf ha, isNaN_of_isInf hb, ha, hb]

theorem fdiv_inf_finite {a b : F32} (ha : isInf a = true) (hb : isFinite b = true) :
    fdiv a b = infinityOf (signBit a != signBit b) := by
  simp [fdiv, isNaN_of_isInf ha, isNaN_of_isFinite hb, ha, isInf_of_isFinite hb, inf_eq_infinityOf]

theorem fdiv_finite_inf {a b : F32} (ha : isFinite a = true) (hb : isInf b = true) :
    fdiv a b = zeroOf (signBit a != signBit b) := by
  simp [fdiv, isNaN_of_isFinite ha, isNaN_of_isInf hb, isInf_of_isFinite ha, hb, pack_zero_eq_zeroOf]

theorem fdiv_finite_zero {a b : F32} (ha : isFinite a = true) (hb : isZero b = true) :
    fdiv a b = if isZero a then qNaN else infinityOf (signBit a != signBit b) := by
  have hbf := isFinite_of_isZero hb
  simp [fdiv, isNaN_of_isFinite ha, isNaN_of_isFinite hbf, isInf_of_isFinite ha, isInf_of_isFinite hbf, hb,
    inf_eq_infinityOf]

theorem fsqrt_zero {a : F32} (h : isZero a = true) : fsqrt a = a := by
  simp [fsqrt, isNaN_of_isFinite (isFinite_of_isZero h), h]

theorem fsqrt_negative {a : F32} (hz : isZero a = false) (hs : signBit a = true) : fsqrt a = qNaN := by
  simp [fsqrt, hz, hs]

end Sys2Proof.Machine

namespace Sys2Proof.Scope

open Machine Claims

/-- Settles O53: by the cases of `f2i`, the finite one by the sign. -/
theorem f2iTruncatesAndClamps : Obligations.F2iTruncatesAndClamps := by
  unfold Obligations.F2iTruncatesAndClamps
  intro v
  refine ⟨f2i_nan v, fun hf => ?_, by decide +kernel, by decide +kernel⟩
  have htdiv := units_tdiv v (2 ^ 149)
  rw [show ((2 ^ 149 : Nat) : Int) = 2 ^ 149 by norm_num] at htdiv
  simp only [htdiv, f2i, isNaN_of_isFinite hf, Bool.false_eq_true, if_false]
  split <;> omega

/-- Settles O54: an integer of 24 bits is a magnitude, so rounding leaves it. -/
theorem i2fExact : Obligations.I2fExact := by
  unfold Obligations.I2fExact
  intro n hn
  obtain ⟨hfin, hmag⟩ := bitsMag_roundUnits_of_short 149 n.natAbs 1 one_pos hn (int24_lt_overflow _ hn)
  have hlt : roundUnits (n.natAbs * 2 ^ 149 * 1) 1 < 2 ^ 31 := hfin.trans infBits_lt
  rw [Nat.mul_one] at hfin hmag hlt
  unfold i2f
  rw [Nat.mul_comm, isFinite_iff, magBits_pack _ _ hlt, units_pack _ _ hlt, hmag]
  refine ⟨hfin, ?_⟩
  rw [Nat.cast_mul, ← Int.neg_mul, ← ite_mul, signed_natAbs]
  norm_num

/-- Settles O55: the order key orders the numbers as their values do. -/
theorem comparisonsFollowTheNumbers : Obligations.ComparisonsFollowTheNumbers := by
  unfold Obligations.ComparisonsFollowTheNumbers
  intro a b
  refine ⟨fun ha hb => ?_, fun hnan => ?_⟩
  · simp [flt, fgt, fle, ha, hb, orderKey_lt_iff ha hb, orderKey_lt_iff hb ha, orderKey_le_iff ha hb]
  · rcases hnan with h | h <;> simp [flt, fgt, fle, h]

/-- Settles O56: each operation ends in the quiet NaN, in a packed number or in an operand that is a number. -/
theorem nanResultsAreQuiet : Obligations.NanResultsAreQuiet := by
  unfold Obligations.NanResultsAreQuiet
  intro fp lg a b n
  refine ⟨?_, fun h => ?_, fun h => unaryOps_nan_operand fp lg a h⟩
  · change ∀ r ∈ _, QuietNaN r
    simp only [List.forall_mem_cons]
    refine ⟨?_, ?_, ?_, ?_, ?_, quietNaN_flog10 lg a, quietNaN_fabs a, quietNaN_pack _ _ _, by simp⟩ <;> cases fp
    · exact quietNaN_fadd a b
    · exact quietNaN_fpOther _ _ _
    · exact quietNaN_fadd a (fneg b)
    · exact quietNaN_fpOther _ _ _
    · exact quietNaN_fmul a b
    · exact quietNaN_fpOther _ _ _
    · exact quietNaN_fdiv a b
    · exact quietNaN_fpOther _ _ _
    · exact quietNaN_fsqrt a
    · exact quietNaN_fpOther _ _ _
  · obtain ⟨hadd, hsub, hmul, hdiv⟩ := fpOps_nan_operand fp a b h
    simp only [List.forall_mem_cons]
    exact ⟨hadd, hsub, hmul, hdiv, by simp⟩

/-- Settles O58: each clause is one rule of the operation it speaks of. -/
theorem specialOperandsFollowIeee : Obligations.SpecialOperandsFollowIeee := by
  unfold Obligations.SpecialOperandsFollowIeee
  intro a b
  refine ⟨fun ha hb => ⟨fadd_inf_inf ha hb, ?_, fdiv_inf_inf ha hb⟩, fun ha hb => ?_,
    fun ha hb => ⟨fmul_inf_number ha hb, ?_⟩, fun ha hb => fdiv_finite_zero ha hb, fun h => fsqrt_zero h,
    by decide +kernel, fun _ hz hs => fsqrt_negative hz hs⟩
  · rw [fsub, fadd_inf_inf ha ((isInf_fneg b).trans hb), signBit_fneg]
    cases signBit a <;> cases signBit b <;> rfl
  · exact ⟨fadd_inf_finite ha hb, fadd_finite_inf hb ha, fadd_inf_finite ha ((isFinite_fneg b).trans hb),
      (fadd_finite_inf hb ((isInf_fneg a).trans ha)).trans (fneg_inf ha), fdiv_inf_finite ha hb, fdiv_finite_inf hb ha⟩
  · rw [fmul_number_inf hb ha, bne_comm]
    rfl

end Sys2Proof.Scope

/-! The rounded square root (00_scope.md rule R10). -/

namespace Sys2Proof.Machine

open Claims

/-- The digits of the integer root bracket it: the root lies in the `2^b` from the digits found so far on. -/
theorem isqrtFrom_spec (n b r : Nat) (hlo : r * r ≤ n) (hhi : n < (r + 2 ^ b) * (r + 2 ^ b)) :
    isqrtFrom n b r * isqrtFrom n b r ≤ n ∧ n < (isqrtFrom n b r + 1) * (isqrtFrom n b r + 1) := by
  induction b generalizing r with
  | zero => exact ⟨hlo, hhi⟩
  | succ b ih =>
    unfold isqrtFrom
    rw [pow_succ] at hhi
    split
    · next hle => exact ih (2 ^ b + r) hle (by convert hhi using 2 <;> ring)
    · next hgt => exact ih r hlo (by rw [Nat.add_comm r]; omega)

theorem isqrt_eq_sqrt (n : Nat) (h : n < 2 ^ 448) : isqrt n = Nat.sqrt n := by
  have hpow : (2 : Nat) ^ 224 * 2 ^ 224 = 2 ^ 448 := by rw [← pow_add]
  exact Nat.eq_sqrt.mpr (isqrtFrom_spec n 224 0 (Nat.zero_le n) (by rwa [Nat.zero_add, hpow]))

/-- Twice the integer root of `n`, and one more where the root is inexact: the number `fsqrt` rounds. -/
def stickyRoot (n : Nat) : Nat := 2 * Nat.sqrt n + if Nat.sqrt n * Nat.sqrt n = n then 0 else 1

theorem fsqrt_positive {a : F32} (hf : isFinite a = true) (hz : isZero a = false) (hs : signBit a = false) :
    fsqrt a = pack false (roundUnits (stickyRoot (2 ^ 149 * mag a)) 2) := by
  have hlt : 2 ^ 149 * mag a < 2 ^ 448 := by
    rw [show 448 = 149 + 299 from rfl, pow_add]
    exact Nat.mul_lt_mul_of_pos_left (mag_lt_two_pow hf (by decide)) (by positivity)
  simp only [fsqrt, stickyRoot, isNaN_of_isFinite hf, hz, hs, isInf_of_isFinite hf, isqrt_eq_sqrt _ hlt, Bool.false_eq_true,
    if_false]

/-- An even bound at least the sticky root is at least twice the root. -/
theorem le_sq_of_stickyRoot_le {n s : Nat} (heven : 2 ∣ s) (h : stickyRoot n ≤ s) : 4 * n ≤ s ^ 2 := by
  unfold stickyRoot at h
  have hlt := Nat.lt_succ_sqrt n
  split at h
  · next hexact => nlinarith
  · have hs : 2 * (Nat.sqrt n + 1) ≤ s := by omega
    rw [Nat.succ_eq_add_one] at hlt
    nlinarith

/-- An even bound at most the sticky root is at most twice the root. -/
theorem sq_le_of_le_stickyRoot {n s : Nat} (heven : 2 ∣ s) (h : s ≤ stickyRoot n) : s ^ 2 ≤ 4 * n := by
  unfold stickyRoot at h
  have hle := Nat.sqrt_le n
  have hs : s ≤ 2 * Nat.sqrt n := by split at h <;> omega
  nlinarith

/-- From 2^75 on, the rounding boundaries next to the nearest magnitude are even. -/
theorem nearestBits_large {x w : Nat} (hw : NearestBits x 2 w) (hx : 2 ^ 75 ≤ x) : 2 ^ 24 < w := by
  by_contra hsmall
  have habove := (hw.above (w + 1) (Nat.lt_succ_self w)).1
  have h1 : bitsMag w ≤ 2 ^ 24 := bitsMag_le_iff.mpr (Nat.le_of_not_lt hsmall)
  have h2 : bitsMag (w + 1) ≤ 2 ^ 24 + 2 := bitsMag_le_iff.mpr (by omega : w + 1 ≤ 2 ^ 24 + 1)
  omega

theorem two_dvd_bitsMag {w : Nat} (h : 2 ^ 24 ≤ w) : 2 ∣ bitsMag w := pow_dvd_bitsMag 1 w h

/-- The nearest magnitude to the sticky root lies on the root's side of every midpoint. -/
theorem stickyRoot_midpoints {n w : Nat} (hn : 2 ^ 149 ≤ n) (hw : NearestBits (stickyRoot n) 2 w) (y : Nat) :
    (w < y → 4 * n ≤ (bitsMag w + bitsMag y) ^ 2) ∧ (y < w → (bitsMag w + bitsMag y) ^ 2 ≤ 4 * n) := by
  have hroot : 2 ^ 74 ≤ Nat.sqrt n := Nat.le_sqrt.mpr (by omega)
  have hlarge := nearestBits_large hw (by unfold stickyRoot; omega)
  have heven := two_dvd_bitsMag hlarge.le
  constructor
  · intro hy
    have hmid := (hw.above (w + 1) (Nat.lt_succ_self w)).1
    have hle : bitsMag (w + 1) ≤ bitsMag y := bitsMag_le_iff.mpr hy
    calc 4 * n ≤ (bitsMag w + bitsMag (w + 1)) ^ 2 :=
          le_sq_of_stickyRoot_le (Nat.dvd_add heven (two_dvd_bitsMag (by omega))) (by omega)
      _ ≤ (bitsMag w + bitsMag y) ^ 2 := Nat.pow_le_pow_left (Nat.add_le_add_left hle _) 2
  · intro hy
    have hmid := (hw.below (w - 1) (by omega)).1
    have hle : bitsMag y ≤ bitsMag (w - 1) := bitsMag_le_iff.mpr (by omega)
    calc (bitsMag w + bitsMag y) ^ 2 ≤ (bitsMag w + bitsMag (w - 1)) ^ 2 :=
          Nat.pow_le_pow_left (Nat.add_le_add_left hle _) 2
      _ ≤ 4 * n := sq_le_of_le_stickyRoot (Nat.dvd_add heven (two_dvd_bitsMag (by omega))) (by omega)

/-- The root of a finite value is far from overflowing. -/
theorem stickyRoot_finite {n w : Nat} (hn : n < 2 ^ 426) (hw : NearestBits (stickyRoot n) 2 w) : w < infBits := by
  have hroot : Nat.sqrt n < 2 ^ 213 := Nat.sqrt_lt.mpr (by rwa [← pow_add])
  have hsticky : stickyRoot n < 2 ^ 215 := by
    unfold stickyRoot
    split <;> omega
  rw [← not_le, hw.overflow_iff two_pos, pow_add 2 25 253]
  have hpow : (2 : Nat) ^ 215 ≤ 2 ^ 253 := Nat.pow_le_pow_right (by decide) (by decide)
  omega

end Sys2Proof.Machine

namespace Sys2Proof.Scope

open Machine Claims

/-- Settles O51: every rounding boundary near the root is a whole even number of half units, where the sticky root stands
in for the root. -/
theorem fsqrtCorrectlyRounded : Obligations.FsqrtCorrectlyRounded := by
  unfold Obligations.FsqrtCorrectlyRounded
  intro a hf hz hs
  have hpos : mag a ≠ 0 := fun h0 => by simp [(mag_eq_zero_iff a).mp h0] at hz
  have hlow : 2 ^ 149 ≤ 2 ^ 149 * mag a := Nat.le_mul_of_pos_right _ (Nat.pos_of_ne_zero hpos)
  have hhigh : 2 ^ 149 * mag a < 2 ^ 426 := by
    rw [show 426 = 149 + 277 from rfl, pow_add]
    exact Nat.mul_lt_mul_of_pos_left (mag_lt_two_pow hf le_rfl) (by positivity)
  obtain ⟨w, hw, hround⟩ := exists_nearestBits (stickyRoot (2 ^ 149 * mag a)) 2 two_pos
  have hfin := stickyRoot_finite hhigh hw
  have hlt : w < 2 ^ 31 := hfin.trans infBits_lt
  rw [fsqrt_positive hf hz hs, hround, min_eq_left hfin.le, isFinite_iff, signBit_pack _ _ hlt,
    mag_eq_bitsMag (pack _ _), magBits_pack _ _ hlt, Nat.mul_comm (mag a)]
  refine ⟨hfin, rfl, fun y _ _ => ?_⟩
  rw [mag_eq_bitsMag y, bitsMag_lt_iff, bitsMag_lt_iff]
  exact stickyRoot_midpoints hlow hw (magBits y)

end Sys2Proof.Scope

/-! Well-formed configurations: each check of `Cfg.wf` against its line of rule R16's list (`Claims.wellFormedR16`). -/

namespace Sys2Proof

open Machine Claims

theorem isFinite_iff_finiteWord (w : F32) : isFinite w = true ↔ finiteWord w := bne_iff_ne

theorem tableOk_iff (c : Cfg) (h : List F32) : tableOk c.firCap h = true ↔ tableWord c h := by
  simp only [tableOk, tableWord, Bool.and_eq_true, decide_eq_true_eq, List.all_eq_true, isFinite_iff_finiteWord, and_assoc]

theorem Cfg.tablesOk_iff (c : Cfg) :
    c.tablesOk = true ↔ ∀ h ∈ [c.hSsb, c.hCw, c.hTxs, c.hTxi, c.hTxq], tableWord c h := by
  simp only [Cfg.tablesOk, Bool.and_eq_true, tableOk_iff, List.forall_mem_cons, and_assoc, List.not_mem_nil, false_implies,
    implies_true, and_true]

theorem Cfg.constantsFinite_iff (c : Cfg) :
    c.constantsFinite = true ↔ ∀ w ∈ [c.kP.k0, c.kP.k1, c.kP.k2, c.kN.k0, c.kN.k1, c.kN.k2, c.kDc, c.kDecay, c.rxScale,
      c.txGain, c.txNorm, c.txOutScale, c.muteEnv], finiteWord w := by
  simp only [Cfg.constantsFinite, Triple.finite, Bool.and_eq_true, isFinite_iff_finiteWord, List.forall_mem_cons, and_assoc,
    List.not_mem_nil, false_implies, implies_true, and_true]

/-- Greater than +0.0 is to be a positive word, +∞ included. -/
theorem fgt_posZero_iff (w : F32) : fgt w posZero = true ↔ positiveWord w := by
  have hword := congrArg BitVec.toNat (pack_signBit_magBits w)
  rw [pack_toNat _ _ (magBits_lt w)] at hword
  have hzero : isNaN posZero = false := by decide
  have hkey : orderKey posZero = 0 := by decide
  have horder : orderKey w = if signBit w then -(magBits w : Int) else (magBits w : Int) := rfl
  have hnan := isNaN_iff w
  simp only [fgt, hzero, hkey, horder, positiveWord, Bool.and_eq_true, Bool.not_eq_true', decide_eq_true_eq,
    Bool.eq_false_iff, ne_eq, hnan, infBits, and_true]
  cases hs : signBit w <;> simp only [hs, if_true, if_false, Bool.false_eq_true] at hword ⊢ <;> omega

theorem Cfg.gainsPositive_iff (c : Cfg) :
    c.gainsPositive = true ↔ ∀ w ∈ [c.maxGain, c.silence, c.target], positiveWord w := by
  simp only [Cfg.gainsPositive, Bool.and_eq_true, fgt_posZero_iff, List.forall_mem_cons, and_assoc, List.not_mem_nil,
    false_implies, implies_true, and_true]

/-- A list equals its reverse when each entry equals its mirror. -/
theorem eq_reverse_iff_getD (l : List F32) :
    l = l.reverse ↔ ∀ j, j < l.length → l.getD j 0#32 = l.getD (l.length - 1 - j) 0#32 := by
  constructor
  · intro h j hj
    conv_lhs => rw [h]
    rw [List.getD_eq_getElem _ _ (by simpa using hj), List.getElem_reverse, List.getD_eq_getElem _ _ (by omega)]
  · intro h
    refine List.ext_getElem (List.length_reverse).symm fun j hj _ => ?_
    have hmirror := h j hj
    rwa [List.getD_eq_getElem _ _ hj, List.getD_eq_getElem _ _ (by omega), ← List.getElem_reverse] at hmirror

theorem Cfg.shapeSymmetric_iff (c : Cfg) :
    c.shapeSymmetric = true ↔ ∀ j, j < c.hTxs.length → c.hTxs.getD j 0#32 = c.hTxs.getD (c.hTxs.length - 1 - j) 0#32 := by
  rw [Cfg.shapeSymmetric, beq_iff_eq, eq_reverse_iff_getD]

theorem Cfg.smeterDomain_iff (c : Cfg) :
    c.smeterDomain = true ↔
      f2i (fpMul c.fp (flog10 c.log10 c.smLoRef) c.smLogScale) < f2i (fpMul c.fp (flog10 c.log10 c.smHiRef) c.smLogScale) :=
  decide_eq_true_iff

theorem Cfg.micOk_iff (c : Cfg) : c.micOk = true ↔ 1 ≤ c.micStep ∧ c.micDecay.toNat ≤ c.micHang.toNat := by
  simp only [Cfg.micOk, Bool.and_eq_true, decide_eq_true_eq]

theorem Cfg.adcOk_iff (c : Cfg) : c.adcOk = true ↔ 1 ≤ c.adcBits ∧ c.adcBits ≤ 16 ∧ c.bias = 2 ^ (c.adcBits - 1) := by
  simp only [Cfg.adcOk, Bool.and_eq_true, decide_eq_true_eq, and_assoc]

theorem Cfg.storesOk_iff (c : Cfg) :
    c.storesOk = true ↔ (1 ≤ c.firCap ∧ c.firCap ≤ 256) ∧ (1 ≤ c.maStages ∧ c.maStages ≤ 4) ∧ (1 ≤ c.maLen ∧ c.maLen ≤ 32) := by
  simp only [Cfg.storesOk, Bool.and_eq_true, decide_eq_true_eq, and_assoc]

/-- The model's check of a configuration is rule R16's list. -/
theorem Cfg.wf_iff (c : Cfg) : c.wf = true ↔ wellFormedR16 c := by
  unfold Cfg.wf wellFormedR16 Cfg.muteLarge
  simp only [Bool.and_eq_true, c.constantsFinite_iff, c.tablesOk_iff, c.storesOk_iff, c.shapeSymmetric_iff,
    c.gainsPositive_iff, c.smeterDomain_iff, c.micOk_iff, c.adcOk_iff]
  tauto

end Sys2Proof

namespace Sys2Proof.Scope

open Machine Claims

/-- Settles O14: the model's check is rule R16's list, and a block is built of what passes it. -/
theorem illFormedConfigurationRefused : Obligations.IllFormedConfigurationRefused := by
  unfold Obligations.IllFormedConfigurationRefused
  intro c
  rw [← c.wf_iff]
  exact ⟨build_wf c, fun h => build_illFormed c (Bool.eq_false_iff.mpr h)⟩

end Sys2Proof.Scope

/-! The binary digits of the base-10 logarithm (00_scope.md rule R7, 92_eei_decisions.md D4, log entry 5). -/

namespace Sys2Proof.Machine

/-- The whole part of the logarithm. -/
theorem log10Int_spec (p q fuel : Nat) (hq : q ≤ p) (hp : p < 10 ^ (fuel + 1) * q) :
    10 ^ log10Int p q fuel * q ≤ p ∧ p < 10 ^ (log10Int p q fuel + 1) * q := by
  induction fuel with
  | zero => exact ⟨by simpa [log10Int] using hq, hp⟩
  | succ fuel ih =>
    unfold log10Int
    split
    · next hle => exact ⟨hle, hp⟩
    · next hgt => exact ih (Nat.lt_of_not_le hgt)

/-- `a / b` lies in [`lo`, `hi`) when the unit is `1 / one`. -/
def Brackets (one lo hi a b : Nat) : Prop := lo * b ≤ one * a ∧ one * a < hi * b

/-- Squaring a bracket, the lower end rounded down and the upper end up. -/
theorem Brackets.sq {one lo hi a b : Nat} (hone : 0 < one) (h : Brackets one lo hi a b) :
    Brackets one (lo * lo / one) (hi * hi / one + 1) (a * a) (b * b) := by
  obtain ⟨hlo, hhi⟩ := h
  constructor
  · refine Nat.le_of_mul_le_mul_left ?_ hone
    calc one * (lo * lo / one * (b * b)) = one * (lo * lo / one) * (b * b) := by ring
      _ ≤ lo * lo * (b * b) := Nat.mul_le_mul_right _ (Nat.mul_div_le _ _)
      _ = lo * b * (lo * b) := by ring
      _ ≤ one * a * (one * a) := Nat.mul_le_mul hlo hlo
      _ = one * (one * (a * a)) := by ring
  · refine Nat.lt_of_mul_lt_mul_left (a := one) ?_
    calc one * (one * (a * a)) = one * a * (one * a) := by ring
      _ < hi * b * (hi * b) := Nat.mul_lt_mul'' hhi hhi
      _ = hi * hi * (b * b) := by ring
      _ ≤ one * (hi * hi / one + 1) * (b * b) := Nat.mul_le_mul_right _ (Nat.lt_mul_div_succ _ hone).le
      _ = one * ((hi * hi / one + 1) * (b * b)) := by ring

/-- Dividing a bracket by ten. -/
theorem Brackets.div_ten {one lo hi a b : Nat} (h : Brackets one lo hi a b) :
    Brackets one (lo / 10) (hi / 10 + 1) a (10 * b) := by
  obtain ⟨hlo, hhi⟩ := h
  constructor
  · calc lo / 10 * (10 * b) = lo / 10 * 10 * b := by ring
      _ ≤ lo * b := Nat.mul_le_mul_right b (Nat.div_mul_le_self lo 10)
      _ ≤ one * a := hlo
  · calc one * a < hi * b := hhi
      _ ≤ (hi / 10 + 1) * 10 * b := Nat.mul_le_mul_right b (by omega)
      _ = (hi / 10 + 1) * (10 * b) := by ring

/-- The next digit as the model finds it: from the squared bracket, or by the exact comparison. -/
def log10Bit (p q j m lo hi : Nat) : Bool :=
  if 10 * 2 ^ logPrec ≤ lo then true
  else if hi < 10 * 2 ^ logPrec then false
  else decide (10 ^ (2 * m + 1) * q ^ 2 ^ (j + 1) ≤ p ^ 2 ^ (j + 1))

/-- One round of the digits, with the squared bracket named. -/
theorem log10Digits_succ (p q fuel j m lo hi : Nat) :
    log10Digits p q (fuel + 1) j m lo hi =
      if log10Bit p q j m (lo * lo / 2 ^ logPrec) (hi * hi / 2 ^ logPrec + 1) then
        log10Digits p q fuel (j + 1) (2 * m + 1) (lo * lo / 2 ^ logPrec / 10) ((hi * hi / 2 ^ logPrec + 1) / 10 + 1)
      else log10Digits p q fuel (j + 1) (2 * m) (lo * lo / 2 ^ logPrec) (hi * hi / 2 ^ logPrec + 1) := rfl

/-- Whatever decides it, the digit is one exactly when the squared quotient reaches ten. -/
theorem log10Bit_iff {p q j m lo hi a b : Nat} (h : Brackets (2 ^ logPrec) lo hi a b) (ha : p ^ 2 ^ (j + 1) = a)
    (hb : 10 ^ (2 * m) * q ^ 2 ^ (j + 1) = b) : log10Bit p q j m lo hi = true ↔ 10 * b ≤ a := by
  have hexact : 10 ^ (2 * m + 1) * q ^ 2 ^ (j + 1) = 10 * b := by rw [← hb, pow_succ]; ring
  have hone : 0 < 2 ^ logPrec := Nat.two_pow_pos _
  obtain ⟨hlo, hhi⟩ := h
  unfold log10Bit
  rw [hexact, ha]
  generalize 2 ^ logPrec = one at *
  split
  · next hdigit =>
    refine iff_of_true rfl (Nat.le_of_mul_le_mul_left ?_ hone)
    calc one * (10 * b) = 10 * one * b := by ring
      _ ≤ lo * b := Nat.mul_le_mul_right b hdigit
      _ ≤ one * a := hlo
  · split
    · next hdigit =>
      refine iff_of_false Bool.false_ne_true (Nat.not_le.mpr (Nat.lt_of_mul_lt_mul_left (a := one) ?_))
      calc one * a < hi * b := hhi
        _ ≤ 10 * one * b := Nat.mul_le_mul_right b hdigit.le
        _ = one * (10 * b) := by ring
    · exact decide_eq_true_iff

theorem pow_two_pow_succ (x j : Nat) : x ^ 2 ^ (j + 1) = x ^ 2 ^ j * x ^ 2 ^ j := by
  rw [pow_succ, pow_mul, pow_two]

/-- The digits found from a valid bracket and the digits before them are those of the logarithm. -/
theorem log10Digits_spec (p q fuel j m lo hi : Nat)
    (hbr : Brackets (2 ^ logPrec) lo hi (p ^ 2 ^ j) (10 ^ m * q ^ 2 ^ j))
    (hle : 10 ^ m * q ^ 2 ^ j ≤ p ^ 2 ^ j) (hlt : p ^ 2 ^ j < 10 ^ (m + 1) * q ^ 2 ^ j) :
    10 ^ log10Digits p q fuel j m lo hi * q ^ 2 ^ (j + fuel) ≤ p ^ 2 ^ (j + fuel) ∧
      p ^ 2 ^ (j + fuel) < 10 ^ (log10Digits p q fuel j m lo hi + 1) * q ^ 2 ^ (j + fuel) := by
  induction fuel generalizing j m lo hi with
  | zero => exact ⟨hle, hlt⟩
  | succ fuel ih =>
    have hsq := hbr.sq (Nat.two_pow_pos _)
    have hb : 10 ^ m * q ^ 2 ^ j * (10 ^ m * q ^ 2 ^ j) = 10 ^ (2 * m) * q ^ 2 ^ (j + 1) := by
      rw [pow_two_pow_succ, two_mul, pow_add]; ring
    have hle' := Nat.mul_le_mul hle hle
    have hlt' := Nat.mul_lt_mul'' hlt hlt
    rw [← pow_two_pow_succ] at hsq hle' hlt'
    rw [hb] at hsq hle'
    rw [log10Digits_succ, ← Nat.add_assoc, Nat.add_right_comm]
    have hbit := log10Bit_iff hsq rfl rfl
    have hten : 10 * (10 ^ (2 * m) * q ^ 2 ^ (j + 1)) = 10 ^ (2 * m + 1) * q ^ 2 ^ (j + 1) := by rw [pow_succ]; ring
    split
    · next h1 =>
      refine ih (j + 1) (2 * m + 1) _ _ (hten ▸ hsq.div_ten) (hten ▸ hbit.mp h1) ?_
      convert hlt' using 1
      rw [pow_two_pow_succ q, show 2 * m + 1 + 1 = (m + 1) + (m + 1) by ring, pow_add]; ring
    · next h0 =>
      exact ih (j + 1) (2 * m) _ _ hsq hle' (hten ▸ Nat.lt_of_not_le (mt hbit.mpr h0))

/-- Rounding a quotient down brackets it. -/
theorem Brackets.of_div {one a b : Nat} (hb : 0 < b) : Brackets one (one * a / b) (one * a / b + 1) a b :=
  ⟨Nat.div_mul_le_self _ _, by rw [Nat.mul_comm _ b]; exact Nat.lt_mul_div_succ _ hb⟩

/-- `log10Floor` is the floor of the logarithm in units of 2^-logBits. -/
theorem log10Floor_spec (p q : Nat) (hq : 0 < q) (hle : q ≤ p) (hlt : p < 10 ^ 64 * q) :
    10 ^ log10Floor p q * q ^ 2 ^ logBits ≤ p ^ 2 ^ logBits ∧
      p ^ 2 ^ logBits < 10 ^ (log10Floor p q + 1) * q ^ 2 ^ logBits := by
  obtain ⟨hint, hint'⟩ := log10Int_spec p q 63 hle hlt
  unfold log10Floor
  dsimp only
  generalize log10Int p q 63 = n at *
  have hq' : 0 < q * 10 ^ n := Nat.mul_pos hq (by positivity)
  have hdigits := log10Digits_spec p (q * 10 ^ n) logBits 0 0 (2 ^ logPrec * p / (q * 10 ^ n))
    (2 ^ logPrec * p / (q * 10 ^ n) + 1) (by simpa using Brackets.of_div hq') (by simpa [Nat.mul_comm] using hint)
    (by rw [pow_succ] at hint'; simpa [Nat.mul_comm, Nat.mul_left_comm] using hint')
  rw [Nat.zero_add] at hdigits
  generalize log10Digits p (q * 10 ^ n) logBits 0 0 _ _ = digits at *
  generalize 2 ^ logBits = bits at *
  have hpow : ∀ e, 10 ^ (bits * n + e) * q ^ bits = 10 ^ e * (q * 10 ^ n) ^ bits := fun e => by
    rw [mul_pow, ← pow_mul, pow_add, Nat.mul_comm n]; ring
  rw [Nat.add_assoc, hpow, hpow]
  exact hdigits

end Sys2Proof.Machine

namespace Sys2Proof.Scope

open Machine Claims

/-- Settles O52: by induction on the digits, each of which is decided exactly. -/
theorem logarithmDigitsExact : Obligations.LogarithmDigitsExact := by
  unfold Obligations.LogarithmDigitsExact
  intro p q hq hle hlt
  exact log10Floor_spec p q hq hle hlt

end Sys2Proof.Scope

/-! The rounded base-10 logarithm against the real one (00_scope.md rule R7, 92_eei_decisions.md D4). -/

namespace Sys2Proof.Machine

open Claims

/-! Powers and the real logarithm. -/

theorem pow_le_iff_le_logb {p q : Nat} (f n : Nat) (hp : 0 < p) (hq : 0 < q) :
    10 ^ f * q ^ n ≤ p ^ n ↔ (f : ℝ) ≤ n * Real.logb 10 (p / q) := by
  have hpos : (0 : ℝ) < (p / q) ^ n := by positivity
  rw [← Real.logb_pow, Real.le_logb_iff_rpow_le (by norm_num) hpos, Real.rpow_natCast, div_pow,
    le_div_iff₀ (by positivity)]
  exact_mod_cast Iff.rfl

theorem pow_lt_iff_lt_logb {p q : Nat} (f n : Nat) (hp : 0 < p) (hq : 0 < q) :
    10 ^ f * q ^ n < p ^ n ↔ (f : ℝ) < n * Real.logb 10 (p / q) := by
  have hpos : (0 : ℝ) < (p / q) ^ n := by positivity
  rw [← Real.logb_pow, Real.lt_logb_iff_rpow_lt (by norm_num) hpos, Real.rpow_natCast, div_pow,
    lt_div_iff₀ (by positivity)]
  exact_mod_cast Iff.rfl

/-- A quotient whose logarithm has finitely many binary digits is a power of ten. -/
theorem eq_pow_ten_mul_of_pow_eq {p q f n : Nat} (hn : 0 < n) (hq : q ≠ 0) (h : 10 ^ f * q ^ n = p ^ n) :
    ∃ g, p = 10 ^ g * q := by
  have hten : (10 : Nat).factorization 5 = 1 := by
    rw [show 10 = 2 * 5 from rfl, Nat.factorization_mul (by decide) (by decide), Finsupp.add_apply,
      Nat.Prime.factorization_self Nat.prime_five, Nat.factorization_eq_zero_of_not_dvd (by decide)]
  have htenpow : (10 : Nat) ^ f ≠ 0 := by positivity
  have hfive : f + n * q.factorization 5 = n * p.factorization 5 := by
    simpa [Nat.factorization_mul htenpow (pow_ne_zero n hq), hten] using congrArg (fun x => Nat.factorization x 5) h
  obtain ⟨g, rfl⟩ : n ∣ f := (Nat.dvd_add_left (Dvd.intro _ rfl)).mp (Dvd.intro _ hfive.symm)
  rw [Nat.mul_comm n, pow_mul, ← mul_pow] at h
  exact ⟨g, (Nat.pow_left_injective hn.ne' h).symm⟩

/-- The exactness test of `log10Round` finds every power of ten. -/
theorem log10Int_pow_ten_mul {q g : Nat} (hq : 0 < q) (hlt : 10 ^ g * q < 10 ^ 64 * q) :
    log10Int (10 ^ g * q) q 63 = g := by
  obtain ⟨hlow, hhigh⟩ := log10Int_spec (10 ^ g * q) q 63 (Nat.le_mul_of_pos_left q (by positivity)) hlt
  have h1 := (Nat.pow_le_pow_iff_right (by decide)).mp (Nat.le_of_mul_le_mul_right hlow hq)
  have h2 := (Nat.pow_lt_pow_iff_right (by decide)).mp (Nat.lt_of_mul_lt_mul_right hhigh)
  omega

/-! The digits and their tail. -/

/-- Twice the digits of the logarithm, and one more where a tail is left: the number `log10Round` rounds. -/
def log10Sticky (p q : Nat) : Nat := 2 * log10Floor p q + if p = q * 10 ^ log10Int p q 63 then 0 else 1

theorem log10Round_eq (p q : Nat) : log10Round p q = roundUnits (2 ^ 149 * log10Sticky p q) (2 ^ 65) := by
  unfold log10Round log10Sticky
  dsimp only
  rw [Nat.add_comm]
  rfl

section
variable {p q : Nat} (hq : 0 < q) (hle : q ≤ p) (hlt : p < 10 ^ 64 * q)
include hq hle hlt

/-- The digits around the real logarithm, in units of 2^-64. -/
theorem log10Floor_bounds : (log10Floor p q : ℝ) ≤ 2 ^ 64 * Real.logb 10 (p / q) ∧
    2 ^ 64 * Real.logb 10 (p / q) < log10Floor p q + 1 := by
  have hp := hq.trans_le hle
  have hbits : ((2 ^ logBits : Nat) : ℝ) = 2 ^ 64 := by norm_num [logBits]
  obtain ⟨hlow, hhigh⟩ := log10Floor_spec p q hq hle hlt
  rw [pow_le_iff_le_logb _ _ hp hq, hbits] at hlow
  rw [← not_le, pow_le_iff_le_logb _ _ hp hq, hbits, not_le] at hhigh
  exact ⟨hlow, by exact_mod_cast hhigh⟩

/-- A power of ten has a whole logarithm, and no digit after the point. -/
theorem log10Floor_of_exact (hexact : p = q * 10 ^ log10Int p q 63) :
    Real.logb 10 (p / q) = log10Int p q 63 ∧ log10Floor p q = 2 ^ 64 * log10Int p q 63 := by
  obtain ⟨hlow, hhigh⟩ := log10Floor_bounds hq hle hlt
  have hlog : Real.logb 10 (p / q) = log10Int p q 63 := by
    generalize log10Int p q 63 = n at hexact
    have hq' : (q : ℝ) ≠ 0 := by positivity
    rw [hexact, Nat.cast_mul, mul_div_cancel_left₀ _ hq', Nat.cast_pow, ← Real.rpow_natCast]
    exact Real.logb_rpow (by norm_num) (by norm_num)
  rw [hlog] at hlow hhigh
  exact ⟨hlog, le_antisymm (by exact_mod_cast hlow) (Nat.lt_succ_iff.mp (by exact_mod_cast hhigh))⟩

/-- A quotient that is no power of ten has a tail after every digit. -/
theorem log10Floor_lt_of_inexact (hne : p ≠ q * 10 ^ log10Int p q 63) :
    (log10Floor p q : ℝ) < 2 ^ 64 * Real.logb 10 (p / q) := by
  have hp := hq.trans_le hle
  have hbits : ((2 ^ logBits : Nat) : ℝ) = 2 ^ 64 := by norm_num [logBits]
  rw [← hbits, ← pow_lt_iff_lt_logb _ _ hp hq]
  refine lt_of_le_of_ne (log10Floor_spec p q hq hle hlt).1 fun heq => hne ?_
  obtain ⟨g, rfl⟩ := eq_pow_ten_mul_of_pow_eq (Nat.two_pow_pos _) hq.ne' heq
  rw [log10Int_pow_ten_mul hq hlt, Nat.mul_comm]

theorem log10Sticky_le : log10Sticky p q ≤ 2 ^ 71 := by
  have hlog : Real.logb 10 (p / q) < 64 := by
    have h := (pow_le_iff_le_logb (p := p) 64 1 (hq.trans_le hle) hq).not
    rw [pow_one, pow_one, Nat.cast_one, one_mul, not_le, not_le] at h
    exact_mod_cast h.mp hlt
  have hfloor : (log10Floor p q : ℝ) < 2 ^ 70 := by
    have := (log10Floor_bounds hq hle hlt).1
    linarith
  have hfloor' : log10Floor p q < 2 ^ 70 := by exact_mod_cast hfloor
  unfold log10Sticky
  split <;> omega

/-- The nearest magnitude to a logarithm is finite. -/
theorem log10_finite {w : Nat} (hw : NearestBits (2 ^ 149 * log10Sticky p q) (2 ^ 65) w) : w < infBits := by
  have hsticky := log10Sticky_le hq hle hlt
  rw [← not_le, hw.overflow_iff (by positivity), pow_add 2 25 253, pow_add 2 149 104]
  omega

/-- A quotient some 2^-24 above one has a logarithm of at least 2^-26. -/
theorem log10Floor_large (hgap : (2 ^ 24 + 1) * q ≤ 2 ^ 24 * p) : 2 ^ 38 ≤ log10Floor p q := by
  have hq' : (0 : ℝ) < q := by exact_mod_cast hq
  have hgap' : ((2 ^ 24 + 1) * q : ℝ) ≤ 2 ^ 24 * p := by exact_mod_cast hgap
  have hratio : 1 + 1 / 2 ^ 24 ≤ (p / q : ℝ) := by
    rw [le_div_iff₀ hq']
    linarith
  have htwo : (2 : ℝ) ≤ (p / q) ^ 2 ^ 24 := calc
    (2 : ℝ) = 1 + (2 ^ 24 : Nat) * (1 / 2 ^ 24) := by norm_num
    _ ≤ (1 + 1 / 2 ^ 24) ^ 2 ^ 24 := one_add_mul_le_pow (by norm_num) _
    _ ≤ (p / q) ^ 2 ^ 24 := pow_le_pow_left₀ (by positivity) hratio _
  have hquarter : (1 / 4 : ℝ) ≤ Real.logb 10 2 := by
    have hpow : Real.logb 10 10 ≤ Real.logb 10 (2 ^ 4) := Real.logb_le_logb_of_le (by norm_num) (by norm_num) (by norm_num)
    rw [Real.logb_self_eq_one (by norm_num), Real.logb_pow] at hpow
    push_cast at hpow
    linarith
  have hlog := hquarter.trans (Real.logb_le_logb_of_le (by norm_num) (by norm_num) htwo)
  rw [Real.logb_pow] at hlog
  push_cast at hlog
  have hhigh := (log10Floor_bounds hq hle hlt).2
  have hreal : (2 ^ 38 : ℝ) < log10Floor p q + 1 := by linarith
  exact Nat.lt_succ_iff.mp (by exact_mod_cast hreal)

end

end Sys2Proof.Machine

/-! The correct rounding of the logarithm: every midpoint of binary32 values near it is a whole number of 2^-64. -/

namespace Sys2Proof.Machine

open Claims

/-- Magnitude bits `w` lie on `x`'s side of every midpoint with another magnitude, strictly. -/
def StrictlyNearest (x : ℝ) (w : Nat) : Prop :=
  ∀ y : Nat, (y < w → (bitsMag y + bitsMag w : ℝ) < 2 * x) ∧ (w < y → 2 * x < bitsMag w + bitsMag y)

/-- Its own bits are strictly nearest to a magnitude. -/
theorem strictlyNearest_bitsMag (w : Nat) : StrictlyNearest (bitsMag w) w := fun y => by
  constructor
  · intro hy
    have : (bitsMag y : ℝ) < bitsMag w := by exact_mod_cast bitsMag_lt_iff.mpr hy
    linarith
  · intro hy
    have : (bitsMag w : ℝ) < bitsMag y := by exact_mod_cast bitsMag_lt_iff.mpr hy
    linarith

/-- The two neighbouring midpoints decide. -/
theorem StrictlyNearest.of_neighbours {x : ℝ} {w : Nat} (hpos : 0 < w)
    (hbelow : (bitsMag (w - 1) + bitsMag w : ℝ) < 2 * x) (habove : 2 * x < bitsMag w + bitsMag (w + 1)) :
    StrictlyNearest x w := fun y => by
  constructor
  · intro hy
    have : (bitsMag y : ℝ) ≤ bitsMag (w - 1) := by exact_mod_cast bitsMag_le_iff.mpr (by omega)
    linarith
  · intro hy
    have : (bitsMag (w + 1) : ℝ) ≤ bitsMag y := by exact_mod_cast bitsMag_le_iff.mpr hy
    linarith

/-- Every other magnitude is farther away than the strictly nearest. -/
theorem StrictlyNearest.closer {x : ℝ} {w v : Nat} (h : StrictlyNearest x w) (hv : v ≠ w) :
    |x - bitsMag w| < |x - bitsMag v| := by
  obtain ⟨hbelow, habove⟩ := h v
  rcases Nat.lt_or_gt_of_ne hv with hlt | hgt
  · have hmag : (bitsMag v : ℝ) < bitsMag w := by exact_mod_cast bitsMag_lt_iff.mpr hlt
    have hmid := hbelow hlt
    exact (abs_lt.mpr ⟨by linarith, by linarith⟩).trans_le (le_abs_self _)
  · have hmag : (bitsMag w : ℝ) < bitsMag v := by exact_mod_cast bitsMag_lt_iff.mpr hgt
    have hmid := habove hgt
    exact (abs_lt.mpr ⟨by linarith, by linarith⟩).trans_le (neg_le_abs _)

/-- Values of the other sign are farther away than the strictly nearest magnitude, unless both are zeros. -/
theorem StrictlyNearest.closer_other_sign {x : ℝ} {w v : Nat} (h : StrictlyNearest x w) (hx : 0 ≤ x)
    (hne : v ≠ 0 ∨ w ≠ 0) : |x - bitsMag w| < |x + bitsMag v| := by
  have hfar : |x + bitsMag v| = x + bitsMag v := abs_of_nonneg (by positivity)
  rw [hfar]
  by_cases hw : w = 0
  · have hmag : (0 : ℝ) < bitsMag v := by exact_mod_cast bitsMag_lt_iff.mpr (by omega : 0 < v)
    rw [hw, bitsMag_zero, Nat.cast_zero, sub_zero, abs_of_nonneg hx]
    linarith
  · have hzero := h.closer (Ne.symm hw)
    rw [bitsMag_zero, Nat.cast_zero, sub_zero, abs_of_nonneg hx] at hzero
    have hmag : (0 : ℝ) ≤ bitsMag v := by positivity
    linarith

/-- Among the words of either sign, the strictly nearest magnitude under the sign of `±x` is the closest to it. -/
theorem StrictlyNearest.closer_word {x : ℝ} {w : Nat} (h : StrictlyNearest x w) (hx : 0 ≤ x) (neg : Bool)
    (hw : w < 2 ^ 31) (y : F32) (hne : units y ≠ units (pack neg w)) :
    |(if neg then -x else x) - units (pack neg w)| < |(if neg then -x else x) - units y| := by
  rw [units_pack _ _ hw] at hne ⊢
  by_cases hs : signBit y = neg
  · rw [units_of_signBit hs, mag_eq_bitsMag] at hne ⊢
    have hcloser := h.closer (v := magBits y) fun hv => hne (by rw [hv])
    cases neg
    · simpa using hcloser
    · simp only [if_true, Int.cast_neg, Int.cast_natCast]
      rwa [neg_sub_neg, neg_sub_neg, abs_sub_comm, abs_sub_comm _ x]
  · rw [units_of_signBit (Bool.eq_not.mpr hs), mag_eq_bitsMag] at hne ⊢
    have hcloser := h.closer_other_sign (v := magBits y) hx (by
      by_contra hzero
      push Not at hzero
      exact hne (by simp [hzero.1, hzero.2]))
    cases neg
    · simpa using hcloser
    · simp only [if_true, if_false, Bool.not_true, Bool.false_eq_true, Int.cast_neg, Int.cast_natCast]
      rwa [neg_sub_neg, abs_sub_comm, ← neg_add', abs_neg]

section
variable {p q w : Nat}

/-- A logarithm of at least 2^-26 rounds into a binade above 2^-64. -/
theorem nearest_log10_large (hw : NearestBits (2 ^ 149 * log10Sticky p q) (2 ^ 65) w) (hlarge : 2 ^ 38 ≤ log10Floor p q) :
    2 ^ 23 * 88 < w := by
  by_contra hsmall
  have habove := (hw.above (w + 1) (Nat.lt_succ_self w)).1
  have hnext : bitsMag (w + 1) ≤ (2 ^ 23 + 1) * 2 ^ 87 := by
    rw [← bitsMag_binade 87 (2 ^ 23 + 1) (by decide) (by decide), bitsMag_le_iff]
    omega
  have hself : bitsMag w ≤ bitsMag (w + 1) := bitsMag_le_iff.mpr (Nat.le_succ w)
  unfold log10Sticky at habove
  omega

/-- Where the logarithm has a tail, the midpoints next to the nearest magnitude are whole numbers of digits, so half a
digit stands for the tail. -/
theorem strictlyNearest_of_tail {f : Nat} {x : ℝ} (hw : NearestBits (2 ^ 149 * (2 * f + 1)) (2 ^ 65) w)
    (hlarge : 2 ^ 23 * 88 < w) (hlow : 2 ^ 85 * f < x) (hhigh : x < 2 ^ 85 * (f + 1)) : StrictlyNearest x w := by
  have hdvd : ∀ v, 2 ^ 23 * 88 ≤ v → 2 ^ 86 ∣ bitsMag v := fun v hv => pow_dvd_bitsMag 86 v (by omega)
  obtain ⟨s, hs⟩ := Nat.dvd_add (hdvd (w - 1) (by omega)) (hdvd w hlarge.le)
  obtain ⟨t, ht⟩ := Nat.dvd_add (hdvd w hlarge.le) (hdvd (w + 1) (by omega))
  have hbelow := (hw.below (w - 1) (by omega)).1
  have habove := (hw.above (w + 1) (Nat.lt_succ_self w)).1
  rw [hs] at hbelow
  rw [ht] at habove
  have hsf : (s : ℝ) ≤ f := by exact_mod_cast (by omega : s ≤ f)
  have hft : (f + 1 : ℝ) ≤ t := by exact_mod_cast (by omega : f + 1 ≤ t)
  refine .of_neighbours (by omega) ?_ ?_
  · have hs' : (bitsMag (w - 1) + bitsMag w : ℝ) = 2 ^ 86 * s := by exact_mod_cast hs
    rw [hs']
    linarith
  · have ht' : (bitsMag w + bitsMag (w + 1) : ℝ) = 2 ^ 86 * t := by exact_mod_cast ht
    rw [ht']
    linarith

/-- `log10Round` answers finite bits strictly nearest to the logarithm. -/
theorem log10Round_spec (hq : 0 < q) (hle : q ≤ p) (hlt : p < 10 ^ 64 * q)
    (hgap : p ≠ q → (2 ^ 24 + 1) * q ≤ 2 ^ 24 * p) :
    log10Round p q < infBits ∧ StrictlyNearest (2 ^ 149 * Real.logb 10 (p / q)) (log10Round p q) := by
  obtain ⟨w, hw, hround⟩ := exists_nearestBits (2 ^ 149 * log10Sticky p q) (2 ^ 65) (by positivity)
  have hfin := log10_finite hq hle hlt hw
  rw [log10Round_eq, hround, min_eq_left hfin.le]
  refine ⟨hfin, ?_⟩
  by_cases hexact : p = q * 10 ^ log10Int p q 63
  · obtain ⟨hlog, hfloor⟩ := log10Floor_of_exact hq hle hlt hexact
    have hsticky : log10Sticky p q = 2 ^ 65 * log10Int p q 63 := by
      rw [log10Sticky, if_pos hexact, hfloor]
      omega
    have hint : log10Int p q 63 ≤ 2 ^ 24 := by
      have := log10Sticky_le hq hle hlt
      omega
    obtain ⟨v, hv⟩ := exists_bitsMag_eq 149 _ hint
    have hwv : w = v := hw.eq_of_exact (by positivity) (by rw [hv, hsticky]; ring)
    have hx : 2 ^ 149 * Real.logb 10 (p / q) = (bitsMag w : ℝ) := by
      rw [hlog, hwv, hv]
      push_cast
      ring
    rw [hx]
    exact strictlyNearest_bitsMag w
  · have hpq : p ≠ q := by
      rintro rfl
      have h := log10Int_pow_ten_mul (g := 0) hq (by simpa using hlt)
      rw [pow_zero, one_mul] at h
      exact hexact (by rw [h, pow_zero, mul_one])
    have hlow := log10Floor_lt_of_inexact hq hle hlt hexact
    have hhigh := (log10Floor_bounds hq hle hlt).2
    have hlarge := nearest_log10_large hw (log10Floor_large hq hle hlt (hgap hpq))
    rw [log10Sticky, if_neg hexact] at hw
    exact strictlyNearest_of_tail hw hlarge (by linarith) (by linarith)

end

/-! The operand. -/

/-- The bits of 1.0, which is 2^149 units. -/
theorem bitsMag_one : bitsMag (2 ^ 23 * 126 + 2 ^ 23) = 2 ^ 149 := by
  rw [bitsMag_binade 126 (2 ^ 23) (by decide) (by decide), ← pow_add]

/-- A magnitude above 1.0 is at least one spacing above. -/
theorem gap_above_one {w : Nat} (h : 2 ^ 149 < bitsMag w) : (2 ^ 24 + 1) * 2 ^ 149 ≤ 2 ^ 24 * bitsMag w := by
  rw [← bitsMag_one, bitsMag_lt_iff] at h
  have hnext : (2 ^ 23 + 1) * 2 ^ 126 ≤ bitsMag w := by
    rw [← bitsMag_succ 126 (2 ^ 23) (by decide) (by decide), bitsMag_le_iff]
    exact h
  omega

/-- A magnitude below 1.0 is at least one spacing below. -/
theorem gap_below_one {w : Nat} (h : bitsMag w < 2 ^ 149) : (2 ^ 24 + 1) * bitsMag w ≤ 2 ^ 24 * 2 ^ 149 := by
  rw [← bitsMag_one, bitsMag_lt_iff] at h
  have hprev : bitsMag w ≤ (2 ^ 24 - 1) * 2 ^ 125 := by
    rw [← bitsMag_binade 125 (2 ^ 24 - 1) (by decide) (by decide), bitsMag_le_iff]
    omega
  omega

/-- `flog10` of a positive finite value: the rounded logarithm of the value or of its inverse, under a sign. -/
theorem flog10_positive {a : F32} (hf : isFinite a = true) (hz : isZero a = false) (hs : signBit a = false) :
    flog10 .correctlyRounded a =
      if 2 ^ 149 ≤ mag a then pack false (log10Round (mag a) (2 ^ 149)) else pack true (log10Round (2 ^ 149) (mag a)) := by
  simp [flog10, log10Rounded, isNaN_of_isFinite hf, isInf_of_isFinite hf, hz, hs]

/-- The packed rounded logarithm is finite, and its distance in the reals is the least. -/
theorem pack_strictlyNearest {x : ℝ} {w : Nat} (neg : Bool) (hx : 0 ≤ x) (hfin : w < infBits)
    (h : StrictlyNearest (2 ^ 149 * x) w) :
    isFinite (pack neg w) = true ∧ ∀ y : F32, units y ≠ units (pack neg w) →
      |(if neg then -x else x) - (units (pack neg w) : ℝ) / 2 ^ 149| < |(if neg then -x else x) - (units y : ℝ) / 2 ^ 149| := by
  have hlt : w < 2 ^ 31 := hfin.trans infBits_lt
  have hunit : (0 : ℝ) < 2 ^ 149 := by positivity
  refine ⟨by rwa [isFinite_iff, magBits_pack _ _ hlt], fun y hne => ?_⟩
  have hscale : ∀ t : ℝ, |(if neg then -x else x) - t / 2 ^ 149|
      = |(if neg then -(2 ^ 149 * x) else 2 ^ 149 * x) - t| / 2 ^ 149 := fun t => by
    rw [eq_div_iff hunit.ne', ← abs_of_pos hunit, ← abs_mul, abs_of_pos hunit]
    congr 1
    split <;> field_simp
  rw [hscale, hscale]
  exact div_lt_div_of_pos_right (h.closer_word (mul_nonneg hunit.le hx) neg hlt y hne) hunit

end Sys2Proof.Machine

namespace Sys2Proof.Scope

open Machine Claims

/-- Settles O59: the digits decide the nearest binary32, for a value of at least 1.0 directly and below 1.0 through the
inverse. -/
theorem log10CorrectlyRounded : Obligations.Log10CorrectlyRounded := by
  unfold Obligations.Log10CorrectlyRounded
  refine ⟨by decide +kernel, fun a hf hz hs => ?_⟩
  have hpos : 0 < mag a := Nat.pos_of_ne_zero fun h0 => by simp [(mag_eq_zero_iff a).mp h0] at hz
  have hmag : (0 : ℝ) < mag a := by exact_mod_cast hpos
  have hunits : (units a : ℝ) = mag a := by simp [units, hs]
  have hcast : ((2 ^ 149 : Nat) : ℝ) = 2 ^ 149 := by norm_num
  rw [flog10_positive hf hz hs, hunits]
  split
  · next hone =>
    have hlt : mag a < 10 ^ 64 * 2 ^ 149 := (mag_lt_two_pow hf le_rfl).trans (by
      rw [show 277 = 128 + 149 from rfl, pow_add]
      exact Nat.mul_lt_mul_of_pos_right (by norm_num) (by positivity))
    obtain ⟨hfin, hnear⟩ := log10Round_spec (by positivity) hone hlt fun hne => by
      rw [mag_eq_bitsMag] at *
      exact gap_above_one (lt_of_le_of_ne hone hne.symm)
    have hlog : 0 ≤ Real.logb 10 (mag a / (2 ^ 149 : Nat)) :=
      Real.logb_nonneg (by norm_num) ((one_le_div (by positivity)).mpr (by exact_mod_cast hone))
    have h := pack_strictlyNearest false hlog hfin hnear
    rw [hcast] at h
    exact ⟨h.1, fun y _ hne => h.2 y hne⟩
  · next hone =>
    rw [not_le] at hone
    obtain ⟨hfin, hnear⟩ := log10Round_spec hpos hone.le (by omega) fun _ => by
      rw [mag_eq_bitsMag] at *
      exact gap_below_one hone
    have hlog : 0 ≤ Real.logb 10 ((2 ^ 149 : Nat) / mag a) :=
      Real.logb_nonneg (by norm_num) ((one_le_div hmag).mpr (by exact_mod_cast hone.le))
    have h := pack_strictlyNearest true hlog hfin hnear
    have hinv : Real.logb 10 (mag a / 2 ^ 149) = -Real.logb 10 ((2 ^ 149 : Nat) / mag a) := by
      rw [← Real.logb_inv, inv_div, hcast]
    rw [hinv]
    exact ⟨h.1, fun y _ hne => h.2 y hne⟩

end Sys2Proof.Scope

/-! What keeps the registers in their ranges (10_state.md rules R29 to R32): the envelope stays a number that is not
negative, the S-meter stays within `SM_MAX`, the held peak within the largest magnitude of a code, and `STATUS` keeps its
reserved bits zero. -/

namespace Sys2Proof.Machine

open Claims

/-! The envelope. -/

/-- A number whose sign bit is clear: what `ENV` always holds (10_state.md rule R29). -/
def NonnegNumber (a : F32) : Prop := isNaN a = false ∧ signBit a = false

theorem nonnegNumber_posZero : NonnegNumber posZero := by
  unfold NonnegNumber
  decide

theorem nonnegNumber_pack_roundUnits (n d : Nat) : NonnegNumber (pack false (roundUnits n d)) :=
  (pack_roundUnits false n d).symm

theorem signBit_fabs (a : F32) : signBit (fabs a) = false := by
  unfold fabs
  split
  · decide
  · rw [signBit, BitVec.getLsbD_and, show (0x7FFFFFFF#32).getLsbD 31 = false by decide, Bool.and_false]

/-- A positive word is a number above zero: its sign bit is clear and it is neither a zero nor a NaN. -/
theorem positiveWord_sign_and_class {w : F32} (h : positiveWord w) :
    signBit w = false ∧ isZero w = false ∧ isNaN w = false := by
  obtain ⟨hpos, hle⟩ := h
  have hmag : magBits w = w.toNat := Nat.mod_eq_of_lt (by omega)
  refine ⟨?_, ?_, ?_⟩
  · rw [signBit, ← BitVec.msb_eq_getLsbD_last, BitVec.msb_eq_decide, decide_eq_false_iff_not]
    omega
  · rw [Bool.eq_false_iff, ne_eq, isZero_iff]
    omega
  · rw [Bool.eq_false_iff, ne_eq, isNaN_iff, hmag, infBits]
    omega

/-- A number is finite or an infinity. -/
theorem isFinite_or_isInf {a : F32} (h : isNaN a = false) : isFinite a = true ∨ isInf a = true := by
  rw [Bool.eq_false_iff, ne_eq, isNaN_iff] at h
  rw [isFinite_iff, isInf_iff]
  omega

/-- A number that is not negative stays one when it is scaled by a positive finite factor: an infinity has no zero to
meet, and a finite product is rounded without its sign. -/
theorem NonnegNumber.fmul_positive {a k : F32} (ha : NonnegNumber a) (hk : positiveWord k) (hfin : isFinite k = true) :
    NonnegNumber (fmul a k) := by
  obtain ⟨hnum, hsign⟩ := ha
  obtain ⟨hksign, hkzero, hknum⟩ := positiveWord_sign_and_class hk
  rcases isFinite_or_isInf hnum with hafin | hainf
  · rw [fmul_finite a k hafin hfin, hsign, hksign]
    exact nonnegNumber_pack_roundUnits _ _
  · rw [fmul_inf_number hainf hknum, hkzero, hsign, hksign]
    unfold NonnegNumber
    decide

/-- The tracked envelope is the magnitude of a number or the scaled old envelope (rule R160). -/
theorem NonnegNumber.agcTrack {c : Cfg} {env : F32} (henv : NonnegNumber env) (hfp : c.fp = .binary32)
    (hpos : positiveWord c.kDecay) (hfin : isFinite c.kDecay = true) (x : F32) :
    NonnegNumber (agcTrack c env (fabs x)) := by
  unfold Machine.agcTrack
  split
  · next hgt => exact ⟨(fgt_numbers _ _ hgt).1, signBit_fabs x⟩
  · rw [hfp, fpMul_binary32]
    exact henv.fmul_positive hpos hfin

/-- What is at least a number above zero has its sign bit clear. -/
theorem signBit_of_fle {q a : F32} (hq : 0 < orderKey q) (h : fle q a = true) : signBit a = false := by
  unfold fle at h
  simp only [Bool.and_eq_true, decide_eq_true_eq] at h
  have hle : orderKey q ≤ orderKey a := h.2
  unfold orderKey at hle hq
  cases hs : signBit a
  · rfl
  · simp only [hs, if_true] at hle
    omega

/-! The S-meter. -/

/-- A part of a whole, scaled to `0..top` and truncated, is in `0..top`. -/
theorem tdiv_scaled_range {x w top : Int} (hx : 0 ≤ x) (hxw : x ≤ w) (hw : 0 < w) (htop : 0 ≤ top) :
    0 ≤ (x * top).tdiv w ∧ (x * top).tdiv w ≤ top := by
  have hprod : 0 ≤ x * top := Int.mul_nonneg hx htop
  rw [Int.tdiv_eq_ediv_of_nonneg hprod]
  refine ⟨Int.ediv_nonneg hprod hw.le, Int.ediv_le_of_le_mul hw ?_⟩
  rw [Int.mul_comm top w]
  exact Int.mul_le_mul_of_nonneg_right hxw htop

/-- The S-meter's value is in [0, `SM_MAX`] for every envelope, when the ends of its domain are in order (rule R167). -/
theorem smeterValue_range {c : Cfg} (hdom : logPeak c c.smLoRef < logPeak c c.smHiRef) (env : F32) :
    0 ≤ smeterValue c env ∧ smeterValue c env ≤ c.smMax.toNat := by
  unfold smeterValue
  split
  · omega
  · exact tdiv_scaled_range (by omega) (by omega) (by omega) (Int.natCast_nonneg _)

/-! The mic meter. -/

/-- Biased at mid-scale, a code of `ADC_BITS` bits has at most the magnitude of the lowest one (rule R211). -/
theorem micMagnitude_le {c : Cfg} (hbits : 1 ≤ c.adcBits) (hbias : c.bias = 2 ^ (c.adcBits - 1)) (w : Word) :
    micMagnitude c (codeOperand c w) ≤ 2 ^ (c.adcBits - 1) := by
  have hcode : codeOperand c w < 2 ^ c.adcBits := Nat.mod_lt _ (by positivity)
  rw [← Nat.sub_add_cancel hbits, pow_succ] at hcode
  unfold micMagnitude
  rw [hbias]
  omega

/-- The meter's update writes the mic meter alone, and the held peak does not pass the old one and the magnitude. -/
theorem micUpdate_spec (m : Nat) (now : Word) (s : State) :
    ∃ peak decay hang, micUpdate m now s = { s with micPeak := peak, tDecay := decay, tHang := hang } ∧
      peak.toNat ≤ max s.micPeak.toNat m := by
  unfold micUpdate
  split
  · refine ⟨_, _, _, rfl, le_max_of_le_right ?_⟩
    rw [BitVec.toNat_ofNat]
    exact Nat.mod_le _ _
  · split
    · refine ⟨_, _, s.tHang, rfl, le_max_of_le_left ?_⟩
      rw [BitVec.toNat_ofNat]
      exact (Nat.mod_le _ _).trans (Nat.sub_le _ _)
    · exact ⟨s.micPeak, s.tDecay, s.tHang, rfl, le_max_left _ _⟩

/-! `STATUS`. -/

/-- Setting `ILL` touches no reserved bit. -/
theorem statusRead_setIll (w : Word) : statusRead (setIll w) = setIll (statusRead w) := by
  unfold statusRead setIll
  rw [BitVec.and_or_distrib_right, BitVec.and_self]

/-- Clearing `ILL` touches no reserved bit. -/
theorem statusRead_clearIll (w : Word) : statusRead (clearIll w) = clearIll (statusRead w) := by
  unfold statusRead clearIll
  rw [BitVec.and_assoc, BitVec.and_comm 0xFFFFFFFE#32, ← BitVec.and_assoc]

/-! Positions of the smoothers. -/

/-- A stage's advanced position is below `MA_LEN` (rule R112). -/
theorem maStageUnit_pos_lt {c : Cfg} (hlen : 1 ≤ c.maLen) (hstore : c.maLen ≤ 32) (st : MaStage) (x : F32) :
    (maStageUnit c st x).2.pos.toNat < c.maLen := by
  have hlt : (st.pos.toNat + 1) % c.maLen < c.maLen := Nat.mod_lt _ hlen
  unfold maStageUnit
  rw [BitVec.toNat_ofNat, Nat.mod_eq_of_lt (by omega)]
  exact hlt

/-- A stage keeps its position below `MA_LEN`, present or not. -/
theorem maStageAt_pos_lt {c : Cfg} (hlen : 1 ≤ c.maLen) (hstore : c.maLen ≤ 32) (k : Nat) (st : MaStage) (x : F32)
    (hst : st.pos.toNat < c.maLen) : (maStageAt c k st x).2.pos.toNat < c.maLen := by
  by_cases hk : k < c.maStages
  · rw [maStageAt_present c k st x hk]
    exact maStageUnit_pos_lt hlen hstore st x
  · rw [maStageAt_absent c k st x (by omega)]
    exact hst

/-- Every position of a smoother is below `MA_LEN` (10_state.md rule R28). -/
def MaState.Below (n : Nat) (v : MaState) : Prop :=
  ∀ st ∈ [v.stage0, v.stage1, v.stage2, v.stage3], st.pos.toNat < n

/-- A smoother keeps its positions below `MA_LEN` (rule R113). -/
theorem MaState.Below.maUnit {c : Cfg} {v : MaState} (h : v.Below c.maLen) (hlen : 1 ≤ c.maLen) (hstore : c.maLen ≤ 32)
    (x : F32) : (maUnit c v x).2.Below c.maLen := by
  unfold MaState.Below at *
  simp only [List.forall_mem_cons, List.not_mem_nil, false_implies, implies_true, and_true] at h ⊢
  obtain ⟨h0, h1, h2, h3⟩ := h
  exact ⟨maStageAt_pos_lt hlen hstore _ _ _ h0, maStageAt_pos_lt hlen hstore _ _ _ h1,
    maStageAt_pos_lt hlen hstore _ _ _ h2, maStageAt_pos_lt hlen hstore _ _ _ h3⟩

end Sys2Proof.Machine

/-! The invariant of the machine: each operation on the state keeps it, so each command and each step does. -/

namespace Sys2Proof.Safety

open Machine Claims

/-! Reset. -/

/-- The reset state satisfies the invariant under every configuration the invariant allows (10_state.md rule R38). -/
theorem inv_reset_with {c : Cfg} (hwf : c.wf = true) (henv : envConfig c) (input : List HostEvent) :
    Inv { State.reset with cfg := c, input := input } := by
  obtain ⟨-, -, -, -, -, -, -, -, -, ⟨hcap, -⟩, -, hlen, -⟩ := c.wf_iff.mp hwf
  exact
    { cfgWf := hwf
      cfgEnv := henv
      envNumber := nonnegNumber_posZero.1
      envSign := nonnegNumber_posZero.2
      smeterRange := Nat.zero_le _
      micRange := Nat.zero_le _
      statusReserved := (by decide : statusRead 0#32 = 0#32)
      dcbTied := fun k => by cases k <;> rfl
      firRange := fun k => by cases k <;> exact hcap
      maRange := fun k => by
        simp only [List.forall_mem_cons, List.not_mem_nil, false_implies, implies_true, and_true]
        cases k <;> exact ⟨hlen, hlen, hlen, hlen⟩ }

/-- With the spec's values the envelope stays positive: an admissible `MUTE_ENV` is at least `TARGET` / `MAX_GAIN`, which is
above zero. -/
theorem envConfig_ofOpen {p : OpenParams} (hwf : (Cfg.ofOpen p).wf = true) : envConfig (Cfg.ofOpen p) := by
  obtain ⟨-, -, -, -, -, -, -, hmute, -⟩ := (Cfg.wf_iff _).mp hwf
  refine ⟨rfl, ?_, signBit_of_fle ?_ hmute⟩
  · change fgt 0x3F7FFD61#32 posZero = true
    decide
  · change 0 < orderKey (fdiv 0x44FFE000#32 0x42200000#32)
    decide +kernel

/-- The configuration of the block after reset is well formed. -/
theorem cfg_wf : Config.cfg.wf = true := by
  have h := Config.openChoice.ok
  unfold OpenParams.admissible at h
  exact (Bool.and_eq_true_iff.mp h).1

section

variable {s : State}

/-! The parts of the state that the invariant does not bound. -/

theorem Inv.withResults (h : Inv s) (a b : Word) : Inv (s.withResults a b) := { h with }

theorem Inv.withInput (h : Inv s) (input : List HostEvent) : Inv { s with input := input } := { h with }

theorem Inv.setAp (h : Inv s) (k : ApInst) (v : ApState) : Inv (s.setAp k v) := by
  cases k <;> exact { h with }

/-! The banks of instances. -/

theorem Inv.setDcb (h : Inv s) (k : DcbInst) {v : DcbState} (hv : v.yPrev = v.s) : Inv (s.setDcb k v) := by
  have htied : ∀ j, ((s.setDcb k v).dcb j).yPrev = ((s.setDcb k v).dcb j).s := fun j => by
    rw [setDcb_dcb]
    split
    · exact hv
    · exact h.dcbTied j
  cases k <;> exact { h with dcbTied := htied }

theorem Inv.setFir (h : Inv s) (k : FirInst) {v : FirState} (hv : v.idx.toNat < s.cfg.firCap) : Inv (s.setFir k v) := by
  have hrange : ∀ j, ((s.setFir k v).fir j).idx.toNat < s.cfg.firCap := fun j => by
    rw [setFir_fir]
    split
    · exact hv
    · exact h.firRange j
  cases k <;> exact { h with firRange := hrange }

theorem Inv.setMa (h : Inv s) (k : MaInst) {v : MaState} (hv : v.Below s.cfg.maLen) : Inv (s.setMa k v) := by
  have hrange : ∀ j, ((s.setMa k v).ma j).Below s.cfg.maLen := fun j => by
    rw [setMa_ma]
    split
    · exact hv
    · exact h.maRange j
  cases k <;> exact { h with maRange := hrange }

/-! The registers. -/

theorem Inv.withEnv (h : Inv s) {e : F32} (he : NonnegNumber e) : Inv { s with env := e } :=
  { h with envNumber := he.1, envSign := he.2 }

theorem Inv.withSmeter (h : Inv s) {v : BitVec 8} (hv : v.toNat ≤ s.cfg.smMax.toNat) : Inv { s with smeter := v } :=
  { h with smeterRange := hv }

theorem Inv.withMic (h : Inv s) {peak : BitVec 16} (hpeak : peak.toNat ≤ 2 ^ (s.cfg.adcBits - 1)) (decay hang : Word) :
    Inv { s with micPeak := peak, tDecay := decay, tHang := hang } :=
  { h with micRange := hpeak }

theorem Inv.withStatus (h : Inv s) {w : Word} (hw : statusRead w = w) : Inv { s with status := w } :=
  { h with statusReserved := hw }

/-! One sample through one of the instances, and the operations on the registers. -/

theorem Inv.stepDcb (h : Inv s) (k : DcbInst) (x : F32) : Inv (stepDcb k x s).2 :=
  h.setDcb k (dcbUnit_tied s.cfg (s.dcb k) x)

theorem Inv.stepAp (h : Inv s) (k : ApInst) (x : F32) : Inv (stepAp k x s).2 :=
  h.setAp k _

theorem Inv.stepFir (h : Inv s) (k : FirInst) (x : F32) : Inv (stepFir k x s).2 := by
  obtain ⟨-, -, -, -, -, -, -, -, -, ⟨hcap, hstore⟩, -⟩ := s.cfg.wf_iff.mp h.cfgWf
  exact h.setFir k (firNext_lt s.cfg (s.fir k).idx hcap hstore)

theorem Inv.stepMa (h : Inv s) (k : MaInst) (x : F32) : Inv (stepMa k x s).2 := by
  obtain ⟨-, -, -, -, -, -, -, -, -, -, -, hlen, hstore⟩ := s.cfg.wf_iff.mp h.cfgWf
  have hbelow : (s.ma k).Below s.cfg.maLen := h.maRange k
  exact h.setMa k (hbelow.maUnit hlen hstore x)

theorem Inv.smoothRx (h : Inv s) (k : MaInst) (x : F32) : Inv (smoothRx k x s).2 := by
  unfold Machine.smoothRx
  split
  · exact h.stepMa k x
  · exact h

theorem Inv.stepAgc (h : Inv s) (x : F32) : Inv (stepAgc x s).2 := by
  obtain ⟨hfp, hdecay, -⟩ := h.cfgEnv
  obtain ⟨-, hfinite, -⟩ := s.cfg.wf_iff.mp h.cfgWf
  have hfin : isFinite s.cfg.kDecay = true := (isFinite_iff_finiteWord _).mpr (hfinite _ (by simp))
  have henv : NonnegNumber s.env := ⟨h.envNumber, h.envSign⟩
  exact h.withEnv (henv.agcTrack hfp ((fgt_posZero_iff _).mp hdecay) hfin x)

/-- `AGC_MUTE` writes an envelope that is a number and not negative. -/
theorem Inv.mute (h : Inv s) : Inv { s with env := s.cfg.muteEnv } := by
  obtain ⟨-, -, hsign⟩ := h.cfgEnv
  obtain ⟨-, hfinite, -⟩ := s.cfg.wf_iff.mp h.cfgWf
  have hfin : isFinite s.cfg.muteEnv = true := (isFinite_iff_finiteWord _).mpr (hfinite _ (by simp))
  exact h.withEnv ⟨isNaN_of_isFinite hfin, hsign⟩

theorem Inv.smeterUpdate (h : Inv s) : Inv { s with smeter := BitVec.ofNat 8 (smeterValue s.cfg s.env).toNat } := by
  obtain ⟨-, -, -, -, hdom, -⟩ := s.cfg.wf_iff.mp h.cfgWf
  obtain ⟨-, hle⟩ := smeterValue_range hdom s.env
  refine h.withSmeter ?_
  rw [BitVec.toNat_ofNat]
  exact (Nat.mod_le _ _).trans (Int.toNat_le.mpr hle)

theorem Inv.micUpdate (h : Inv s) (w now : Word) :
    Inv (micUpdate (micMagnitude s.cfg (codeOperand s.cfg w)) now s) := by
  obtain ⟨-, -, -, -, -, -, -, -, ⟨hbits, -, hbias⟩, -⟩ := s.cfg.wf_iff.mp h.cfgWf
  obtain ⟨peak, decay, hang, heq, hpeak⟩ := micUpdate_spec (micMagnitude s.cfg (codeOperand s.cfg w)) now s
  rw [heq]
  exact h.withMic (hpeak.trans (max_le h.micRange (micMagnitude_le hbits hbias w))) decay hang

theorem Inv.statusClear (h : Inv s) : Inv { s with status := clearIll s.status } :=
  h.withStatus (by rw [statusRead_clearIll, h.statusReserved])

theorem Inv.illegalCommand (h : Inv s) : Inv (illegalCommand s) :=
  (h.withStatus (w := setIll s.status) (by rw [statusRead_setIll, h.statusReserved])).withResults 0#32 0#32

theorem Inv.assertReset (h : Inv s) : Inv s.assertReset :=
  inv_reset_with h.cfgWf h.cfgEnv s.input

/-! Commands and steps. -/

/-- A completed outcome of the invariant. -/
theorem Inv.of_next {t u : State} (heq : (.next u : Host.Outcome State Fault Refusal) = .next t) (h : Inv u) : Inv t :=
  Host.Outcome.next.inj heq ▸ h

/-- Every command keeps the invariant: it is a chain of operations that each do. -/
theorem Inv.exec (h : Inv s) {i : Instr} {t : State} (heq : exec i s = .next t) : Inv t := by
  cases i with
  | nop => exact .of_next heq (h.withResults _ _)
  | rxSample mode opa opb =>
    exact .of_next heq <| h.stepDcb .rxI _ |>.stepDcb .rxQ _ |>.smoothRx .rxI _ |>.smoothRx .rxQ _ |>.stepAp .rxP _
      |>.stepAp .rxN _ |>.stepFir (rxFilter mode) _ |>.stepAgc _ |>.withResults _ _
  | txSample opa =>
    exact .of_next heq <| h.stepDcb .tx _ |>.stepFir .txShape _ |>.stepAp .txP _ |>.stepAp .txN _ |>.stepFir .txI _
      |>.stepFir .txQ _ |>.withResults _ _
  | agcMute => exact .of_next heq (h.mute.withResults _ _)
  | smeterUpdate => exact .of_next heq (h.smeterUpdate.withResults _ _)
  | micSample opa opb => exact .of_next heq ((h.micUpdate opa opb).withResults _ _)
  | read reg => exact .of_next heq (h.withResults _ _)
  | statusClear => exact .of_next heq (h.statusClear.withResults _ _)
  | dcbStep inst opa => exact .of_next heq ((h.stepDcb inst _).withResults _ _)
  | apStep inst opa => exact .of_next heq ((h.stepAp inst _).withResults _ _)
  | firStep inst opa => exact .of_next heq ((h.stepFir inst _).withResults _ _)
  | maStep inst opa => exact .of_next heq ((h.stepMa inst _).withResults _ _)
  | agcStep opa => exact .of_next heq ((h.stepAgc _).withResults _ _)

theorem Inv.perform (h : Inv s) {tr : Transaction} {t : State} (heq : perform tr s = .next t) : Inv t := by
  unfold Machine.perform at heq
  split at heq
  · exact h.exec heq
  · exact .of_next heq h.illegalCommand

/-- Every step keeps the invariant: nothing presented, a reset, or a presented command. -/
theorem Inv.step (h : Inv s) {t : State} (heq : step s = .next t) : Inv t := by
  unfold Machine.step at heq
  cases hin : s.input with
  | nil =>
    rw [takeEvent_nil s hin] at heq
    exact .of_next heq h
  | cons e rest =>
    rw [takeEvent_cons s e rest hin] at heq
    cases e with
    | reset lost => exact .of_next heq (h.withInput rest).assertReset
    | command tr => exact (h.withInput rest).perform heq

end

end Sys2Proof.Safety

namespace Sys2Proof.Scope

open Machine

/-- Settles O33: a step is an event taken and a chain of operations that each keep the invariant. -/
theorem invariantKeptByEveryStep : Obligations.InvariantKeptByEveryStep := by
  unfold Obligations.InvariantKeptByEveryStep
  exact fun _ _ h heq => h.step heq

/-- Settles O34: the reset state under an admissible configuration. -/
theorem invariantHoldsAtReset : Obligations.InvariantHoldsAtReset := by
  unfold Obligations.InvariantHoldsAtReset
  exact Safety.inv_reset_with Safety.cfg_wf (Safety.envConfig_ofOpen Safety.cfg_wf) []

end Sys2Proof.Scope

/-! The registers outside the banks of instances (10_state.md rules R29 to R32): what each operation and each command leaves
of them. -/

namespace Sys2Proof.Machine

/-- `ENV`, `SMETER`, the mic meter and `STATUS`: what the block keeps between commands besides its instances' state. -/
structure Registers where
  env : F32
  smeter : BitVec 8
  micPeak : BitVec 16
  tDecay : Word
  tHang : Word
  status : Word

def State.registers (s : State) : Registers := ⟨s.env, s.smeter, s.micPeak, s.tDecay, s.tHang, s.status⟩

/-! Writing one of the instances, or the result registers, keeps them. -/

@[simp] theorem registers_withResults (s : State) (a b : Word) : (s.withResults a b).registers = s.registers := rfl

@[simp] theorem registers_setDcb (s : State) (k : DcbInst) (v : DcbState) : (s.setDcb k v).registers = s.registers := by
  cases k <;> rfl

@[simp] theorem registers_setAp (s : State) (k : ApInst) (v : ApState) : (s.setAp k v).registers = s.registers := by
  cases k <;> rfl

@[simp] theorem registers_setFir (s : State) (k : FirInst) (v : FirState) : (s.setFir k v).registers = s.registers := by
  cases k <;> rfl

@[simp] theorem registers_setMa (s : State) (k : MaInst) (v : MaState) : (s.setMa k v).registers = s.registers := by
  cases k <;> rfl

/-! So does a sample through one of the instances. -/

@[simp] theorem registers_stepDcb (k : DcbInst) (x : F32) (s : State) : (stepDcb k x s).2.registers = s.registers :=
  registers_setDcb s k _

@[simp] theorem registers_stepAp (k : ApInst) (x : F32) (s : State) : (stepAp k x s).2.registers = s.registers :=
  registers_setAp s k _

@[simp] theorem registers_stepFir (k : FirInst) (x : F32) (s : State) : (stepFir k x s).2.registers = s.registers :=
  registers_setFir s k _

@[simp] theorem registers_stepMa (k : MaInst) (x : F32) (s : State) : (stepMa k x s).2.registers = s.registers :=
  registers_setMa s k _

@[simp] theorem registers_smoothRx (k : MaInst) (x : F32) (s : State) : (smoothRx k x s).2.registers = s.registers := by
  unfold smoothRx
  split
  · exact registers_stepMa k x s
  · rfl

/-- The AGC writes the envelope alone (rule R161). -/
theorem registers_stepAgc {s : State} {r : Registers} (hs : s.registers = r) (x : F32) :
    ∃ e, (stepAgc x s).2.registers = { r with env := e } :=
  ⟨agcTrack s.cfg s.env (fabs x), hs ▸ rfl⟩

/-! The commands. -/

/-- The commands that write `ENV` (rules R140, R162, R163). -/
def WritesEnv (i : Instr) : Prop := i = .agcMute ∨ (∃ x, i = .agcStep x) ∨ ∃ m a b, i = .rxSample m a b

/-- What a command does to the registers: keep them, or write those of its own, and then which command it is. -/
inductive RegisterUpdate (r : Registers) : Instr → Registers → Prop
  | keep (i : Instr) : RegisterUpdate r i r
  | env {i : Instr} (h : WritesEnv i) (e : F32) : RegisterUpdate r i { r with env := e }
  | smeter (v : BitVec 8) : RegisterUpdate r .smeterUpdate { r with smeter := v }
  | mic (a b : Word) (peak : BitVec 16) (decay hang : Word) :
      RegisterUpdate r (.micSample a b) { r with micPeak := peak, tDecay := decay, tHang := hang }
  | status (w : Word) : RegisterUpdate r .statusClear { r with status := w }

/-- Which command a changed register points to. -/
theorem RegisterUpdate.written_by {r r' : Registers} {i : Instr} (h : RegisterUpdate r i r') :
    (r'.env ≠ r.env → WritesEnv i) ∧ (r'.smeter ≠ r.smeter → i = .smeterUpdate) ∧
      (r'.micPeak ≠ r.micPeak ∨ r'.tDecay ≠ r.tDecay ∨ r'.tHang ≠ r.tHang → ∃ a b, i = .micSample a b) ∧
      (r'.status ≠ r.status → i = .statusClear) := by
  cases h with
  | keep => simp
  | env hw e => simp [hw]
  | smeter v => simp
  | mic a b peak decay hang => simp
  | status w => simp

/-- A command whose outcome is `u` updates the registers as `u` has them. -/
theorem RegisterUpdate.of_next {r : Registers} {i : Instr} {t u : State}
    (heq : (.next u : Host.Outcome State Fault Refusal) = .next t) (h : RegisterUpdate r i u.registers) :
    RegisterUpdate r i t.registers :=
  Host.Outcome.next.inj heq ▸ h

/-- A command that leaves the registers as they were. -/
theorem RegisterUpdate.of_kept {r r' : Registers} (i : Instr) (h : r' = r) : RegisterUpdate r i r' :=
  h ▸ .keep i

/-- `RX_SAMPLE` writes the envelope alone: only the AGC at the end of its chain works on none of the instances. -/
theorem execRxSample_registers {mode : RxMode} {opa opb : Word} {s t : State} (h : execRxSample mode opa opb s = .next t) :
    ∃ e, t.registers = { s.registers with env := e } := by
  rw [← Host.Outcome.next.inj h]
  refine registers_stepAgc ?_ _
  rw [registers_stepFir, registers_stepAp, registers_stepAp, registers_smoothRx, registers_smoothRx, registers_stepDcb,
    registers_stepDcb]

/-- `TX_SAMPLE` writes no register: every operation of its chain is a step of one of the instances. -/
theorem execTxSample_registers {opa : Word} {s t : State} (h : execTxSample opa s = .next t) :
    t.registers = s.registers := by
  rw [← Host.Outcome.next.inj h, registers_withResults, registers_stepFir, registers_stepFir, registers_stepAp,
    registers_stepAp, registers_stepFir, registers_stepDcb]

/-- `MIC_SAMPLE` writes the mic meter alone. -/
theorem execMicSample_registers {opa opb : Word} {s t : State} (h : execMicSample opa opb s = .next t) :
    ∃ peak decay hang, t.registers = { s.registers with micPeak := peak, tDecay := decay, tHang := hang } := by
  obtain ⟨peak, decay, hang, heq, -⟩ := micUpdate_spec (micMagnitude s.cfg (codeOperand s.cfg opa)) (timeOperand opb) s
  refine ⟨peak, decay, hang, ?_⟩
  rw [← Host.Outcome.next.inj h, registers_withResults, heq]
  rfl

/-- Every command updates the registers in one of these ways. -/
theorem exec_registers {i : Instr} {s t : State} (h : exec i s = .next t) :
    RegisterUpdate s.registers i t.registers := by
  cases i with
  | nop => exact .of_next h (.keep _)
  | rxSample mode opa opb =>
    obtain ⟨e, he⟩ := execRxSample_registers h
    exact he ▸ .env (.inr (.inr ⟨mode, opa, opb, rfl⟩)) e
  | txSample opa => exact .of_kept _ (execTxSample_registers h)
  | agcMute => exact .of_next h (.env (.inl rfl) s.cfg.muteEnv)
  | smeterUpdate => exact .of_next h (.smeter _)
  | micSample opa opb =>
    obtain ⟨peak, decay, hang, heq⟩ := execMicSample_registers h
    exact heq ▸ .mic opa opb peak decay hang
  | read reg => exact .of_next h (.keep _)
  | statusClear => exact .of_next h (.status _)
  | dcbStep inst opa => exact .of_next h (.of_kept _ (registers_stepDcb inst _ s))
  | apStep inst opa => exact .of_next h (.of_kept _ (registers_stepAp inst _ s))
  | firStep inst opa => exact .of_next h (.of_kept _ (registers_stepFir inst _ s))
  | maStep inst opa => exact .of_next h (.of_kept _ (registers_stepMa inst _ s))
  | agcStep opa =>
    obtain ⟨e, he⟩ := registers_stepAgc (s := s) rfl (f32Operand opa)
    exact .of_next h (he ▸ .env (.inr (.inl ⟨opa, rfl⟩)) e)

end Sys2Proof.Machine

/-! The entries of the histories after reset (10_state.md rule R38). -/

namespace Sys2Proof.Machine

/-- Every entry of a constant vector, and every position past its end, reads as the constant. -/
theorem getD_toList_replicate {n : Nat} (x : F32) (j : Nat) : (Vector.replicate n x).toList.getD j x = x := by
  rw [Vector.toList_replicate, List.getD_eq_getElem?_getD, List.getElem?_replicate]
  split <;> rfl

end Sys2Proof.Machine

/-! The statements about the registers, reset and the idle step. -/

namespace Sys2Proof.Scope

open Machine

/-- Settles O28: each way a command updates the registers says which of them it leaves. -/
theorem registersWrittenByTheirCommands : Obligations.RegistersWrittenByTheirCommands := by
  unfold Obligations.RegistersWrittenByTheirCommands
  intro i s t h
  exact (exec_registers h).written_by

/-- Settles O12: there is no event to take. -/
theorem nothingPresentedNothingHappens : Obligations.NothingPresentedNothingHappens := by
  unfold Obligations.NothingPresentedNothingHappens
  intro s hin
  unfold step
  rw [takeEvent_nil s hin]

/-- Settles O10: the reset values of rule R38, bank by bank. -/
theorem resetValues : Obligations.ResetValues := by
  unfold Obligations.ResetValues
  refine ⟨assertReset_dcb State.reset, assertReset_ap State.reset, fun k j => ?_, fun k => ?_, rfl, rfl, rfl, rfl, rfl, rfl,
    rfl, rfl⟩
  · have hfir : State.reset.fir k = FirState.zero := assertReset_fir State.reset k
    rw [hfir]
    exact ⟨getD_toList_replicate _ j, rfl⟩
  · have hma : State.reset.ma k = MaState.zero := assertReset_ma State.reset k
    have hstage : MaStage.zero.sum = 0#32 ∧ MaStage.zero.pos = 0#5 ∧ ∀ j, MaStage.zero.dly.toList.getD j 0#32 = 0#32 :=
      ⟨rfl, rfl, getD_toList_replicate _⟩
    rw [hma]
    simp only [List.forall_mem_cons, List.not_mem_nil, false_implies, implies_true, and_true]
    exact ⟨hstage, hstage, hstage, hstage⟩

end Sys2Proof.Scope

/-! The host's stream and the configuration (20_memory.md rules R52, R58): commands neither read nor write the stream, so
they commute with replacing it, and nothing writes the configuration. -/

namespace Sys2Proof.Machine

/-- The state with another host stream. -/
def State.withInput (s : State) (l : List HostEvent) : State := { s with input := l }

/-! The operations commute with replacing the stream. -/

@[simp] theorem withInput_micPeak (s : State) (l : List HostEvent) : (s.withInput l).micPeak = s.micPeak := rfl
@[simp] theorem withInput_tDecay (s : State) (l : List HostEvent) : (s.withInput l).tDecay = s.tDecay := rfl
@[simp] theorem withInput_tHang (s : State) (l : List HostEvent) : (s.withInput l).tHang = s.tHang := rfl
@[simp] theorem withInput_cfg (s : State) (l : List HostEvent) : (s.withInput l).cfg = s.cfg := rfl

@[simp] theorem withInput_withResults (s : State) (l : List HostEvent) (a b : Word) :
    (s.withInput l).withResults a b = (s.withResults a b).withInput l := rfl

@[simp] theorem readRegister_withInput (s : State) (l : List HostEvent) (reg : ReadReg) :
    readRegister (s.withInput l) reg = readRegister s reg := by
  cases reg <;> rfl

@[simp] theorem stepDcb_withInput (k : DcbInst) (x : F32) (s : State) (l : List HostEvent) :
    stepDcb k x (s.withInput l) = ((stepDcb k x s).1, (stepDcb k x s).2.withInput l) := by
  cases k <;> rfl

@[simp] theorem stepAp_withInput (k : ApInst) (x : F32) (s : State) (l : List HostEvent) :
    stepAp k x (s.withInput l) = ((stepAp k x s).1, (stepAp k x s).2.withInput l) := by
  cases k <;> rfl

@[simp] theorem stepFir_withInput (k : FirInst) (x : F32) (s : State) (l : List HostEvent) :
    stepFir k x (s.withInput l) = ((stepFir k x s).1, (stepFir k x s).2.withInput l) := by
  cases k <;> rfl

@[simp] theorem stepMa_withInput (k : MaInst) (x : F32) (s : State) (l : List HostEvent) :
    stepMa k x (s.withInput l) = ((stepMa k x s).1, (stepMa k x s).2.withInput l) := by
  cases k <;> rfl

@[simp] theorem smoothRx_withInput (k : MaInst) (x : F32) (s : State) (l : List HostEvent) :
    smoothRx k x (s.withInput l) = ((smoothRx k x s).1, (smoothRx k x s).2.withInput l) := by
  unfold smoothRx
  rw [withInput_cfg]
  split
  · exact stepMa_withInput k x s l
  · rfl

@[simp] theorem stepAgc_withInput (x : F32) (s : State) (l : List HostEvent) :
    stepAgc x (s.withInput l) = ((stepAgc x s).1, (stepAgc x s).2.withInput l) := rfl

@[simp] theorem micUpdate_withInput (m : Nat) (now : Word) (s : State) (l : List HostEvent) :
    micUpdate m now (s.withInput l) = (micUpdate m now s).withInput l := by
  unfold micUpdate
  rw [withInput_micPeak, withInput_tHang, withInput_tDecay, withInput_cfg]
  split
  · rfl
  · split <;> rfl

/-! So do the commands, which all complete. -/

/-- Every arm of `exec` answers a next state (60_exceptions.md rule R251). -/
theorem exec_completes (i : Instr) (s : State) : ∃ t, exec i s = .next t := by
  cases i <;> exact ⟨_, rfl⟩

/-- Two commands' outcomes that differ in the stream alone. -/
theorem next_withInput {t u v : State} {l : List HostEvent} (heq : (.next u : Host.Outcome State Fault Refusal) = .next t)
    (h : v = u.withInput l) : (.next v : Host.Outcome State Fault Refusal) = .next (t.withInput l) := by
  rw [h, Host.Outcome.next.inj heq]

/-- A command's meaning does not depend on the stream, and it leaves the stream alone. -/
theorem exec_withInput {i : Instr} {s t : State} (h : exec i s = .next t) (l : List HostEvent) :
    exec i (s.withInput l) = .next (t.withInput l) := by
  cases i with
  | nop => exact next_withInput h rfl
  | rxSample mode opa opb => exact next_withInput h (by simp)
  | txSample opa => exact next_withInput h (by simp)
  | agcMute => exact next_withInput h rfl
  | smeterUpdate => exact next_withInput h rfl
  | micSample opa opb => exact next_withInput h (by simp)
  | read reg => exact next_withInput h (by simp)
  | statusClear => exact next_withInput h rfl
  | dcbStep inst opa => exact next_withInput h (by simp)
  | apStep inst opa => exact next_withInput h (by simp)
  | firStep inst opa => exact next_withInput h (by simp)
  | maStep inst opa => exact next_withInput h (by simp)
  | agcStep opa => exact next_withInput h rfl

/-- A presented command leads to the state `Safety.after` names, under every stream, which it leaves alone. -/
theorem perform_withInput (tr : Transaction) (s : State) (l : List HostEvent) :
    perform tr (s.withInput l) = .next ((Safety.after tr s).withInput l) := by
  unfold Safety.after perform
  cases decode tr with
  | error e => rfl
  | ok i =>
    obtain ⟨t, ht⟩ := exec_completes i s
    simp only [ht]
    exact exec_withInput ht l

/-! A step takes the host's next event. -/

/-- With a command presented, the step performs it on the state whose stream has moved past it. -/
theorem step_command {s : State} {tr : Transaction} {rest : List HostEvent} (hin : s.input = .command tr :: rest) :
    step s = perform tr (s.withInput rest) := by
  unfold step
  rw [takeEvent_cons s _ rest hin]
  rfl

/-- With reset asserted, the step resets the state whose stream has moved past it. -/
theorem step_reset {s : State} {lost : Option Transaction} {rest : List HostEvent} (hin : s.input = .reset lost :: rest) :
    step s = .next (s.withInput rest).assertReset := by
  unfold step
  rw [takeEvent_cons s _ rest hin]
  rfl

/-- A legal command word performs the command it decodes to. -/
theorem perform_of_decode {tr : Transaction} {i : Instr} (h : decode tr = .ok i) (s : State) :
    perform tr s = exec i s := by
  unfold perform
  rw [h]

/-! Runs. -/

/-- A step performs the command presented first and leaves the rest of the stream. -/
theorem step_withInput_command (tr : Transaction) (s : State) (l : List HostEvent) :
    step (s.withInput (.command tr :: l)) = .next ((Safety.after tr s).withInput l) :=
  (step_command rfl).trans (perform_withInput tr s l)

/-- A run whose first step completes goes on from the next state. -/
theorem run_succ_of_next {M : Host.Core} {s t : M.State} (h : M.step s = .next t) (k : Nat) :
    M.run (k + 1) s = M.run k t := by
  rw [Host.Core.run, h]

theorem run_succ_of_step {s t : State} (h : step s = .next t) (k : Nat) :
    Host.Core.run Sys2Proof.core (k + 1) s = Host.Core.run Sys2Proof.core k t :=
  run_succ_of_next (M := Sys2Proof.core) (s := s) (t := t) h k

/-- A run over as many presented commands as it has steps performs them in order and leaves what is presented after
them. -/
theorem run_commands (ts : List Transaction) (rest : List HostEvent) (s : State) :
    Host.Core.run Sys2Proof.core ts.length (s.withInput (ts.map HostEvent.command ++ rest))
      = .next ((Safety.performAll ts s).withInput rest) := by
  induction ts generalizing s with
  | nil => rfl
  | cons tr ts ih =>
    exact (run_succ_of_step (step_withInput_command tr s _) ts.length).trans (ih _)

/-! The configuration. -/

@[simp] theorem stepDcb_cfg (k : DcbInst) (x : F32) (s : State) : (stepDcb k x s).2.cfg = s.cfg := setDcb_cfg s k _

@[simp] theorem stepAp_cfg (k : ApInst) (x : F32) (s : State) : (stepAp k x s).2.cfg = s.cfg := setAp_cfg s k _

@[simp] theorem stepFir_cfg (k : FirInst) (x : F32) (s : State) : (stepFir k x s).2.cfg = s.cfg := setFir_cfg s k _

@[simp] theorem stepMa_cfg (k : MaInst) (x : F32) (s : State) : (stepMa k x s).2.cfg = s.cfg := setMa_cfg s k _

@[simp] theorem smoothRx_cfg (k : MaInst) (x : F32) (s : State) : (smoothRx k x s).2.cfg = s.cfg := by
  unfold smoothRx
  split
  · exact stepMa_cfg k x s
  · rfl

@[simp] theorem stepAgc_cfg (x : F32) (s : State) : (stepAgc x s).2.cfg = s.cfg := rfl

@[simp] theorem micUpdate_cfg (m : Nat) (now : Word) (s : State) : (micUpdate m now s).cfg = s.cfg := by
  obtain ⟨peak, decay, hang, heq, -⟩ := micUpdate_spec m now s
  rw [heq]

/-- An outcome's configuration is read off the state it answers. -/
theorem cfg_of_next {c : Cfg} {t u : State} (heq : (.next u : Host.Outcome State Fault Refusal) = .next t)
    (h : u.cfg = c) : t.cfg = c :=
  Host.Outcome.next.inj heq ▸ h

theorem execRxSample_cfg {mode : RxMode} {opa opb : Word} {s t : State} (h : execRxSample mode opa opb s = .next t) :
    t.cfg = s.cfg := by
  rw [← Host.Outcome.next.inj h, withResults_cfg, stepAgc_cfg, stepFir_cfg, stepAp_cfg, stepAp_cfg, smoothRx_cfg,
    smoothRx_cfg, stepDcb_cfg, stepDcb_cfg]

theorem execTxSample_cfg {opa : Word} {s t : State} (h : execTxSample opa s = .next t) : t.cfg = s.cfg := by
  rw [← Host.Outcome.next.inj h, withResults_cfg, stepFir_cfg, stepFir_cfg, stepAp_cfg, stepAp_cfg, stepFir_cfg,
    stepDcb_cfg]

/-- No command writes the configuration: it is a chain of operations that each leave it. -/
theorem exec_cfg {i : Instr} {s t : State} (h : exec i s = .next t) : t.cfg = s.cfg := by
  cases i with
  | nop => exact cfg_of_next h rfl
  | rxSample mode opa opb => exact execRxSample_cfg h
  | txSample opa => exact execTxSample_cfg h
  | agcMute => exact cfg_of_next h rfl
  | smeterUpdate => exact cfg_of_next h rfl
  | micSample opa opb => exact cfg_of_next h (by simp)
  | read reg => exact cfg_of_next h rfl
  | statusClear => exact cfg_of_next h rfl
  | dcbStep inst opa => exact cfg_of_next h (stepDcb_cfg inst _ s)
  | apStep inst opa => exact cfg_of_next h (stepAp_cfg inst _ s)
  | firStep inst opa => exact cfg_of_next h (stepFir_cfg inst _ s)
  | maStep inst opa => exact cfg_of_next h (stepMa_cfg inst _ s)
  | agcStep opa => exact cfg_of_next h rfl

/-- Nor does a presented word, legal or not. -/
theorem perform_cfg {tr : Transaction} {s t : State} (h : perform tr s = .next t) : t.cfg = s.cfg := by
  unfold perform at h
  split at h
  · exact exec_cfg h
  · exact cfg_of_next h (illegalCommand_cfg s)

/-! The commands rule R55 of 20_memory.md calls idempotent. -/

@[simp] theorem readRegister_withResults (s : State) (a b : Word) (reg : ReadReg) :
    readRegister (s.withResults a b) reg = readRegister s reg := by
  cases reg <;> rfl

/-- Clearing `ILL` twice is clearing it once. -/
@[simp] theorem clearIll_clearIll (w : Word) : clearIll (clearIll w) = clearIll w := by
  unfold clearIll
  rw [BitVec.and_assoc, BitVec.and_self]

theorem execRead_idempotent {reg : ReadReg} {s t : State} (h : execRead reg s = .next t) : execRead reg t = .next t := by
  unfold execRead at h ⊢
  rw [← Host.Outcome.next.inj h, readRegister_withResults, withResults_withResults]

theorem execStatusClear_idempotent {s t : State} (h : execStatusClear s = .next t) : execStatusClear t = .next t := by
  unfold execStatusClear at h ⊢
  rw [← Host.Outcome.next.inj h, withResults_status, clearIll_clearIll]
  rfl

/-- `AGC_MUTE` writes a value that depends on the configuration alone. -/
theorem execAgcMute_idempotent {s t : State} (h : execAgcMute s = .next t) : execAgcMute t = .next t := by
  unfold execAgcMute at h ⊢
  rw [← Host.Outcome.next.inj h]
  rfl

theorem execNop_idempotent {s t : State} (h : execNop s = .next t) : execNop t = .next t := by
  unfold execNop at h ⊢
  rw [← Host.Outcome.next.inj h, withResults_withResults]

end Sys2Proof.Machine

/-! The statements about presented commands, runs and the configuration. -/

namespace Sys2Proof.Scope

open Machine

/-- Settles O7: the event is taken, and the word decodes. -/
theorem stepPerformsDecodedCommand : Obligations.StepPerformsDecodedCommand := by
  unfold Obligations.StepPerformsDecodedCommand
  intro s tr rest i hin hdec
  exact (step_command hin).trans (perform_of_decode hdec _)

/-- Settles O13: by induction on the commands, each of which leaves the rest of the stream alone. -/
theorem runIsSequential : Obligations.RunIsSequential := by
  unfold Obligations.RunIsSequential
  intro ts s
  have h := run_commands ts [] s
  rwa [List.append_nil] at h

/-- Settles O29: idle, reset and presented steps each leave the configuration. -/
theorem configurationNeverChanges : Obligations.ConfigurationNeverChanges := by
  unfold Obligations.ConfigurationNeverChanges
  intro s t h
  match hin : s.input with
  | [] =>
    rw [nothingPresentedNothingHappens s hin] at h
    exact cfg_of_next h rfl
  | .reset lost :: rest =>
    rw [step_reset hin] at h
    exact cfg_of_next h (assertReset_cfg _)
  | .command tr :: rest =>
    rw [step_command hin] at h
    exact (perform_cfg h).trans (withInput_cfg s rest)

/-- Settles O30: what each of these commands writes depends on nothing it writes. -/
theorem idempotentCommands : Obligations.IdempotentCommands := by
  unfold Obligations.IdempotentCommands
  intro i s t hi h
  cases i with
  | nop => exact execNop_idempotent h
  | read reg => exact execRead_idempotent h
  | statusClear => exact execStatusClear_idempotent h
  | agcMute => exact execAgcMute_idempotent h
  | _ => exact absurd hi Bool.false_ne_true

end Sys2Proof.Scope

/-! Reading rule R73's map backwards (30_encoding.md rules R71 to R74). `Instr.op` and `Instr.sel` are the fields of a
command's word and `Instr.withOperands` puts other operand words where the command holds one; the decoder answers `i`
exactly when the word has the fields of `i` and the operand words are the ones `i` holds. -/

namespace Sys2Proof

/-- The `OP` of a command (rule R73). -/
def Instr.op : Instr → BitVec 8
  | .nop => 0x00#8
  | .rxSample _ _ _ => 0x01#8
  | .txSample _ => 0x02#8
  | .agcMute => 0x03#8
  | .smeterUpdate => 0x04#8
  | .micSample _ _ => 0x05#8
  | .read _ => 0x06#8
  | .statusClear => 0x07#8
  | .dcbStep _ _ => 0x10#8
  | .apStep _ _ => 0x11#8
  | .firStep _ _ => 0x12#8
  | .maStep _ _ => 0x13#8
  | .agcStep _ => 0x14#8

/-- The `SEL` of a command, 0 where rule R73 allows no other. -/
def Instr.sel : Instr → BitVec 4
  | .rxSample m _ _ => m.sel
  | .read r => r.sel
  | .dcbStep k _ => k.sel
  | .apStep k _ => k.sel
  | .firStep k _ => k.sel
  | .maStep k _ => k.sel
  | _ => 0#4

/-- The command with other operand words in place of those it holds (rule R74); a word it ignores is dropped. -/
def Instr.withOperands (i : Instr) (a b : Word) : Instr :=
  match i with
  | .rxSample m _ _ => .rxSample m a b
  | .txSample _ => .txSample a
  | .micSample _ _ => .micSample a b
  | .dcbStep k _ => .dcbStep k a
  | .apStep k _ => .apStep k a
  | .firStep k _ => .firStep k a
  | .maStep k _ => .maStep k a
  | .agcStep _ => .agcStep a
  | i => i

/-! What the encoder writes. -/

@[simp] theorem encode_cmd (i : Instr) : (encode i).cmd = cmdWord i.op i.sel := by cases i <;> rfl

@[simp] theorem withOperands_encode (i : Instr) : i.withOperands (encode i).opa (encode i).opb = i := by cases i <;> rfl

/-- A command holds its first operand word, or ignores it and has it encoded as 0. -/
theorem opa_kept_or_ignored {i : Instr} {a b : Word} (h : i.withOperands a b = i) :
    (encode i).opa = a ∨ (encode i).opa = 0#32 ∧ ∀ a', i.withOperands a' b = i := by
  cases i with
  | nop | agcMute | smeterUpdate | read | statusClear => exact .inr ⟨rfl, fun _ => rfl⟩
  | _ => cases h; exact .inl rfl

/-- A command holds its second operand word, or ignores it and has it encoded as 0. -/
theorem opb_kept_or_ignored {i : Instr} {a b : Word} (h : i.withOperands a b = i) :
    (encode i).opb = b ∨ (encode i).opb = 0#32 ∧ ∀ b', i.withOperands a b' = i := by
  cases i with
  | rxSample | micSample => cases h; exact .inl rfl
  | _ => exact .inr ⟨rfl, fun _ => h⟩

/-! The selectors. -/

/-- What `f` reads from a `SEL` value is encoded with that value. -/
def ReadsSelector {α : Type} (f : Nat → Option α) (sel : α → BitVec 4) : Prop :=
  ∀ n k, f n = some k → n = (sel k).toNat

theorem rxModeOfSel_reads : ReadsSelector rxModeOfSel RxMode.sel := fun n k => by
  unfold rxModeOfSel
  split <;> rintro ⟨⟩ <;> rfl

theorem readRegOfSel_reads : ReadsSelector readRegOfSel ReadReg.sel := fun n k => by
  unfold readRegOfSel
  split <;> rintro ⟨⟩ <;> rfl

theorem dcbOfSel_reads : ReadsSelector dcbOfSel DcbInst.sel := fun n k => by
  unfold dcbOfSel
  split <;> rintro ⟨⟩ <;> rfl

theorem apOfSel_reads : ReadsSelector apOfSel ApInst.sel := fun n k => by
  unfold apOfSel
  split <;> rintro ⟨⟩ <;> rfl

theorem firOfSel_reads : ReadsSelector firOfSel FirInst.sel := fun n k => by
  unfold firOfSel
  split <;> rintro ⟨⟩ <;> rfl

theorem maOfSel_reads : ReadsSelector maOfSel MaInst.sel := fun n k => by
  unfold maOfSel
  split <;> rintro ⟨⟩ <;> rfl

/-! The rows of the map. -/

/-- The row `o` of the map at `OP` = `op`, `SEL` = `n` and operand words `a`, `b` answers only a command of these fields
and operands. -/
def RowAnswers (op : BitVec 8) (n : Nat) (a b : Word) (o : Option Instr) : Prop :=
  ∀ i, o = some i → op.toNat = i.op.toNat ∧ n = i.sel.toNat ∧ i.withOperands a b = i

/-- A row whose only legal `SEL` is 0. -/
theorem RowAnswers.onlySelZero {n : Nat} {a b : Word} {i : Instr} (hsel : i.sel = 0#4) (hops : i.withOperands a b = i) :
    RowAnswers i.op n a b (onlySelZero i n) := by
  intro j hj
  obtain ⟨hn, rfl⟩ : n = 0 ∧ i = j := by simpa [Sys2Proof.onlySelZero] using hj
  exact ⟨rfl, by rw [hn, hsel]; rfl, hops⟩

/-- A row whose `SEL` chooses among named values. -/
theorem RowAnswers.map {α : Type} {f : Nat → Option α} {sel : α → BitVec 4} (hf : ReadsSelector f sel) {op : BitVec 8}
    {n : Nat} {a b : Word} {g : α → Instr}
    (hg : ∀ k, (g k).op = op ∧ (g k).sel = sel k ∧ (g k).withOperands a b = g k) :
    RowAnswers op n a b ((f n).map g) := by
  intro j hj
  obtain ⟨k, hk, rfl⟩ := Option.map_eq_some_iff.mp hj
  obtain ⟨hop, hsel, hops⟩ := hg k
  exact ⟨by rw [hop], by rw [hsel]; exact hf n k hk, hops⟩

/-- Whatever the map answers has the fields and operands it was read from. -/
theorem opcodeMap_answers {op n : Nat} {a b : Word} {i : Instr} (h : opcodeMap op n a b = some (some i)) :
    op = i.op.toNat ∧ n = i.sel.toNat ∧ i.withOperands a b = i := by
  unfold opcodeMap at h
  split at h <;> simp only [Option.some.injEq, reduceCtorEq] at h
  · exact RowAnswers.onlySelZero rfl rfl i h
  · exact RowAnswers.map rxModeOfSel_reads (op := 0x01#8) (fun _ => ⟨rfl, rfl, rfl⟩) i h
  · exact RowAnswers.onlySelZero rfl rfl i h
  · exact RowAnswers.onlySelZero rfl rfl i h
  · exact RowAnswers.onlySelZero rfl rfl i h
  · exact RowAnswers.onlySelZero rfl rfl i h
  · exact RowAnswers.map readRegOfSel_reads (op := 0x06#8) (fun _ => ⟨rfl, rfl, rfl⟩) i h
  · exact RowAnswers.onlySelZero rfl rfl i h
  · exact RowAnswers.map dcbOfSel_reads (op := 0x10#8) (fun _ => ⟨rfl, rfl, rfl⟩) i h
  · exact RowAnswers.map apOfSel_reads (op := 0x11#8) (fun _ => ⟨rfl, rfl, rfl⟩) i h
  · exact RowAnswers.map firOfSel_reads (op := 0x12#8) (fun _ => ⟨rfl, rfl, rfl⟩) i h
  · exact RowAnswers.map maOfSel_reads (op := 0x13#8) (fun _ => ⟨rfl, rfl, rfl⟩) i h
  · exact RowAnswers.onlySelZero rfl rfl i h

/-- The map answers a command at the command's own fields, with the operand words it is given. -/
theorem opcodeMap_fields (i : Instr) (a b : Word) :
    opcodeMap i.op.toNat i.sel.toNat a b = some (some (i.withOperands a b)) := by
  cases i with
  | rxSample k | read k | dcbStep k | apStep k | firStep k | maStep k => cases k <;> rfl
  | _ => rfl

/-! The decoder. -/

/-- A word with `RSV` = 0 is built from its other two fields. -/
theorem cmdWord_fields {c : Word} (h : rsvField c = 0#20) : cmdWord (opField c) (selField c) = c := by
  have hsplit : rsvField c ++ selField c ++ opField c = c := by
    unfold rsvField selField opField
    rw [BitVec.extractLsb'_append_extractLsb'_eq_extractLsb' (show 12 = 8 + 4 from rfl),
      BitVec.extractLsb'_append_extractLsb'_eq_extractLsb' (show 8 = 0 + 8 from rfl)]
    exact BitVec.extractLsb'_eq_self
  rwa [h] at hsplit

/-- The decoder answers what the map gives for the fields of a word with `RSV` = 0. -/
theorem decode_eq_ok_iff_fields {t : Transaction} {i : Instr} :
    decode t = .ok i ↔ rsvField t.cmd = 0#20 ∧
      opcodeMap (opField t.cmd).toNat (selField t.cmd).toNat t.opa t.opb = some (some i) := by
  unfold decode
  split
  · simp_all
  · split <;> simp_all

/-- The decoder answers `i` exactly on the word of `i` with the operand words `i` holds. -/
theorem decode_eq_ok_iff {t : Transaction} {i : Instr} :
    decode t = .ok i ↔ t.cmd = cmdWord i.op i.sel ∧ i.withOperands t.opa t.opb = i := by
  rw [decode_eq_ok_iff_fields]
  constructor
  · rintro ⟨hrsv, hmap⟩
    obtain ⟨hop, hsel, hops⟩ := opcodeMap_answers hmap
    rw [← BitVec.eq_of_toNat_eq hop, ← BitVec.eq_of_toNat_eq hsel]
    exact ⟨(cmdWord_fields hrsv).symm, hops⟩
  · rintro ⟨hcmd, hops⟩
    rw [hcmd, opField_cmdWord, selField_cmdWord, opcodeMap_fields, hops]
    exact ⟨rsvField_cmdWord _ _, rfl⟩

/-- A word decodes to the command whose fields it has, when the command holds the operand words. -/
theorem decode_of_fields {c a b : Word} {i : Instr} (hrsv : rsvField c = 0#20) (hop : opField c = i.op)
    (hsel : selField c = i.sel) (hops : i.withOperands a b = i) : decode ⟨c, a, b⟩ = .ok i :=
  decode_eq_ok_iff.mpr ⟨by rw [← hop, ← hsel, cmdWord_fields hrsv], hops⟩

/-- Decoding what was encoded gives the command back. -/
theorem decode_encode (i : Instr) : decode (encode i) = .ok i :=
  decode_eq_ok_iff.mpr ⟨encode_cmd i, withOperands_encode i⟩

/-! The byte form (20_memory.md rule R54). -/

/-- A word is built back from its four bytes. -/
theorem wordOfBytes_extract (w : Word) :
    wordOfBytes (w.extractLsb' 0 8) (w.extractLsb' 8 8) (w.extractLsb' 16 8) (w.extractLsb' 24 8) = w := by
  unfold wordOfBytes
  rw [BitVec.extractLsb'_append_extractLsb'_eq_extractLsb' (show 24 = 16 + 8 from rfl),
    BitVec.extractLsb'_append_extractLsb'_eq_extractLsb' (show 16 = 8 + 8 from rfl),
    BitVec.extractLsb'_append_extractLsb'_eq_extractLsb' (show 8 = 0 + 8 from rfl)]
  exact BitVec.extractLsb'_eq_self

/-- The byte decoder on the bytes of three words answers what the decoder answers on the words. -/
theorem decodeBytes_bytesOfWord {t : Transaction} {i : Instr} (h : decode t = .ok i) (rest : List Byte) :
    decodeBytes (bytesOfWord t.cmd ++ bytesOfWord t.opa ++ bytesOfWord t.opb ++ rest) = .ok (i, rest) := by
  simp only [bytesOfWord, List.cons_append, List.nil_append, decodeBytes, wordOfBytes_extract, h]

end Sys2Proof

/-! Legal words (rule R72): the list of legal pairs and the map agree. -/

namespace Sys2Proof

open Machine Claims

/-- `OP` and `SEL` of a command word. -/
def fieldPair (c : Word) : Nat × Nat := ((opField c).toNat, (selField c).toNat)

theorem fieldPair_eq (c : Word) : fieldPair c = (c.toNat % 256, c.toNat / 256 % 16) := by
  simp [fieldPair, opField, selField, BitVec.extractLsb'_toNat, Nat.shiftRight_eq_div_pow]

theorem rsvField_eq_zero_iff (c : Word) : rsvField c = 0#20 ↔ c.toNat / 2 ^ 12 = 0 := by
  have hlt := c.isLt
  rw [← BitVec.toNat_inj, rsvField, BitVec.extractLsb'_toNat, Nat.shiftRight_eq_div_pow, BitVec.toNat_ofNat]
  omega

/-- Rule R72 by the fields of rule R71. -/
theorem legalWord_iff (c : Word) : legalWord c ↔ rsvField c = 0#20 ∧ fieldPair c ∈ legalPairs := by
  rw [legalWord, rsvField_eq_zero_iff, fieldPair_eq]

/-- The fields of every command stand in the list. -/
theorem fields_mem_legalPairs (i : Instr) : (i.op.toNat, i.sel.toNat) ∈ legalPairs := by
  cases i with
  | rxSample k | read k | dcbStep k | apStep k | firStep k | maStep k => cases k <;> exact of_decide_eq_true rfl
  | _ => exact of_decide_eq_true rfl

/-- The map answers a command exactly at the pairs of the list, whatever the operand words. -/
theorem exists_opcodeMap_iff (op n : Nat) (a b : Word) :
    (∃ i, opcodeMap op n a b = some (some i)) ↔ (op, n) ∈ legalPairs := by
  constructor
  · rintro ⟨i, hi⟩
    obtain ⟨rfl, rfl, -⟩ := opcodeMap_answers hi
    exact fields_mem_legalPairs i
  · intro h
    have hall : legalPairs.all (fun p => (opcodeMap p.1 p.2 a b).join.isSome) = true := rfl
    obtain ⟨i, hi⟩ := Option.isSome_iff_exists.mp (List.all_eq_true.mp hall _ h)
    exact ⟨i, Option.join_eq_some_iff.mp hi⟩

theorem exists_decode_iff_legalWord (t : Transaction) : (∃ i, decode t = .ok i) ↔ legalWord t.cmd := by
  simp only [decode_eq_ok_iff_fields, exists_and_left, exists_opcodeMap_iff]
  exact (legalWord_iff t.cmd).symm

/-- A word that decodes to no command is an illegal command (60_exceptions.md rule R250). -/
theorem perform_of_not_decode {t : Transaction} (h : ¬ ∃ i, decode t = .ok i) (s : State) :
    perform t s = .next (illegalCommand s) := by
  unfold perform
  split
  next i hi => exact absurd ⟨i, hi⟩ h
  next => rfl

/-- Rule R78's table lists the forms in the order of rule R73's pairs. -/
theorem asmForms_fieldPairs : (asmForms.map AsmForm.cmd).map fieldPair = legalPairs := by rfl

theorem asmForms_rsvField : ∀ f ∈ asmForms, rsvField f.cmd = 0#20 := by decide

end Sys2Proof

/-! CODE operands (rule R74): the commands read only the code of the word. -/

namespace Sys2Proof.Machine

open Claims

theorem codeOperand_eq_code (c : Cfg) (w : Word) : codeOperand c w = code c w := rfl

theorem codeToF32_congr {c : Cfg} {a a' : Word} (h : code c a = code c a') : codeToF32 c a = codeToF32 c a' := by
  rw [codeToF32, codeToF32, codeOperand_eq_code, codeOperand_eq_code, h]

theorem execRxSample_code_congr {s : State} (m : RxMode) {a a' b b' : Word} (ha : code s.cfg a = code s.cfg a')
    (hb : code s.cfg b = code s.cfg b') : execRxSample m a b s = execRxSample m a' b' s := by
  unfold execRxSample
  rw [codeToF32_congr ha, codeToF32_congr hb]

theorem execTxSample_code_congr {s : State} {a a' : Word} (ha : code s.cfg a = code s.cfg a') :
    execTxSample a s = execTxSample a' s := by
  unfold execTxSample
  rw [codeToF32_congr ha]

theorem execMicSample_code_congr {s : State} {a a' : Word} (now : Word) (ha : code s.cfg a = code s.cfg a') :
    execMicSample a now s = execMicSample a' now s := by
  unfold execMicSample
  rw [codeOperand_eq_code, codeOperand_eq_code, ha]

end Sys2Proof.Machine

/-! The statements about the encoding. -/

namespace Sys2Proof.Scope

open Machine Claims

/-- Settles O1: the bytes give back the three words, and the words decode to the command encoded. -/
theorem commandBytesRoundTrip : Obligations.CommandBytesRoundTrip := by
  unfold Obligations.CommandBytesRoundTrip
  intro i rest
  exact decodeBytes_bytesOfWord (decode_encode i) rest

/-- Settles O2: the map answers at the listed pairs alone, and any other word is an illegal command. -/
theorem legalCommandWordsExactly : Obligations.LegalCommandWordsExactly := by
  unfold Obligations.LegalCommandWordsExactly
  refine fun t => ⟨exists_decode_iff_legalWord t, fun hill s => ?_⟩
  rw [perform_of_not_decode (mt (exists_decode_iff_legalWord t).mp hill)]
  rfl

/-- Settles O3: a decoded word is the command's own, and an operand word the command does not hold may be any word. -/
theorem decodedCommandReencodes : Obligations.DecodedCommandReencodes := by
  unfold Obligations.DecodedCommandReencodes
  intro t i h
  obtain ⟨hcmd, hops⟩ := decode_eq_ok_iff.mp h
  refine ⟨(encode_cmd i).trans hcmd.symm, decode_encode i, ?_, ?_⟩
  · exact (opa_kept_or_ignored hops).imp_right fun ⟨hzero, hany⟩ =>
      ⟨hzero, fun a => decode_eq_ok_iff.mpr ⟨hcmd, hany a⟩⟩
  · exact (opb_kept_or_ignored hops).imp_right fun ⟨hzero, hany⟩ =>
      ⟨hzero, fun b => decode_eq_ok_iff.mpr ⟨hcmd, hany b⟩⟩

/-- Settles O4: each written word has the fields of its command, and the command holds its operand words. -/
theorem writtenWordsDecode : Obligations.WrittenWordsDecode := by
  unfold Obligations.WrittenWordsDecode
  intro a b
  and_intros <;> exact decode_of_fields rfl rfl rfl rfl

/-- Settles O5: the forms are the legal pairs in order, so they are legal, distinct and as many. -/
theorem assemblerFormsAreLegal : Obligations.AssemblerFormsAreLegal := by
  unfold Obligations.AssemblerFormsAreLegal
  refine ⟨fun f hf => (legalWord_iff f.cmd).mpr ⟨asmForms_rsvField f hf, ?_⟩, ?_, ?_⟩
  · rw [← asmForms_fieldPairs]
    exact List.mem_map_of_mem (List.mem_map_of_mem hf)
  · have hpairs : legalPairs.Nodup := by decide
    rw [← asmForms_fieldPairs] at hpairs
    exact hpairs.of_map
  · rw [← asmForms_fieldPairs, List.length_map, List.length_map]

/-- Settles O6: each command reads a CODE operand through its code alone. -/
theorem codeHighBitsIgnored : Obligations.CodeHighBitsIgnored := by
  unfold Obligations.CodeHighBitsIgnored
  intro s m a a' b b' now ha hb
  exact ⟨execRxSample_code_congr m ha hb, execTxSample_code_congr ha, execMicSample_code_congr now ha⟩

end Sys2Proof.Scope

/-! The unit functions of 40_stream_filters.md as the statements spell them, and the unit-step commands that run them
(rules R100 to R117). -/

namespace Sys2Proof.Machine

open Claims

/-- An entry inside a vector, read off its list. -/
theorem getD_toList_of_lt {n : Nat} (v : Vector F32 n) {i : Nat} (h : i < n) (d : F32) : v.toList.getD i d = v[i] := by
  rw [List.getD_eq_getElem _ _ (by rwa [Vector.length_toList]), Vector.getElem_toList]

/-! DC blockers and all-pass cascades. -/

theorem exec_dcbStep (k : DcbInst) (x : Word) (s : State) :
    exec (.dcbStep k x) s = .next ((s.setDcb k ⟨dcbNext s.cfg (s.dcb k) x, x, dcbNext s.cfg (s.dcb k) x⟩).withResults
      (dcbNext s.cfg (s.dcb k) x) 0#32) := rfl

theorem exec_apStep (k : ApInst) (x : Word) (s : State) :
    exec (.apStep k x) s = .next ((s.setAp k (cascade s.cfg (apCoeffs s.cfg k) (s.ap k) x).2).withResults
      (cascade s.cfg (apCoeffs s.cfg k) (s.ap k) x).1 0#32) := rfl

/-! Smoothers. -/

theorem maStageUnit_eq_boxcar (c : Cfg) (st : MaStage) (x : F32) : maStageUnit c st x = boxcar c st x := by
  unfold maStageUnit boxcar
  rw [getD_toList_of_lt st.dly st.pos.isLt]
  rfl

theorem maStageAt_eq_boxcar (c : Cfg) (k : Nat) (st : MaStage) (x : F32) :
    maStageAt c k st x = if k < c.maStages then boxcar c st x else (x, st) := by
  rw [maStageAt, maStageUnit_eq_boxcar]

theorem maUnit_eq_smoother (c : Cfg) (st : MaState) (x : F32) : maUnit c st x = smoother c st x := by
  unfold maUnit smoother
  simp only [maStageAt_eq_boxcar]

theorem exec_maStep (k : MaInst) (x : Word) (s : State) :
    exec (.maStep k x) s = .next ((s.setMa k (smoother s.cfg (s.ma k) x).2).withResults
      (smoother s.cfg (s.ma k) x).1 0#32) := by
  rw [← maUnit_eq_smoother]
  rfl

/-! FIR convolvers. The sum of rule R107, with the history entry of each coefficient given by a function. -/

/-- The products of the first `L` coefficients `h` with the samples `f`, added in increasing order from +0.0. -/
def innerProduct (c : Cfg) (h f : Nat → F32) (L : Nat) : F32 :=
  (List.range L).foldl (fun acc j => fpAdd c.fp acc (fpMul c.fp (h j) (f j))) posZero

theorem innerProduct_succ (c : Cfg) (h f : Nat → F32) (L : Nat) :
    innerProduct c h f (L + 1) = fpAdd c.fp (innerProduct c h f L) (fpMul c.fp (h L) (f L)) := by
  rw [innerProduct, List.range_succ, List.foldl_append]
  rfl

/-- The sum reads the samples of the table's positions alone. -/
theorem innerProduct_congr (c : Cfg) (h : Nat → F32) {f g : Nat → F32} {L : Nat} (hfg : ∀ j < L, f j = g j) :
    innerProduct c h f L = innerProduct c h g L :=
  List.foldl_ext _ _ _ fun _ j hj => by rw [hfg j (List.mem_range.mp hj)]

/-- The circular sum is the inner product with the entries at rule R107's indices. -/
theorem firSum_eq_foldl (c : Cfg) (buf : Vector F32 Config.firStore) (idx : BitVec 8) (table : List F32) (j : Nat)
    (acc : F32) :
    firSum c buf idx table j acc = (List.range table.length).foldl
      (fun acc i => fpAdd c.fp acc (fpMul c.fp (table.getD i posZero) (firRead buf (firIndex c idx (j + i))))) acc := by
  induction table generalizing j acc with
  | nil => rfl
  | cons h hs ih =>
    rw [firSum, ih, List.length_cons, List.range_succ_eq_map, List.foldl_cons, List.foldl_map]
    simp only [List.getD_cons_zero, List.getD_cons_succ, Nat.add_zero, Nat.add_assoc, Nat.add_comm 1]

theorem firUnit_output (c : Cfg) (table : List F32) (st : FirState) (x : F32) :
    (firUnit c table st x).1 = innerProduct c (table.getD · posZero)
      (fun j => firRead (firWrite st.buf st.idx x) (firIndex c st.idx j)) table.length := by
  change firSum c _ _ table 0 posZero = _
  rw [firSum_eq_foldl]
  simp only [Nat.zero_add]
  rfl

/-- The entry the statements read on whole numbers is the one at the masked index. -/
theorem firRead_firIndex (c : Cfg) (buf : Vector F32 Config.firStore) (idx : BitVec 8) (j : Nat) (hpos : 1 ≤ c.firCap)
    (hcap : c.firCap ≤ 256) : firRead buf (firIndex c idx j) = historyAt c buf idx.toNat j := by
  rw [historyAt, ← firIndex_toNat c idx j hpos hcap, Int.toNat_natCast, getD_toList_of_lt buf (firIndex c idx j).isLt]
  rfl

theorem firUnit_eq_convolve {c : Cfg} {table : List F32} (hcap : c.firCap ≤ 256) (hlen : table.length ≤ c.firCap)
    (st : FirState) (x : F32) : firUnit c table st x = convolve c table st x := by
  refine Prod.ext ?_ rfl
  rw [firUnit_output]
  exact innerProduct_congr c _ fun j hj => firRead_firIndex c _ st.idx j (by omega) hcap

theorem exec_firStep (k : FirInst) (x : Word) (s : State) :
    exec (.firStep k x) s = .next ((s.setFir k (firUnit s.cfg (firTable s.cfg k) (s.fir k) x).2).withResults
      (firUnit s.cfg (firTable s.cfg k) (s.fir k) x).1 0#32) := rfl

theorem exec_firStep_convolve {s : State} (k : FirInst) (x : Word) (hcap : s.cfg.firCap ≤ 256)
    (hlen : (firTable s.cfg k).length ≤ s.cfg.firCap) :
    exec (.firStep k x) s = .next ((s.setFir k (convolve s.cfg (firTable s.cfg k) (s.fir k) x).2).withResults
      (convolve s.cfg (firTable s.cfg k) (s.fir k) x).1 0#32) := by
  rw [exec_firStep, firUnit_eq_convolve hcap hlen]

end Sys2Proof.Machine

/-! The circular history as a list without end (rules R107, R110; 20_memory.md rule R51). -/

namespace Sys2Proof.Machine

open Claims

/-- The FIR state after the inputs `past`, newest first: the entry `j + 1` positions back from the write position is the
input `j` samples ago, +0.0 before the first. -/
structure Remembers (c : Cfg) (st : FirState) (past : List F32) : Prop where
  idx_lt : 0 < c.firCap → st.idx.toNat < c.firCap
  entry : ∀ j < c.firCap, firRead st.buf (firIndex c st.idx (j + 1)) = past.getD j posZero

theorem remembers_zero (c : Cfg) : Remembers c FirState.zero [] where
  idx_lt h := h
  entry _ _ := Vector.getElem_replicate _

/-- The index no positions back is the write position itself. -/
theorem firIndex_zero {c : Cfg} {idx : BitVec 8} (hidx : idx.toNat < c.firCap) (hcap : c.firCap ≤ 256) :
    firIndex c idx 0 = idx := by
  have h := firIndex_toNat c idx 0 (by omega) hcap
  rw [Nat.cast_zero, sub_zero, Int.emod_eq_of_lt (by omega) (by omega)] at h
  exact BitVec.eq_of_toNat_eq (by omega)

/-- Within the capacity no other index is the write position. -/
theorem firIndex_ne {c : Cfg} {idx : BitVec 8} {j : Nat} (hidx : idx.toNat < c.firCap) (hcap : c.firCap ≤ 256)
    (hj : 0 < j) (hlt : j < c.firCap) : firIndex c idx j ≠ idx := by
  intro heq
  have h := firIndex_toNat c idx j (by omega) hcap
  rw [heq] at h
  by_cases hge : j ≤ idx.toNat
  · rw [Int.emod_eq_of_lt (by omega) (by omega)] at h
    omega
  · rw [← Int.add_emod_right, Int.emod_eq_of_lt (by omega) (by omega)] at h
    omega

/-- The write position advances by one, so the same entry is one position further back. -/
theorem firIndex_firNext {c : Cfg} (idx : BitVec 8) (j : Nat) (hpos : 1 ≤ c.firCap) (hcap : c.firCap ≤ 256) :
    firIndex c (firNext c idx) (j + 1) = firIndex c idx j := by
  have hnext : (firNext c idx).toNat = (idx.toNat + 1) % c.firCap := by
    rw [firNext, BitVec.toNat_ofNat]
    exact Nat.mod_eq_of_lt ((Nat.mod_lt _ hpos).trans_le hcap)
  apply BitVec.eq_of_toNat_eq
  rw [← Nat.cast_inj (R := Int), firIndex_toNat c _ _ hpos hcap, firIndex_toNat c _ _ hpos hcap, hnext, Int.natCast_mod,
    Int.emod_sub_emod]
  congr 1
  omega

/-- After the write, the entry `j` positions back is the input `j` samples ago, counting the one just written. -/
theorem Remembers.after_write {c : Cfg} {st : FirState} {past : List F32} (h : Remembers c st past) (hcap : c.firCap ≤ 256)
    (x : F32) {j : Nat} (hj : j < c.firCap) :
    firRead (firWrite st.buf st.idx x) (firIndex c st.idx j) = (x :: past).getD j posZero := by
  have hidx := h.idx_lt (by omega)
  rw [firRead_firWrite]
  cases j with
  | zero => rw [if_pos (firIndex_zero hidx hcap), List.getD_cons_zero]
  | succ i => rw [if_neg (firIndex_ne hidx hcap i.succ_pos hj), List.getD_cons_succ, h.entry i (by omega)]

theorem Remembers.firUnit {c : Cfg} {st : FirState} {past : List F32} (h : Remembers c st past) (hcap : c.firCap ≤ 256)
    (table : List F32) (x : F32) : Remembers c (firUnit c table st x).2 (x :: past) where
  idx_lt hpos := firNext_lt c st.idx hpos hcap
  entry j hj := (congrArg _ (firIndex_firNext st.idx j (by omega) hcap)).trans (h.after_write hcap x hj)

/-- The sum of a table over the inputs `recent`, newest first. -/
def recentSum (c : Cfg) (table recent : List F32) : F32 :=
  innerProduct c (table.getD · posZero) (recent.getD · posZero) table.length

theorem Remembers.output {c : Cfg} {st : FirState} {past table : List F32} (h : Remembers c st past)
    (hcap : c.firCap ≤ 256) (hlen : table.length ≤ c.firCap) (x : F32) :
    (Machine.firUnit c table st x).1 = recentSum c table (x :: past) := by
  rw [firUnit_output]
  exact innerProduct_congr c _ fun j hj => h.after_write hcap x (by omega)

theorem outputs_firStep_cons (k : FirInst) (x : Word) (is : List Instr) (s : State) :
    ∃ t : State, t.cfg = s.cfg ∧ t.fir k = (firUnit s.cfg (firTable s.cfg k) (s.fir k) x).2 ∧
      outputs (.firStep k x :: is) s = (firUnit s.cfg (firTable s.cfg k) (s.fir k) x).1 :: outputs is t :=
  ⟨(stepFir k x s).2.withResults (stepFir k x s).1 0#32, stepFir_cfg k x s,
    by rw [withResults_fir, stepFir_spec, setFir_fir_same], rfl⟩

/-- Every output is the sum over the inputs so far. -/
theorem outputs_firStep {s : State} {k : FirInst} {past : List F32} (h : Remembers s.cfg (s.fir k) past)
    (hcap : s.cfg.firCap ≤ 256) (hlen : (firTable s.cfg k).length ≤ s.cfg.firCap) (xs : List Word) :
    outputs (xs.map (Instr.firStep k)) s =
      (List.range xs.length).map fun n => recentSum s.cfg (firTable s.cfg k) ((xs.take (n + 1)).reverse ++ past) := by
  induction xs generalizing s past with
  | nil => rfl
  | cons x xs ih =>
    obtain ⟨t, hcfg, hfir, hout⟩ := outputs_firStep_cons k x (xs.map (Instr.firStep k)) s
    have htail := ih (s := t) (past := x :: past) (by rw [hcfg, hfir]; exact h.firUnit hcap _ x) (by rwa [hcfg])
      (by rwa [hcfg])
    rw [List.map_cons, hout, htail, h.output hcap hlen, hcfg, List.length_cons, List.range_succ_eq_map, List.map_cons,
      List.map_map]
    simp [Function.comp_def]

/-- The inputs up to sample `n`, newest first, at the positions rule R110 reads them. -/
theorem getD_reverse_take (xs : List F32) {n : Nat} (hn : n < xs.length) (j : Nat) :
    (xs.take (n + 1)).reverse.getD j posZero = if j ≤ n then xs.getD (n - j) posZero else posZero := by
  have hlen : (xs.take (n + 1)).length = n + 1 := by rw [List.length_take]; omega
  rw [List.getD_eq_getElem?_getD, List.getD_eq_getElem?_getD]
  by_cases hj : j ≤ n
  · rw [if_pos hj, List.getElem?_reverse (by omega), hlen, List.getElem?_take_of_lt (by omega), Nat.add_sub_cancel]
  · rw [if_neg hj, List.getElem?_eq_none (by rw [List.length_reverse]; omega), Option.getD_none]

theorem recentSum_eq_convolveUnbounded (c : Cfg) (table : List F32) {xs : List F32} {n : Nat} (hn : n < xs.length) :
    recentSum c table (xs.take (n + 1)).reverse = convolveUnbounded c table xs n :=
  innerProduct_congr c _ fun j _ => getD_reverse_take xs hn j

end Sys2Proof.Machine

/-! Arithmetic on zeros, one and powers of two (00_scope.md rule R10). -/

namespace Sys2Proof.Machine

open Claims

/-- `a`, the negative zero made +0.0: what the sum of `a` and +0.0 answers (log entry 17). -/
def withoutNegZero (a : F32) : F32 := if a = 0x80000000#32 then 0#32 else a

theorem eq_of_isZero {a : F32} (h : isZero a = true) : a = pack (signBit a) 0 := by
  rw [← (isZero_iff a).mp h, pack_signBit_magBits]

theorem eq_posZero_of_isZero {a : F32} (h : isZero a = true) (hne : a ≠ 0x80000000#32) : a = posZero := by
  have hpack := eq_of_isZero h
  cases hs : signBit a <;> rw [hs] at hpack
  · exact hpack
  · exact absurd hpack hne

theorem isZero_pack_zero (neg : Bool) : isZero (pack neg 0) = true := by cases neg <;> decide

theorem isZero_fneg (a : F32) : isZero (fneg a) = isZero a := by
  rw [Bool.eq_iff_iff, isZero_iff, isZero_iff, magBits_fneg]

theorem units_of_isZero {a : F32} (h : isZero a = true) : units a = 0 := by
  rw [units, (mag_eq_zero_iff a).mpr h]
  simp

/-- A finite value that is no zero, rounded, is itself. -/
theorem pack_roundUnits_units {a : F32} (hf : isFinite a = true) (hz : isZero a = false) :
    pack (decide (units a < 0)) (roundUnits (units a).natAbs 1) = a := by
  have hpos : 0 < mag a := Nat.pos_of_ne_zero fun h0 => by simp [(mag_eq_zero_iff a).mp h0] at hz
  have hneg : decide (units a < 0) = signBit a := by
    unfold units
    cases signBit a <;> simp [hpos]
  have habs : (units a).natAbs = mag a := by
    unfold units
    split <;> simp
  have hexact : bitsMag (magBits a) * 1 = mag a := by rw [mul_one, mag_eq_bitsMag]
  rw [hneg, habs, roundUnits_of_exact _ 1 _ one_pos hexact ((isFinite_iff a).mp hf), pack_signBit_magBits]

theorem fadd_finite_comm {a b : F32} (ha : isFinite a = true) (hb : isFinite b = true) : fadd a b = fadd b a := by
  rw [fadd_finite a b ha hb, fadd_finite b a hb ha, Int.add_comm, Bool.and_comm]

theorem fadd_finite_zero {a z : F32} (ha : isFinite a = true) (hz : isZero z = true) :
    fadd a z = if isZero a then pack (signBit a && signBit z) 0 else a := by
  rw [fadd_finite a z ha (isFinite_of_isZero hz), units_of_isZero hz, add_zero]
  by_cases h : isZero a = true
  · rw [if_pos h, if_pos (units_of_isZero h)]
  · have hne : units a ≠ 0 := fun h0 => h ((mag_eq_zero_iff a).mp (by unfold units at h0; split at h0 <;> omega))
    rw [if_neg h, if_neg hne, pack_roundUnits_units ha (by simpa using h)]

/-- A zero of either sign added to a number other than -0.0 leaves it. -/
theorem fadd_number_zero {a z : F32} (ha : isNaN a = false) (hne : a ≠ 0x80000000#32) (hz : isZero z = true) :
    fadd a z = a := by
  rcases isFinite_or_isInf ha with hf | hi
  · rw [fadd_finite_zero hf hz]
    split
    · next h => rw [eq_posZero_of_isZero h hne]; rfl
    · rfl
  · exact fadd_inf_finite hi (isFinite_of_isZero hz)

theorem fadd_posZero_left {a : F32} (ha : isNaN a = false) : fadd posZero a = withoutNegZero a := by
  unfold withoutNegZero
  split
  · next h => rw [h]; decide +kernel
  · next h =>
    have hzero : isZero posZero = true := by decide
    rcases isFinite_or_isInf ha with hf | hi
    · rw [fadd_finite_comm (isFinite_of_isZero hzero) hf, fadd_number_zero ha h hzero]
    · exact fadd_finite_inf (isFinite_of_isZero hzero) hi

theorem withoutNegZero_ne (a : F32) : withoutNegZero a ≠ 0x80000000#32 := by
  unfold withoutNegZero
  split
  · decide
  · next h => exact h

theorem isNaN_withoutNegZero (a : F32) : isNaN (withoutNegZero a) = isNaN a := by
  unfold withoutNegZero
  split
  · next h => rw [h]; decide
  · rfl

theorem fmul_finite_zero {a z : F32} (ha : isFinite a = true) (hz : isZero z = true) : isZero (fmul a z) = true := by
  rw [fmul_finite a z ha (isFinite_of_isZero hz), (mag_eq_zero_iff z).mpr hz, mul_zero, roundUnits_zero _ (by positivity)]
  exact isZero_pack_zero _

/-- Multiplying a finite value by 1.0 leaves it. -/
theorem fmul_finite_one {a : F32} (ha : isFinite a = true) : fmul a 0x3F800000#32 = a := by
  have hmag : mag 0x3F800000#32 = 2 ^ 149 := by decide +kernel
  have hsign : signBit 0x3F800000#32 = false := by decide
  rw [fmul_finite a _ ha (by decide), hmag, hsign, Bool.bne_false, mag_eq_bitsMag,
    roundUnits_of_exact _ _ (magBits a) (by positivity) rfl ((isFinite_iff a).mp ha), pack_signBit_magBits]

/-- Rounding sees a fraction, not its terms. -/
theorem roundUnits_mul_right (n d c : Nat) (hc : 0 < c) : roundUnits (n * c) (d * c) = roundUnits n d := by
  have hu : ∀ k, d * c * 2 ^ k = d * 2 ^ k * c := fun k => by ring
  have hmul : ∀ r, 2 * (r * c) = 2 * r * c := fun r => by ring
  unfold roundUnits
  simp only [hu, hmul, Nat.mul_div_mul_right _ _ hc, Nat.mul_mod_mul_right, gt_iff_lt, Nat.mul_lt_mul_right hc,
    Nat.mul_left_inj hc.ne']

/-- For a finite value, a quotient by 2^5 and a product with 2^-5 are one fraction. -/
theorem fdiv_32_finite {x : F32} (hx : isFinite x = true) : fdiv x 0x42000000#32 = fmul x 0x3D000000#32 := by
  have hmagDiv : mag 0x42000000#32 = 2 ^ 149 * 2 ^ 5 := by decide +kernel
  have hmagMul : mag 0x3D000000#32 = 2 ^ 144 := by decide +kernel
  have hsign : signBit 0x42000000#32 = signBit 0x3D000000#32 := by decide
  rw [fdiv_finite x _ hx (by decide) (by decide), fmul_finite x _ hx (by decide), hsign, hmagDiv, hmagMul,
    show 2 ^ 149 * mag x = mag x * 2 ^ 144 * 2 ^ 5 by ring, roundUnits_mul_right _ _ _ (by positivity)]

theorem fdiv_32_inf {x : F32} (hx : isInf x = true) : fdiv x 0x42000000#32 = fmul x 0x3D000000#32 := by
  rw [fdiv_inf_finite hx (by decide), fmul_inf_number hx (by decide)]
  rfl

/-- The sum of rule R107 over an impulse: zeros, then the coefficient met by the impulse, then zeros that leave it. -/
theorem innerProduct_impulse {c : Cfg} (hfp : c.fp = .binary32) {h : Nat → F32} (hfin : ∀ j, isFinite (h j) = true)
    (n L : Nat) :
    innerProduct c h (fun j => if j = n then 0x3F800000#32 else posZero) L =
      if n < L then withoutNegZero (h n) else posZero := by
  have hnum : ∀ j, isNaN (h j) = false := fun j => isNaN_of_isFinite (hfin j)
  have hzero : ∀ j, isZero (fmul (h j) posZero) = true := fun j => fmul_finite_zero (hfin j) (by decide)
  induction L with
  | zero => rfl
  | succ L ih =>
    rw [innerProduct_succ, ih, hfp, fpAdd_binary32, fpMul_binary32]
    rcases lt_trichotomy L n with hlt | rfl | hgt
    · rw [if_neg (by omega), if_neg (by omega), if_neg (by omega), fadd_number_zero (by decide) (by decide) (hzero L)]
    · rw [if_neg (by omega), if_pos rfl, if_pos (by omega), fmul_finite_one (hfin L), fadd_posZero_left (hnum L)]
    · rw [if_pos hgt, if_neg (by omega), if_pos (by omega),
        fadd_number_zero (by rw [isNaN_withoutNegZero, hnum]) (withoutNegZero_ne _) (hzero L)]

/-- The unbounded history of an impulse. -/
theorem impulse_history {m n : Nat} (hn : n ≤ m) (j : Nat) :
    (if j ≤ n then ((0x3F800000#32 : F32) :: List.replicate m 0#32).getD (n - j) posZero else posZero) =
      if j = n then 0x3F800000#32 else posZero := by
  rcases lt_trichotomy j n with hlt | rfl | hgt
  · obtain ⟨i, hi⟩ : ∃ i, n - j = i + 1 := ⟨n - j - 1, by omega⟩
    rw [if_pos hlt.le, if_neg hlt.ne, hi, List.getD_cons_succ, List.getD_replicate _ (by omega)]
    rfl
  · rw [if_pos le_rfl, if_pos rfl, Nat.sub_self, List.getD_cons_zero]
  · rw [if_neg (by omega), if_neg hgt.ne']

theorem convolveUnbounded_impulse {c : Cfg} (hfp : c.fp = .binary32) {table : List F32}
    (hfin : ∀ h ∈ table, isFinite h = true) {m n : Nat} (hn : n ≤ m) :
    convolveUnbounded c table (0x3F800000#32 :: List.replicate m 0#32) n = withoutNegZero (table.getD n 0#32) := by
  have hentry : ∀ j, isFinite (table.getD j posZero) = true := fun j => by
    by_cases hj : j < table.length
    · rw [List.getD_eq_getElem _ _ hj]
      exact hfin _ (List.getElem_mem hj)
    · rw [List.getD_eq_default _ _ (by omega)]
      decide
  refine (innerProduct_congr c _ fun j _ => impulse_history hn j).trans ((innerProduct_impulse hfp hentry n _).trans ?_)
  split
  · rfl
  · rw [List.getD_eq_default _ _ (by omega)]
    rfl

end Sys2Proof.Machine

/-! DC blockers from zero state, and a NaN in one (rule R101). -/

namespace Sys2Proof.Machine

open Claims

/-- From zero state every term of rule R100 but the input is a zero. -/
theorem dcbNext_zero {c : Cfg} (hfp : c.fp = .binary32) (hk : isFinite c.kDc = true) {x : F32} (hx : isNaN x = false)
    (hne : x ≠ 0x80000000#32) : dcbNext c DcbState.zero x = x := by
  have hmul : isZero (fneg (fmul c.kDc posZero)) = true := by
    rw [isZero_fneg]
    exact fmul_finite_zero hk (by decide)
  have hfirst : fsub posZero posZero = posZero := by decide +kernel
  simp only [dcbNext, DcbState.zero, hfp, fpAdd_binary32, fpSub_binary32, fpMul_binary32, hfirst]
  rw [fsub, fadd_number_zero hx hne hmul, fadd_posZero_left hx, withoutNegZero, if_neg hne]

/-- Rule R100 adds to the old `s`, so a NaN stays. -/
theorem dcbUnit_nan {c : Cfg} {st : DcbState} (h : isNaN st.s = true) (x : F32) : isNaN (dcbUnit c st x).2.s = true := by
  have hdiff : fpSub c.fp st.s st.xPrev = qNaN := (fpOps_nan_operand c.fp _ _ (.inl h)).2.1
  have hsum : (dcbUnit c st x).2.s = qNaN :=
    (fpOps_nan_operand c.fp _ _ (.inl (by rw [hdiff]; exact isNaN_qNaN))).1
  rw [hsum]
  exact isNaN_qNaN

@[simp] theorem stepAp_dcb (k : ApInst) (x : F32) (s : State) (k' : DcbInst) : (stepAp k x s).2.dcb k' = s.dcb k' :=
  setAp_dcb s k _ k'

@[simp] theorem stepFir_dcb (k : FirInst) (x : F32) (s : State) (k' : DcbInst) : (stepFir k x s).2.dcb k' = s.dcb k' :=
  setFir_dcb s k _ k'

@[simp] theorem stepMa_dcb (k : MaInst) (x : F32) (s : State) (k' : DcbInst) : (stepMa k x s).2.dcb k' = s.dcb k' :=
  setMa_dcb s k _ k'

@[simp] theorem smoothRx_dcb (k : MaInst) (x : F32) (s : State) (k' : DcbInst) : (smoothRx k x s).2.dcb k' = s.dcb k' := by
  unfold smoothRx
  split
  · exact stepMa_dcb k x s k'
  · rfl

@[simp] theorem stepAgc_dcb (x : F32) (s : State) (k : DcbInst) : (stepAgc x s).2.dcb k = s.dcb k := withEnv_dcb s _ k

@[simp] theorem micUpdate_dcb (m : Nat) (now : Word) (s : State) (k : DcbInst) : (micUpdate m now s).dcb k = s.dcb k := by
  obtain ⟨peak, decay, hang, heq, -⟩ := micUpdate_spec m now s
  rw [heq]
  cases k <;> rfl

/-- The DC blocker `k` holds a NaN. -/
def DcbNan (k : DcbInst) (s : State) : Prop := isNaN (s.dcb k).s = true

section

variable {k : DcbInst} {s : State}

theorem DcbNan.of_kept (h : DcbNan k s) {t : State} (heq : t.dcb k = s.dcb k) : DcbNan k t := by
  rwa [DcbNan, heq]

theorem DcbNan.of_next {t u : State} (heq : (.next u : Host.Outcome State Fault Refusal) = .next t) (h : DcbNan k u) :
    DcbNan k t :=
  Host.Outcome.next.inj heq ▸ h

/-- A sample through a DC blocker keeps the NaN of that one and of every other. -/
theorem DcbNan.stepDcb (h : DcbNan k s) (k' : DcbInst) (x : F32) : DcbNan k (stepDcb k' x s).2 := by
  by_cases hk : k = k'
  · subst hk
    rw [DcbNan, stepDcb_spec, setDcb_dcb_same]
    exact dcbUnit_nan h x
  · exact h.of_kept (setDcb_dcb_other s k' k _ hk)

/-- A command steps DC blockers or leaves them. -/
theorem DcbNan.exec (h : DcbNan k s) {i : Instr} {t : State} (heq : exec i s = .next t) : DcbNan k t := by
  cases i with
  | nop => exact .of_next heq (h.of_kept (withResults_dcb s _ _ k))
  | rxSample mode opa opb =>
    exact .of_next heq (((h.stepDcb .rxI (codeToF32 s.cfg opa)).stepDcb .rxQ (codeToF32 s.cfg opb)).of_kept (by simp))
  | txSample opa => exact .of_next heq ((h.stepDcb .tx (codeToF32 s.cfg opa)).of_kept (by simp))
  | agcMute => exact .of_next heq (h.of_kept (by simp))
  | smeterUpdate => exact .of_next heq (h.of_kept (by cases k <;> rfl))
  | micSample opa opb => exact .of_next heq (h.of_kept (by simp))
  | read reg => exact .of_next heq (h.of_kept (withResults_dcb s _ _ k))
  | statusClear => exact .of_next heq (h.of_kept (by cases k <;> rfl))
  | dcbStep inst opa => exact .of_next heq ((h.stepDcb inst (f32Operand opa)).of_kept (withResults_dcb _ _ _ k))
  | apStep inst opa => exact .of_next heq (h.of_kept (by simp))
  | firStep inst opa => exact .of_next heq (h.of_kept (by simp))
  | maStep inst opa => exact .of_next heq (h.of_kept (by simp))
  | agcStep opa => exact .of_next heq (h.of_kept (by simp))

theorem DcbNan.perform (h : DcbNan k s) {tr : Transaction} {t : State} (heq : perform tr s = .next t) : DcbNan k t := by
  unfold Machine.perform at heq
  split at heq
  · exact h.exec heq
  · exact .of_next heq (h.of_kept (illegalCommand_dcb s k))

theorem DcbNan.after (h : DcbNan k s) (tr : Transaction) : DcbNan k (Safety.after tr s) := by
  unfold Safety.after
  split
  · next hnext => exact h.perform hnext
  · exact h
  · exact h

theorem DcbNan.performAll (h : DcbNan k s) (ts : List Transaction) : DcbNan k (Safety.performAll ts s) := by
  induction ts generalizing s with
  | nil => exact h
  | cons tr ts ih => exact ih (h.after tr)

end

end Sys2Proof.Machine

/-! The statements about the stream filters. -/

namespace Sys2Proof.Scope

open Machine Claims

/-- Settles O21: the circular sum reads rule R107's entries, and only the selected convolver is written. -/
theorem firStepUpdatesOneInstance : Obligations.FirStepUpdatesOneInstance := by
  unfold Obligations.FirStepUpdatesOneInstance
  intro s x hcap hlen
  have h := fun k => exec_firStep_convolve k x hcap (hlen k)
  exact ⟨h .rxSsb, h .rxCw, h .txShape, h .txI, h .txQ⟩

/-- Settles O36: the update from zero state adds zeros to the input. -/
theorem dcbFirstOutputIsInput : Obligations.DcbFirstOutputIsInput := by
  unfold Obligations.DcbFirstOutputIsInput
  intro s k x hs hfp hk hx hne
  have hzero : s.dcb k = DcbState.zero := hs
  refine ⟨_, exec_dcbStep k x s, ?_⟩
  rw [withResults_resa, hzero, dcbNext_zero hfp hk hx hne]

/-- Settles O37: no command takes a NaN out of a DC blocker. -/
theorem dcbNanPersists : Obligations.DcbNanPersists := by
  unfold Obligations.DcbNanPersists
  intro k ts s h
  exact DcbNan.performAll h ts

/-- Settles O38: the circular history remembers the inputs as far back as the table reaches. -/
theorem firMatchesUnboundedHistory : Obligations.FirMatchesUnboundedHistory := by
  unfold Obligations.FirMatchesUnboundedHistory
  intro s k xs hs hcap hlen
  have hzero : s.fir k = FirState.zero := hs
  have hout := outputs_firStep (hzero ▸ remembers_zero s.cfg) hcap hlen xs
  simp only [List.append_nil] at hout
  rw [hout]
  refine ⟨by rw [List.length_map, List.length_range], fun n hn => ?_⟩
  rw [List.getD_eq_getElem _ _ (by rwa [List.length_map, List.length_range]), List.getElem_map, List.getElem_range,
    recentSum_eq_convolveUnbounded s.cfg _ hn]

/-- Settles O39: the outputs are sums over the unbounded history, where the impulse meets one coefficient at a time. -/
theorem firImpulseResponse : Obligations.FirImpulseResponse := by
  unfold Obligations.FirImpulseResponse
  intro s k m n hs hfp hcap hlen hfin hn
  obtain ⟨hcount, hout⟩ := firMatchesUnboundedHistory s k (0x3F800000#32 :: List.replicate m 0#32) hs hcap hlen
  have hlt : n < (0x3F800000#32 :: List.replicate m (0#32 : Word)).length := by
    rw [List.length_cons, List.length_replicate]
    omega
  have hn' := hout n hlt
  rw [← hcount] at hlt
  rw [List.getD_eq_getElem _ _ hlt] at hn' ⊢
  exact hn'.trans (convolveUnbounded_impulse hfp hfin hn)

/-- Settles O40: by the class of the word; a finite one gives the same fraction of units either way. -/
theorem divisionBy32IsScaling : Obligations.DivisionBy32IsScaling := by
  unfold Obligations.DivisionBy32IsScaling
  intro x
  by_cases hnan : isNaN x = true
  · rw [fdiv_nan_left x _ hnan, fmul_nan_left x _ hnan]
  · rcases isFinite_or_isInf (by simpa using hnan) with hf | hi
    · exact fdiv_32_finite hf
    · exact fdiv_32_inf hi

/-- Settles O19: the command is the update of rule R100 on the selected DC blocker. -/
theorem dcbStepUpdatesOneInstance : Obligations.DcbStepUpdatesOneInstance := by
  unfold Obligations.DcbStepUpdatesOneInstance
  intro s x
  exact ⟨exec_dcbStep .rxI x s, exec_dcbStep .rxQ x s, exec_dcbStep .tx x s⟩

/-- Settles O20: the command is the cascade of rule R104 on the selected one, with its own coefficients. -/
theorem apStepUpdatesOneInstance : Obligations.ApStepUpdatesOneInstance := by
  unfold Obligations.ApStepUpdatesOneInstance
  intro s x
  exact ⟨exec_apStep .rxP x s, exec_apStep .rxN x s, exec_apStep .txP x s, exec_apStep .txN x s⟩

/-- Settles O22: the stages present are box-cars, and the divisor of the spec's `MA_LEN` is 32.0. -/
theorem maStepUpdatesOneInstance : Obligations.MaStepUpdatesOneInstance := by
  unfold Obligations.MaStepUpdatesOneInstance
  exact ⟨fun s x => ⟨exec_maStep .rxI x s, exec_maStep .rxQ x s⟩, by decide +kernel⟩

end Sys2Proof.Scope

/-! The units of the receive chain as the statements spell them (41_receive.md rules R140, R141). -/

namespace Sys2Proof.Machine

open Claims

theorem stepDcb_dcbNext (k : DcbInst) (x : F32) (s : State) :
    stepDcb k x s = (dcbNext s.cfg (s.dcb k) x, s.setDcb k ⟨dcbNext s.cfg (s.dcb k) x, x, dcbNext s.cfg (s.dcb k) x⟩) := rfl

theorem stepAp_cascade (k : ApInst) (x : F32) (s : State) :
    stepAp k x s = ((cascade s.cfg (apCoeffs s.cfg k) (s.ap k) x).1,
      s.setAp k (cascade s.cfg (apCoeffs s.cfg k) (s.ap k) x).2) := rfl

@[simp] theorem setMa_ma_self (s : State) (k : MaInst) : s.setMa k (s.ma k) = s := by cases k <;> rfl

/-- The smoother of a branch: skipped, it writes back the state it found. -/
theorem smoothRx_smoother (k : MaInst) (x : F32) (s : State) :
    smoothRx k x s = ((if s.cfg.rxSmooth then smoother s.cfg (s.ma k) x else (x, s.ma k)).1,
      s.setMa k (if s.cfg.rxSmooth then smoother s.cfg (s.ma k) x else (x, s.ma k)).2) := by
  unfold smoothRx
  split
  · rw [stepMa_spec, maUnit_eq_smoother]
  · rw [setMa_ma_self]

theorem agcOutput_eq_agcResult (c : Cfg) (env x : F32) : agcOutput c env x = agcResult c env x := by
  unfold agcOutput agcResult agcGain
  dsimp only
  split
  · rfl
  · split <;> rfl

theorem agcTrack_fabs_eq_trackedEnv (c : Cfg) (env x : F32) : agcTrack c env (fabs x) = trackedEnv c env x := rfl

theorem stepAgc_agcResult (x : F32) (s : State) :
    stepAgc x s = (agcResult s.cfg (trackedEnv s.cfg s.env x) x, { s with env := trackedEnv s.cfg s.env x }) := by
  rw [stepAgc_spec, agcOutput_eq_agcResult, agcTrack_fabs_eq_trackedEnv]

theorem exec_rxSample (mode : RxMode) (opa opb : Word) (s : State) :
    exec (.rxSample mode opa opb) s = execRxSample mode opa opb s := rfl

end Sys2Proof.Machine

/-! The statement about the receive chain. -/

namespace Sys2Proof.Scope

open Machine Claims

/-- Settles O26: unit by unit along the chain. No two units share an instance, so each one finds its own state, and the
configuration, as `s` holds them. -/
theorem rxSampleRunsTheChain : Obligations.RxSampleRunsTheChain := by
  unfold Obligations.RxSampleRunsTheChain
  intro s m a b hcap hlen
  have hfir : ∀ k st x, firUnit s.cfg (firTable s.cfg k) st x = convolve s.cfg (firTable s.cfg k) st x :=
    fun k => firUnit_eq_convolve hcap (hlen k)
  rw [exec_rxSample, execRxSample]
  simp only [stepDcb_dcbNext, smoothRx_smoother, stepAp_cascade, stepFir_spec, stepAgc_agcResult, hfir, setDcb_cfg,
    setMa_cfg, setAp_cfg, setFir_cfg]
  cases m with
  | ssb => rfl
  | cw => rfl

end Sys2Proof.Scope

/-! Rounding keeps the order of the magnitudes and errs by at most one part in 2^24 (00_scope.md rule R10). -/

namespace Sys2Proof.Machine

/-- What lies at or below a magnitude rounds to it at most. -/
theorem roundUnits_le_of_le_bitsMag {n d v : Nat} (hd : 0 < d) (h : n ≤ bitsMag v * d) : roundUnits n d ≤ v := by
  obtain ⟨w, hw, hround⟩ := exists_nearestBits n d hd
  rw [hround]
  refine (min_le_left _ _).trans (not_lt.mp fun hlt => ?_)
  have hmid := (hw.below v hlt).1
  have := Nat.mul_lt_mul_of_pos_right (bitsMag_lt_iff.mpr hlt) hd
  rw [Nat.add_mul] at hmid
  omega

/-- What lies at or above a magnitude rounds to it at least. -/
theorem le_roundUnits_of_bitsMag_le {n d v : Nat} (hd : 0 < d) (hv : v ≤ infBits) (h : bitsMag v * d ≤ n) :
    v ≤ roundUnits n d := by
  obtain ⟨w, hw, hround⟩ := exists_nearestBits n d hd
  rw [hround]
  refine le_min (not_lt.mp fun hlt => ?_) hv
  have hmid := (hw.above v hlt).1
  have := Nat.mul_lt_mul_of_pos_right (bitsMag_lt_iff.mpr hlt) hd
  rw [Nat.add_mul] at hmid
  omega

/-- Of two fractions the larger has no smaller nearest bits: otherwise both would be the midpoint of two neighbours, and
one of the neighbours is odd. -/
theorem NearestBits.mono {n d w n' d' w' : Nat} (h : NearestBits n d w) (h' : NearestBits n' d' w') (hd : 0 < d)
    (hd' : 0 < d') (hle : n * d' ≤ n' * d) : w ≤ w' := by
  by_contra hlt
  rw [not_le] at hlt
  obtain ⟨hbelow, htie⟩ := h.below w' hlt
  obtain ⟨habove, htie'⟩ := h'.above w hlt
  have hlow := Nat.mul_le_mul_right d' hbelow
  have hhigh := Nat.mul_le_mul_right d habove
  have hswap : (bitsMag w' + bitsMag w) * d * d' = (bitsMag w' + bitsMag w) * d' * d := by ring
  have heq : (bitsMag w' + bitsMag w) * d = 2 * n := Nat.eq_of_mul_eq_mul_right hd' (by linarith)
  have heq' : (bitsMag w' + bitsMag w) * d' = 2 * n' := Nat.eq_of_mul_eq_mul_right hd (by linarith)
  have heven := htie heq
  have heven' := htie' heq'
  have hbetween := (h.below (w' + 1) (by omega)).1
  have hstep := Nat.mul_lt_mul_of_pos_right (bitsMag_lt_iff.mpr (Nat.lt_add_one w')) hd
  rw [Nat.add_mul] at heq hbetween
  omega

theorem roundUnits_mono {n d n' d' : Nat} (hd : 0 < d) (hd' : 0 < d') (hle : n * d' ≤ n' * d) :
    roundUnits n d ≤ roundUnits n' d' := by
  obtain ⟨w, hw, hround⟩ := exists_nearestBits n d hd
  obtain ⟨w', hw', hround'⟩ := exists_nearestBits n' d' hd'
  rw [hround, hround']
  exact min_le_min_right _ (hw.mono hw' hd hd' hle)

/-- A magnitude of the normal range that rounding reaches at most is short of the fraction by one part in 2^24 at most. -/
theorem le_of_roundUnits_le {n d v : Nat} (hd : 0 < d) (hv : 2 ^ 23 ≤ v) (hfin : v < infBits)
    (h : roundUnits n d ≤ v) : 2 ^ 24 * n ≤ (2 ^ 24 + 1) * (bitsMag v * d) := by
  obtain ⟨w, hw, hround⟩ := exists_nearestBits n d hd
  have hwv : w ≤ v := by omega
  have hmid := (hw.above (v + 1) (by omega)).1
  have hle := Nat.mul_le_mul_right d (bitsMag_le_iff.mpr hwv)
  obtain ⟨k, m, rfl, hm, hk⟩ := exists_binade v
  have hspacing : 2 ^ 23 * (2 ^ k * d) ≤ m * (2 ^ k * d) := Nat.mul_le_mul_right _ (by omega)
  rw [bitsMag_succ k m hm hk, Nat.add_mul] at hmid
  rw [bitsMag_binade k m hm.le hk] at hle ⊢
  rw [Nat.mul_assoc] at hle hmid ⊢
  rw [Nat.add_mul] at hmid
  omega

/-- Rounding a fraction of the normal range exceeds it by one part in 2^24 at most. -/
theorem bitsMag_roundUnits_le {n d : Nat} (hd : 0 < d) (hnormal : 2 ^ 23 * d ≤ n) :
    2 ^ 24 * (bitsMag (roundUnits n d) * d) ≤ (2 ^ 24 + 1) * n := by
  obtain ⟨w, hw, hround⟩ := exists_nearestBits n d hd
  have hle : bitsMag (roundUnits n d) * d ≤ bitsMag w * d :=
    Nat.mul_le_mul_right d (bitsMag_le_iff.mpr (by omega))
  obtain hsmall | ⟨v, hv, rfl⟩ : w ≤ 2 ^ 23 ∨ ∃ v, 2 ^ 23 ≤ v ∧ w = v + 1 :=
    (le_or_gt w (2 ^ 23)).imp_right fun hgt => ⟨w - 1, by omega, by omega⟩
  · have hexact : bitsMag w * d ≤ 2 ^ 23 * d := Nat.mul_le_mul_right d (bitsMag_le_iff.mpr hsmall)
    omega
  · have hmid := (hw.below v (Nat.lt_add_one v)).1
    obtain ⟨k, m, rfl, hm, hk⟩ := exists_binade v
    have hspacing : 2 ^ 23 * (2 ^ k * d) ≤ m * (2 ^ k * d) := Nat.mul_le_mul_right _ (by omega)
    rw [bitsMag_succ k m hm hk] at hle hmid
    rw [bitsMag_binade k m hm.le hk, Nat.add_mul] at hmid
    rw [Nat.mul_assoc, Nat.add_mul, Nat.one_mul] at hle
    rw [Nat.mul_assoc, Nat.mul_assoc, Nat.add_mul, Nat.one_mul] at hmid
    omega

end Sys2Proof.Machine

/-! Words that are not negative, and truncation to integers (00_scope.md rules R10, R13). -/

namespace Sys2Proof.Machine

open Claims

theorem orderKey_of_nonneg {a : F32} (h : signBit a = false) : orderKey a = magBits a := by
  unfold orderKey
  rw [h]
  rfl

/-- Numbers that are not negative are ordered as their bits. -/
theorem NonnegNumber.flt_iff {a b : F32} (ha : NonnegNumber a) (hb : NonnegNumber b) :
    flt a b = true ↔ magBits a < magBits b := by
  simp [flt, ha.1, hb.1, orderKey_of_nonneg ha.2, orderKey_of_nonneg hb.2]

theorem NonnegNumber.fgt_iff {a b : F32} (ha : NonnegNumber a) (hb : NonnegNumber b) :
    fgt a b = true ↔ magBits b < magBits a := by
  simp [fgt, ha.1, hb.1, orderKey_of_nonneg ha.2, orderKey_of_nonneg hb.2]

theorem NonnegNumber.fle_iff {a b : F32} (ha : NonnegNumber a) (hb : NonnegNumber b) :
    fle a b = true ↔ magBits a ≤ magBits b := by
  simp [fle, ha.1, hb.1, orderKey_of_nonneg ha.2, orderKey_of_nonneg hb.2]

/-- There is one positive infinity. -/
theorem NonnegNumber.eq_inf {a : F32} (ha : NonnegNumber a) (hinf : isInf a = true) : a = 0x7F800000#32 := by
  rw [← pack_signBit_magBits a, ha.2, (isInf_iff a).mp hinf]
  rfl

theorem magBits_fabs {a : F32} (h : isNaN a = false) : magBits (fabs a) = magBits a := by
  rw [fabs, h]
  exact magBits_clearSign a

theorem nonnegNumber_fabs {a : F32} (h : isNaN a = false) : NonnegNumber (fabs a) := by
  refine ⟨?_, signBit_fabs a⟩
  rw [Bool.eq_false_iff, ne_eq, isNaN_iff] at h ⊢
  rwa [magBits_fabs (by rwa [Bool.eq_false_iff, ne_eq, isNaN_iff])]

/-- The magnitude bits of a finite product. -/
theorem magBits_fmul {a b : F32} (ha : isFinite a = true) (hb : isFinite b = true) :
    magBits (fmul a b) = roundUnits (mag a * mag b) (2 ^ 149) := by
  rw [fmul_finite a b ha hb, magBits_pack _ _ ((roundUnits_le_infBits _ _).trans_lt infBits_lt)]

/-- Truncation never exceeds the magnitude. -/
theorem natAbs_f2i_le (v : F32) : (f2i v).natAbs ≤ mag v / 2 ^ 149 := by
  unfold f2i
  generalize mag v / 2 ^ 149 = t
  dsimp only
  split
  · omega
  · split <;> omega

theorem f2i_nonneg {v : F32} (h : NonnegNumber v) : f2i v = ((min (mag v / 2 ^ 149) (2 ^ 31 - 1) : Nat) : Int) := by
  unfold f2i
  simp [h.1, h.2]

theorem f2i_of_isZero {v : F32} (h : isZero v = true) : f2i v = 0 := by
  have hle := natAbs_f2i_le v
  rw [(mag_eq_zero_iff v).mpr h, Nat.zero_div] at hle
  omega

/-- A zero times anything is a zero or a NaN, and truncates to 0. -/
theorem f2i_fmul_zero {z : F32} (hz : isZero z = true) (a : F32) : f2i (fmul z a) = 0 ∧ f2i (fmul a z) = 0 := by
  have hzf := isFinite_of_isZero hz
  by_cases hnan : isNaN a = true
  · rw [fmul_nan_right z a hnan, fmul_nan_left a z hnan]
    decide
  rw [Bool.not_eq_true] at hnan
  rcases isFinite_or_isInf hnan with hf | hi
  · refine ⟨f2i_of_isZero ?_, f2i_of_isZero (fmul_finite_zero hf hz)⟩
    rw [isZero_iff, magBits_fmul hzf hf, Nat.mul_comm, ← magBits_fmul hf hzf, ← isZero_iff]
    exact fmul_finite_zero hf hz
  · rw [fmul_number_inf (isNaN_of_isFinite hzf) hi, fmul_inf_number hi (isNaN_of_isFinite hzf)]
    simp only [hz, if_true, f2i_nan qNaN isNaN_qNaN, and_self]

theorem toInt_ofInt_f2i (v : F32) : (BitVec.ofInt 32 (f2i v)).toInt = f2i v := by
  obtain ⟨hlow, hhigh⟩ := f2i_range v
  rw [BitVec.toInt_ofInt]
  exact Int.bmod_eq_of_le (by omega) (by omega)

end Sys2Proof.Machine

/-! `AGC_STEP` under the spec's values (42_agc_smeter.md rules R160 to R162): the tracked envelope and the gain applied. -/

namespace Sys2Proof.Machine

open Claims

theorem exec_agcStep (x : Word) (s : State) :
    exec (.agcStep x) s = .next { s with
      env := trackedEnv s.cfg s.env x
      resa := BitVec.ofInt 32 (agcResult s.cfg (trackedEnv s.cfg s.env x) x)
      resb := 0#32 } := by
  change execAgcStep x s = _
  unfold execAgcStep
  rw [f32Operand, stepAgc_agcResult]
  rfl

/-- The output fits the result word. -/
theorem toInt_agcResult (c : Cfg) (env x : F32) : (BitVec.ofInt 32 (agcResult c env x)).toInt = agcResult c env x := by
  rw [← agcOutput_eq_agcResult]
  exact toInt_ofInt_f2i _

/-- The factor rule R161 applies to the sample under the spec's `SILENCE`, `TARGET` and `MAX_GAIN`. -/
def appliedGain (env : F32) : F32 :=
  if flt env 0x3F800000#32 then 0x42200000#32
  else if flt (fdiv 0x44FFE000#32 env) 0x42200000#32 then fdiv 0x44FFE000#32 env else 0x42200000#32

section

variable {c : Cfg} {env x : F32}

theorem agcResult_specValues (hc : specValues c) : agcResult c env x = f2i (fmul x (appliedGain env)) := by
  rw [← agcOutput_eq_agcResult, appliedGain, apply_ite (fmul x)]
  obtain ⟨p, rfl⟩ := hc
  rfl

theorem trackedEnv_specValues (hc : specValues c) :
    trackedEnv c env x = if fgt (fabs x) env = true then fabs x else fmul env 0x3F7FFD61#32 := by
  obtain ⟨p, rfl⟩ := hc
  rfl

/-- `K_DECAY` is 1 - 671/2^24. -/
theorem mag_kDecay : mag 0x3F7FFD61#32 = 16776545 * 2 ^ 125 := by decide +kernel

/-- `SILENCE` is 1.0. -/
theorem bitsMag_silence : bitsMag 0x3F800000 = 2 ^ 149 := bitsMag_one

/-- `MAX_GAIN` is 40.0. -/
theorem mag_maxGain : mag 0x42200000#32 = 40 * 2 ^ 149 := by decide +kernel

/-- `TARGET` is 2047.0. -/
theorem mag_target : mag 0x44FFE000#32 = 2047 * 2 ^ 149 := by decide +kernel

theorem nonnegNumber_silence : NonnegNumber 0x3F800000#32 := by
  unfold NonnegNumber
  decide

theorem nonnegNumber_maxGain : NonnegNumber 0x42200000#32 := by
  unfold NonnegNumber
  decide

/-! The envelope. -/

theorem nonnegNumber_trackedEnv (hc : specValues c) (henv : NonnegNumber env) : NonnegNumber (trackedEnv c env x) := by
  obtain ⟨p, rfl⟩ := hc
  have hpos : positiveWord 0x3F7FFD61#32 := by decide
  have hfin : isFinite 0x3F7FFD61#32 = true := by decide
  exact henv.agcTrack rfl hpos hfin x

/-- An infinite envelope stays: no magnitude is above it, and its decay is infinite. -/
theorem trackedEnv_inf (hc : specValues c) : trackedEnv c 0x7F800000#32 x = 0x7F800000#32 := by
  rw [trackedEnv_specValues hc, if_neg]
  · decide
  intro hgt
  obtain ⟨hnum, hinf⟩ := fgt_numbers _ _ hgt
  rw [NonnegNumber.fgt_iff ⟨hnum, signBit_fabs x⟩ ⟨hinf, rfl⟩] at hgt
  rw [Bool.eq_false_iff, ne_eq, isNaN_iff] at hnum
  exact hnum hgt

/-- An infinite sample makes the envelope infinite. -/
theorem trackedEnv_of_isInf (hc : specValues c) (henv : NonnegNumber env) (hx : isInf x = true) :
    trackedEnv c env x = 0x7F800000#32 := by
  have hnum := isNaN_of_isInf hx
  have habs : magBits (fabs x) = infBits := (magBits_fabs hnum).trans ((isInf_iff x).mp hx)
  rcases isFinite_or_isInf henv.1 with hf | hi
  · rw [trackedEnv_specValues hc, if_pos]
    · exact (nonnegNumber_fabs hnum).eq_inf ((isInf_iff _).mpr habs)
    · rw [(nonnegNumber_fabs hnum).fgt_iff henv, habs]
      exact (isFinite_iff env).mp hf
  · rw [henv.eq_inf hi, trackedEnv_inf hc]

/-- The tracked envelope is at least the sample's magnitude times `K_DECAY`: it is the magnitude itself, or what decayed
was no smaller (rule R165). -/
theorem scaled_le_trackedEnv (hc : specValues c) (henv : NonnegNumber env) (hx : isFinite x = true) :
    roundUnits (mag x * mag 0x3F7FFD61#32) (2 ^ 149) ≤ magBits (trackedEnv c env x) := by
  have hnum := isNaN_of_isFinite hx
  rw [trackedEnv_specValues hc]
  split
  · rw [magBits_fabs hnum]
    refine roundUnits_le_of_le_bitsMag (by positivity) ?_
    rw [← mag_eq_bitsMag, mag_kDecay]
    exact Nat.mul_le_mul_left _ (by norm_num)
  · next hle =>
    rw [(nonnegNumber_fabs hnum).fgt_iff henv, magBits_fabs hnum, not_lt] at hle
    rcases isFinite_or_isInf henv.1 with hf | hi
    · rw [magBits_fmul hf (by decide)]
      refine roundUnits_mono (by positivity) (by positivity) ?_
      gcongr
      rwa [mag_eq_bitsMag, mag_eq_bitsMag, bitsMag_le_iff]
    · rw [henv.eq_inf hi, show magBits (fmul 0x7F800000#32 0x3F7FFD61#32) = infBits by decide]
      exact roundUnits_le_infBits _ _

/-! The gain. -/

theorem appliedGain_inf : appliedGain 0x7F800000#32 = posZero := by decide +kernel

/-- Out of silence the envelope is at least 1.0, so `TARGET` / `ENV` is a number and not negative. -/
theorem quotient_of_loud (henv : NonnegNumber env) (hloud : ¬ flt env 0x3F800000#32 = true) (hf : isFinite env = true) :
    2 ^ 149 ≤ mag env ∧
      fdiv 0x44FFE000#32 env = pack false (roundUnits (2 ^ 149 * mag 0x44FFE000#32) (mag env)) := by
  rw [henv.flt_iff nonnegNumber_silence, not_lt] at hloud
  have hone : 2 ^ 149 ≤ mag env := by
    rw [← bitsMag_silence, mag_eq_bitsMag, bitsMag_le_iff]
    exact hloud
  refine ⟨hone, ?_⟩
  have hz : isZero env = false := by
    rw [Bool.eq_false_iff, ne_eq, ← mag_eq_zero_iff]
    have : 0 < 2 ^ 149 := by positivity
    omega
  rw [fdiv_finite _ _ (by decide) hf hz, henv.2]
  rfl

theorem nonnegNumber_quotient (henv : NonnegNumber env) (hloud : ¬ flt env 0x3F800000#32 = true) :
    NonnegNumber (fdiv 0x44FFE000#32 env) := by
  rcases isFinite_or_isInf henv.1 with hf | hi
  · rw [(quotient_of_loud henv hloud hf).2]
    exact nonnegNumber_pack_roundUnits _ _
  · rw [henv.eq_inf hi]
    exact nonnegNumber_posZero

/-- The gain is finite and at most `MAX_GAIN` (rule R164). -/
theorem appliedGain_le (henv : NonnegNumber env) :
    isFinite (appliedGain env) = true ∧ mag (appliedGain env) ≤ mag 0x42200000#32 := by
  unfold appliedGain
  split
  · exact ⟨by decide, le_rfl⟩
  split
  · next hloud hless =>
    rw [(nonnegNumber_quotient henv hloud).flt_iff nonnegNumber_maxGain] at hless
    have hfin : magBits 0x42200000#32 < infBits := by decide
    rw [isFinite_iff, mag_eq_bitsMag, mag_eq_bitsMag, bitsMag_le_iff]
    exact ⟨hless.trans hfin, hless.le⟩
  · exact ⟨by decide, le_rfl⟩

/-- Out of silence the gain is at most `TARGET` / `ENV`. -/
theorem appliedGain_le_quotient (henv : NonnegNumber env) (hloud : ¬ flt env 0x3F800000#32 = true) :
    mag (appliedGain env) ≤ mag (fdiv 0x44FFE000#32 env) := by
  unfold appliedGain
  rw [if_neg hloud]
  split
  · exact le_rfl
  · next hless =>
    rw [(nonnegNumber_quotient henv hloud).flt_iff nonnegNumber_maxGain, not_lt] at hless
    rwa [mag_eq_bitsMag, mag_eq_bitsMag, bitsMag_le_iff]

/-! The output (rule R165). -/

/-- In silence the sample is below 2.0, for the envelope that followed it is below 1.0. -/
theorem mag_lt_of_silent (hc : specValues c) (henv : NonnegNumber env) (hx : isFinite x = true)
    (hsilent : flt (trackedEnv c env x) 0x3F800000#32 = true) : mag x < 2 * 2 ^ 149 := by
  rw [(nonnegNumber_trackedEnv hc henv).flt_iff nonnegNumber_silence] at hsilent
  by_contra hbig
  have hone : 0x3F800000 ≤ roundUnits (mag x * mag 0x3F7FFD61#32) (2 ^ 149) := by
    refine le_roundUnits_of_bitsMag_le (by positivity) (by decide) ?_
    rw [bitsMag_silence, mag_kDecay]
    calc 2 ^ 149 * 2 ^ 149 ≤ 2 * 2 ^ 149 * (16776545 * 2 ^ 125) := by norm_num
      _ ≤ mag x * (16776545 * 2 ^ 125) := Nat.mul_le_mul_right _ (not_lt.mp hbig)
  have hlt := hone.trans (scaled_le_trackedEnv hc henv hx)
  exact absurd hlt (not_le.mpr hsilent)

/-- `TARGET` / `ENV`, rounded: one part in 2^24 above at most. -/
theorem mag_quotient_mul_le (henv : NonnegNumber env) (hloud : ¬ flt env 0x3F800000#32 = true)
    (hf : isFinite env = true) :
    2 ^ 24 * (mag (fdiv 0x44FFE000#32 env) * mag env) ≤ (2 ^ 24 + 1) * (2 ^ 149 * (2047 * 2 ^ 149)) := by
  obtain ⟨hone, hq⟩ := quotient_of_loud henv hloud hf
  rw [hq, mag_eq_bitsMag (pack _ _), magBits_pack _ _ ((roundUnits_le_infBits _ _).trans_lt infBits_lt), mag_target]
  refine bitsMag_roundUnits_le (lt_of_lt_of_le (by positivity) hone) ?_
  calc 2 ^ 23 * mag env ≤ 2 ^ 23 * 2 ^ 277 := Nat.mul_le_mul_left _ (mag_lt_two_pow hf le_rfl).le
    _ = 2 ^ 151 * 2 ^ 149 := by rw [← pow_add, ← pow_add]
    _ ≤ 2 ^ 149 * (2047 * 2 ^ 149) := by norm_num

/-- The sample's magnitude times `K_DECAY` is at most the envelope that followed it and one part in 2^24. -/
theorem mag_mul_kDecay_le (hc : specValues c) (henv : NonnegNumber env) (hx : isFinite x = true)
    (hloud : ¬ flt (trackedEnv c env x) 0x3F800000#32 = true) (hf : isFinite (trackedEnv c env x) = true) :
    2 ^ 24 * (mag x * mag 0x3F7FFD61#32) ≤ (2 ^ 24 + 1) * (mag (trackedEnv c env x) * 2 ^ 149) := by
  rw [(nonnegNumber_trackedEnv hc henv).flt_iff nonnegNumber_silence, not_lt] at hloud
  have hnormal : 2 ^ 23 ≤ magBits (trackedEnv c env x) := le_trans (by decide) hloud
  rw [mag_eq_bitsMag (trackedEnv c env x)]
  exact le_of_roundUnits_le (by positivity) hnormal ((isFinite_iff _).mp hf) (scaled_le_trackedEnv hc henv hx)

/-- The exact product of sample and gain is at most 2047.5: out of silence about 2047 / 0.99996, in silence below 80. -/
theorem sample_mul_gain_le (hc : specValues c) (henv : NonnegNumber env) (hx : isFinite x = true) :
    2 * (mag x * mag (appliedGain (trackedEnv c env x))) ≤ 4095 * 2 ^ 149 * 2 ^ 149 := by
  have htracked : NonnegNumber (trackedEnv c env x) := nonnegNumber_trackedEnv hc henv
  by_cases hsilent : flt (trackedEnv c env x) 0x3F800000#32 = true
  · have hlt := mag_lt_of_silent hc henv hx hsilent
    have hgain := (appliedGain_le htracked).2
    rw [mag_maxGain] at hgain
    calc _ ≤ 2 * ((2 * 2 ^ 149) * (40 * 2 ^ 149)) := Nat.mul_le_mul_left _ (Nat.mul_le_mul hlt.le hgain)
      _ ≤ _ := by norm_num
  rcases isFinite_or_isInf htracked.1 with hf | hi
  · have hgain := appliedGain_le_quotient htracked hsilent
    have hquot := mag_quotient_mul_le htracked hsilent hf
    have hsample := mag_mul_kDecay_le hc henv hx hsilent hf
    rw [mag_kDecay] at hsample
    generalize mag (appliedGain (trackedEnv c env x)) = g at *
    generalize mag (fdiv 0x44FFE000#32 (trackedEnv c env x)) = q at *
    generalize mag (trackedEnv c env x) = e at *
    generalize mag x = a at *
    refine (Nat.mul_le_mul_left 2 (Nat.mul_le_mul_left a hgain)).trans ?_
    refine Nat.le_of_mul_le_mul_left ?_ (show 0 < 2 ^ 48 * (16776545 * 2 ^ 125) by norm_num)
    calc 2 ^ 48 * (16776545 * 2 ^ 125) * (2 * (a * q))
        = 2 * 2 ^ 24 * q * (2 ^ 24 * (a * (16776545 * 2 ^ 125))) := by ring
      _ ≤ 2 * 2 ^ 24 * q * ((2 ^ 24 + 1) * (e * 2 ^ 149)) := Nat.mul_le_mul_left _ hsample
      _ = 2 * (2 ^ 24 + 1) * 2 ^ 149 * (2 ^ 24 * (q * e)) := by ring
      _ ≤ 2 * (2 ^ 24 + 1) * 2 ^ 149 * ((2 ^ 24 + 1) * (2 ^ 149 * (2047 * 2 ^ 149))) := Nat.mul_le_mul_left _ hquot
      _ ≤ 2 ^ 48 * (16776545 * 2 ^ 125) * (4095 * 2 ^ 149 * 2 ^ 149) := by norm_num
  · rw [htracked.eq_inf hi, appliedGain_inf, show mag posZero = 0 by decide, mul_zero, mul_zero]
    exact Nat.zero_le _

/-- 2047.5 in units. -/
theorem bitsMag_ceiling : 2 * bitsMag 0x44FFF000 = 4095 * 2 ^ 149 := by decide +kernel

/-- Every finite sample gives an output of at most 2047 (rule R165). -/
theorem natAbs_agcResult_le (hc : specValues c) (henv : NonnegNumber env) (hx : isFinite x = true) :
    (agcResult c (trackedEnv c env x) x).natAbs ≤ 2047 := by
  obtain ⟨hgain, -⟩ := appliedGain_le (nonnegNumber_trackedEnv (x := x) hc henv)
  have hprod := sample_mul_gain_le hc henv hx
  rw [agcResult_specValues hc]
  refine (natAbs_f2i_le _).trans ?_
  have hle : magBits (fmul x (appliedGain (trackedEnv c env x))) ≤ 0x44FFF000 := by
    rw [magBits_fmul hx hgain]
    refine roundUnits_le_of_le_bitsMag (by positivity) ?_
    rw [← bitsMag_ceiling, Nat.mul_assoc] at hprod
    exact Nat.le_of_mul_le_mul_left hprod two_pos
  rw [← bitsMag_le_iff, ← mag_eq_bitsMag] at hle
  have hceil := bitsMag_ceiling
  exact Nat.lt_succ_iff.mp ((Nat.div_lt_iff_lt_mul (by positivity)).mpr (by omega))

/-- With an infinite envelope the gain is 0, so the output is. -/
theorem agcResult_inf (hc : specValues c) : agcResult c 0x7F800000#32 x = 0 := by
  rw [agcResult_specValues hc, appliedGain_inf]
  exact (f2i_fmul_zero (by decide) x).2

theorem agcResult_of_isZero (hc : specValues c) (hx : isZero x = true) : agcResult c env x = 0 := by
  rw [agcResult_specValues hc]
  exact (f2i_fmul_zero hx _).1

/-- The output never exceeds the sample's magnitude times 40.0 (rule R164). A finite sample meets a gain of at most 40.0,
and its output is too small for the clamp of `f2i` to matter. -/
theorem natAbs_agcResult_le_ceiling (hc : specValues c) (henv : NonnegNumber env) :
    ((agcResult c (trackedEnv c env x) x).natAbs : Int) ≤ f2i (fmul (fabs x) 0x42200000#32) := by
  by_cases hnan : isNaN x = true
  · rw [agcResult_specValues hc, fmul_nan_left _ _ hnan, fabs, if_pos hnan]
    decide
  rw [Bool.not_eq_true] at hnan
  have habs := nonnegNumber_fabs hnan
  have hceil : NonnegNumber (fmul (fabs x) 0x42200000#32) := habs.fmul_positive (by decide) (by decide)
  rw [f2i_nonneg hceil]
  rcases isFinite_or_isInf hnan with hf | hi
  · obtain ⟨hgain, hgainle⟩ := appliedGain_le (nonnegNumber_trackedEnv (x := x) hc henv)
    have hsmall := natAbs_agcResult_le hc henv hf
    have hfabs : isFinite (fabs x) = true := by rwa [isFinite_iff, magBits_fabs hnan, ← isFinite_iff]
    have hmag : mag (fmul x (appliedGain (trackedEnv c env x))) ≤ mag (fmul (fabs x) 0x42200000#32) := by
      rw [mag_eq_bitsMag, mag_eq_bitsMag, bitsMag_le_iff, magBits_fmul hf hgain, magBits_fmul hfabs (by decide),
        mag_eq_bitsMag (fabs x), magBits_fabs hnan, ← mag_eq_bitsMag]
      exact roundUnits_mono (by positivity) (by positivity) (Nat.mul_le_mul_right _ (Nat.mul_le_mul_left _ hgainle))
    have hdiv := Nat.div_le_div_right (c := 2 ^ 149) hmag
    have htrunc := natAbs_f2i_le (fmul x (appliedGain (trackedEnv c env x)))
    rw [← agcResult_specValues hc] at htrunc
    omega
  · rw [trackedEnv_of_isInf hc henv hi, agcResult_inf hc]
    exact Int.natCast_nonneg _

/-! A zero sample (rule R166). -/

/-- A zero is above no envelope, so the envelope decays. -/
theorem trackedEnv_of_isZero (hc : specValues c) (henv : NonnegNumber env) (hx : isZero x = true) :
    trackedEnv c env x = fmul env 0x3F7FFD61#32 := by
  have hnum := isNaN_of_isFinite (isFinite_of_isZero hx)
  rw [trackedEnv_specValues hc, if_neg]
  rw [(nonnegNumber_fabs hnum).fgt_iff henv, magBits_fabs hnum, (isZero_iff x).mp hx]
  exact Nat.not_lt_zero _

/-- The decayed bits of a positive finite envelope: positive, no larger, and smaller in the normal range, where `K_DECAY`
takes off more than half of a spacing. -/
theorem roundUnits_kDecay {v : Nat} (hpos : 1 ≤ v) :
    1 ≤ roundUnits (bitsMag v * mag 0x3F7FFD61#32) (2 ^ 149) ∧
      roundUnits (bitsMag v * mag 0x3F7FFD61#32) (2 ^ 149) ≤ v ∧
      (2 ^ 23 ≤ v → roundUnits (bitsMag v * mag 0x3F7FFD61#32) (2 ^ 149) < v) := by
  have hle : roundUnits (bitsMag v * mag 0x3F7FFD61#32) (2 ^ 149) ≤ v := by
    refine roundUnits_le_of_le_bitsMag (by positivity) ?_
    rw [mag_kDecay]
    exact Nat.mul_le_mul_left _ (by norm_num)
  refine ⟨?_, hle, fun hnormal => lt_of_le_of_ne hle fun heq => ?_⟩
  · have hleast : roundUnits (1 * mag 0x3F7FFD61#32) (2 ^ 149) = 1 := by decide +kernel
    rw [← hleast]
    refine roundUnits_mono (by positivity) (by positivity) ?_
    gcongr
    exact (bitsMag_lt_iff (v := 0)).mpr hpos
  · obtain ⟨u, rfl⟩ : ∃ u, v = u + 1 := ⟨v - 1, by omega⟩
    obtain ⟨w, hw, hround⟩ := exists_nearestBits (bitsMag (u + 1) * mag 0x3F7FFD61#32) (2 ^ 149) (by positivity)
    have hmid := (hw.below u (by omega)).1
    have hlow : bitsMag (u + 1) ≤ bitsMag w := bitsMag_le_iff.mpr (by omega)
    obtain ⟨k, m, rfl, hm, hk⟩ := exists_binade u
    have hspacing : (2 ^ 23 - 1) * 2 ^ k ≤ m * 2 ^ k := Nat.mul_le_mul_right _ (by omega)
    have hpos : 0 < 2 ^ k := by positivity
    rw [bitsMag_succ k m hm hk, Nat.add_one_mul m] at hlow
    rw [bitsMag_succ k m hm hk, bitsMag_binade k m hm.le hk, Nat.add_one_mul m, mag_kDecay] at hmid
    generalize m * 2 ^ k = low at *
    generalize 2 ^ k = spacing at *
    omega

/-- The decay of a positive finite envelope, as the block orders numbers. -/
theorem fmul_kDecay_of_positive (hpos : 1 ≤ env.toNat) (hfin : env.toNat ≤ 0x7F7FFFFF) :
    fgt (fmul env 0x3F7FFD61#32) posZero = true ∧ fle (fmul env 0x3F7FFD61#32) env = true ∧
      (0x00800000 ≤ env.toNat → flt (fmul env 0x3F7FFD61#32) env = true) := by
  have hbits : magBits env = env.toNat := Nat.mod_eq_of_lt (by omega)
  obtain ⟨hsign, -, hnum⟩ := positiveWord_sign_and_class (w := env) ⟨hpos, by omega⟩
  have henv : NonnegNumber env := ⟨hnum, hsign⟩
  have hf : isFinite env = true := by rw [isFinite_iff, hbits, infBits]; omega
  have hdecayed : NonnegNumber (fmul env 0x3F7FFD61#32) := henv.fmul_positive (by decide) (by decide)
  rw [hdecayed.fgt_iff nonnegNumber_posZero, hdecayed.fle_iff henv, hdecayed.flt_iff henv,
    magBits_fmul hf (by decide), mag_eq_bitsMag env, hbits]
  exact roundUnits_kDecay hpos

end

end Sys2Proof.Machine

/-! The S-meter (42_agc_smeter.md rules R167 to R169). -/

namespace Sys2Proof.Machine

open Claims

theorem exec_smeterUpdate (s : State) : exec .smeterUpdate s = execSmeterUpdate s := rfl

theorem smeterReading_eq_smeterValue (c : Cfg) (env : F32) : smeterReading c env = smeterValue c env := rfl

theorem logPeak_ofOpen (p : OpenParams) (v : F32) :
    logPeak (Cfg.ofOpen p) v = f2i (fmul (flog10 .correctlyRounded v) 0x44800000#32) := rfl

/-- The S-meter's map under the spec's parameters, its domain ends converted. -/
theorem smeterValue_ofOpen (p : OpenParams) (env : F32) :
    smeterValue (Cfg.ofOpen p) env =
      if fle env 0x3F800000#32 = true then 0
      else ((min (max (logPeak (Cfg.ofOpen p) env) (logPeak (Cfg.ofOpen p) 0x41F00000#32))
          (logPeak (Cfg.ofOpen p) 0x42F00000#32) - logPeak (Cfg.ofOpen p) 0x41F00000#32) * 255).tdiv
        (logPeak (Cfg.ofOpen p) 0x42F00000#32 - logPeak (Cfg.ofOpen p) 0x41F00000#32) := rfl

/-- log10(30.0) times 1024.0, truncated. -/
theorem logPeak_low (p : OpenParams) : logPeak (Cfg.ofOpen p) 0x41F00000#32 = 1512 := by
  rw [logPeak_ofOpen]
  decide +kernel

/-- log10(120.0) times 1024.0, truncated. -/
theorem logPeak_high (p : OpenParams) : logPeak (Cfg.ofOpen p) 0x42F00000#32 = 2129 := by
  rw [logPeak_ofOpen]
  decide +kernel

/-- An infinity is clamped by `f2i`. -/
theorem logPeak_inf (p : OpenParams) : logPeak (Cfg.ofOpen p) 0x7F800000#32 = 2 ^ 31 - 1 := by
  rw [logPeak_ofOpen]
  decide +kernel

end Sys2Proof.Machine

/-! The statements about the AGC and the S-meter. -/

namespace Sys2Proof.Scope

open Machine Claims

/-- Settles O24: the value is in range as `smeterValue_range` has it, so the u8 and the result word hold it. -/
theorem smeterUpdateInRange : Obligations.SmeterUpdateInRange := by
  unfold Obligations.SmeterUpdateInRange
  intro s hwf
  obtain ⟨-, -, -, -, hdom, -⟩ := s.cfg.wf_iff.mp hwf
  obtain ⟨hlow, hhigh⟩ := smeterValue_range hdom s.env
  have hmax := s.cfg.smMax.isLt
  rw [smeterReading_eq_smeterValue]
  refine ⟨hlow, hhigh, ?_⟩
  rw [exec_smeterUpdate, execSmeterUpdate]
  lift smeterValue s.cfg s.env to Nat using hlow with n
  have hbyte : (BitVec.ofNat 8 n).toNat = n := by
    rw [BitVec.toNat_ofNat]
    omega
  simp only [Int.toNat_natCast, hbyte, BitVec.ofInt_natCast]
  rfl

/-- Settles O41: the product of sample and gain is rounded to at most 2047.5 (`natAbs_agcResult_le`). -/
theorem agcOutputBounded : Obligations.AgcOutputBounded := by
  unfold Obligations.AgcOutputBounded
  intro s x hc hnum hsign hx
  have hle := natAbs_agcResult_le hc ⟨hnum, hsign⟩ hx
  refine ⟨_, exec_agcStep x s, ?_⟩
  rw [toInt_agcResult]
  omega

/-- Settles O42: the gain is at most 40.0 (`natAbs_agcResult_le_ceiling`). -/
theorem agcGainCeiling : Obligations.AgcGainCeiling := by
  unfold Obligations.AgcGainCeiling
  intro s x hc hnum hsign
  have hle := natAbs_agcResult_le_ceiling (x := x) hc ⟨hnum, hsign⟩
  refine ⟨_, exec_agcStep x s, ?_⟩
  rwa [toInt_agcResult]

/-- Settles O43: a zero sample lets the envelope decay and gives 0 whatever the gain. -/
theorem zeroInputDecaysEnvelope : Obligations.ZeroInputDecaysEnvelope := by
  unfold Obligations.ZeroInputDecaysEnvelope
  intro s x hc hx
  have hzero : isZero x = true := by rcases hx with rfl | rfl <;> decide
  have hresult := agcResult_of_isZero (env := trackedEnv s.cfg s.env x) hc hzero
  refine ⟨fun hpos hfin => ⟨_, exec_agcStep x s, ?_⟩, fun hstart => ⟨_, exec_agcStep x s, ?_⟩⟩
  · obtain ⟨hsign, -, hnum⟩ := positiveWord_sign_and_class (w := s.env) ⟨hpos, by omega⟩
    rw [hresult, trackedEnv_of_isZero hc ⟨hnum, hsign⟩ hzero]
    exact ⟨rfl, fmul_kDecay_of_positive hpos hfin⟩
  · have henv : NonnegNumber s.env := hstart ▸ nonnegNumber_posZero
    have hdecayed : fmul 0x00000000#32 0x3F7FFD61#32 = 0x00000000#32 := by decide +kernel
    rw [hresult, trackedEnv_of_isZero hc henv hzero, hstart]
    exact ⟨rfl, hdecayed⟩

/-- Settles O44: the envelope is tracked to +∞ again and the gain is `TARGET` / ∞ = 0. -/
theorem infiniteEnvelopeSticks : Obligations.InfiniteEnvelopeSticks := by
  unfold Obligations.InfiniteEnvelopeSticks
  intro s x hc henv
  rw [exec_agcStep, henv, trackedEnv_inf hc, agcResult_inf hc, ← henv]
  rfl

/-- Settles O18. -/
theorem muteForcesEnvelope : Obligations.MuteForcesEnvelope := by
  unfold Obligations.MuteForcesEnvelope
  exact fun _ => rfl

/-- Settles O23: `exec_agcStep`, the rule as the statements spell it. -/
theorem agcStepTracksThenScales : Obligations.AgcStepTracksThenScales := by
  unfold Obligations.AgcStepTracksThenScales
  exact fun s x => exec_agcStep x s

/-- Settles O45: the readings follow from the converted domain ends. -/
theorem smeterSpecConstants : Obligations.SmeterSpecConstants := by
  unfold Obligations.SmeterSpecConstants
  intro p
  refine ⟨logPeak_low p, logPeak_high p, ?_, ?_, ?_, ?_⟩
  · rw [smeterValue_ofOpen, if_pos (by decide)]
  · rw [smeterValue_ofOpen, logPeak_low, logPeak_high]
    decide
  · rw [smeterValue_ofOpen, logPeak_low, logPeak_high]
    decide
  · rw [smeterValue_ofOpen, logPeak_low, logPeak_high, logPeak_inf]
    decide

end Sys2Proof.Scope

/-! The units of the transmit chain as the statements spell them (43_transmit.md rules R190, R193). -/

namespace Sys2Proof.Machine

open Claims

/-- A convolver whose table fits its history writes what rule R107's sum over whole-number indices gives. -/
theorem stepFir_convolve {s : State} (k : FirInst) (x : F32) (hcap : s.cfg.firCap ≤ 256)
    (hlen : (firTable s.cfg k).length ≤ s.cfg.firCap) :
    stepFir k x s = ((convolve s.cfg (firTable s.cfg k) (s.fir k) x).1,
      s.setFir k (convolve s.cfg (firTable s.cfg k) (s.fir k) x).2) := by
  rw [stepFir_spec, firUnit_eq_convolve hcap hlen]

theorem exec_txSample (opa : Word) (s : State) : exec (.txSample opa) s = execTxSample opa s := rfl

end Sys2Proof.Machine

/-! The statement about the transmit chain. -/

namespace Sys2Proof.Scope

open Machine Claims

/-- Settles O27: unit by unit along the chain. No two units share an instance, so each one finds its own state, and the
configuration, as `s` holds them; the divisor is the magnitude or its floor by definition. -/
theorem txSampleRunsTheChain : Obligations.TxSampleRunsTheChain := by
  unfold Obligations.TxSampleRunsTheChain
  intro s a hcap hlen
  rw [exec_txSample, execTxSample]
  simp only [stepDcb_dcbNext, stepAp_cascade, stepFir_convolve, hcap, hlen, setDcb_cfg, setAp_cfg, setFir_cfg]
  rfl

end Sys2Proof.Scope

/-! The mic level meter (44_mic_level.md rules R210 to R213): its timers, its three outcomes, and the fall of the peak. -/

namespace Sys2Proof.Machine

open Claims

/-! The timers. -/

theorem toNat_sub_eq_elapsed (now since : Word) : (now - since).toNat = elapsed now since := by
  rw [BitVec.toNat_sub, elapsed]
  omega

theorem timerExpired_iff (now since duration : Word) :
    timerExpired now since duration = true ↔ duration.toNat ≤ elapsed now since := by
  rw [timerExpired, decide_eq_true_iff, toNat_sub_eq_elapsed]

/-- Presenting both times modulo 2^32 loses nothing but the whole turns of the clock between them (rule R212). -/
theorem elapsed_ofNat {t0 t : Nat} (h : t0 ≤ t) :
    elapsed (BitVec.ofNat 32 t) (BitVec.ofNat 32 t0) = (t - t0) % 2 ^ 32 := by
  rw [elapsed, BitVec.toNat_ofNat, BitVec.toNat_ofNat]
  omega

/-! One equation per outcome of rule R210. -/

section
variable {m : Nat} {now : Word} {s : State}

theorem micUpdate_capture (hm : s.micPeak.toNat < m) :
    micUpdate m now s = { s with micPeak := BitVec.ofNat 16 m, tDecay := now, tHang := now } := if_pos hm

theorem micUpdate_decay (hm : m ≤ s.micPeak.toNat) (hhang : s.cfg.micHang.toNat ≤ elapsed now s.tHang)
    (hdecay : s.cfg.micDecay.toNat ≤ elapsed now s.tDecay) :
    micUpdate m now s =
      { s with micPeak := BitVec.ofNat 16 (s.micPeak.toNat - min s.micPeak.toNat s.cfg.micStep), tDecay := now } := by
  rw [micUpdate, if_neg hm.not_gt, if_pos]
  rw [Bool.and_eq_true, timerExpired_iff, timerExpired_iff]
  exact ⟨hhang, hdecay⟩

theorem micUpdate_hold (hm : m ≤ s.micPeak.toNat)
    (htimer : elapsed now s.tHang < s.cfg.micHang.toNat ∨ elapsed now s.tDecay < s.cfg.micDecay.toNat) :
    micUpdate m now s = s := by
  rw [micUpdate, if_neg hm.not_gt, if_neg]
  rw [Bool.and_eq_true, timerExpired_iff, timerExpired_iff]
  omega

end

/-- The outcomes are exhaustive: the peak is captured, decays after the hang time, or stays. -/
theorem micUpdate_cases (m : Nat) (now : Word) (s : State) :
    (s.micPeak.toNat < m ∧
      micUpdate m now s = { s with micPeak := BitVec.ofNat 16 m, tDecay := now, tHang := now }) ∨
    (s.cfg.micHang.toNat ≤ elapsed now s.tHang ∧ micUpdate m now s =
      { s with micPeak := BitVec.ofNat 16 (s.micPeak.toNat - min s.micPeak.toNat s.cfg.micStep), tDecay := now }) ∨
    micUpdate m now s = s := by
  rcases lt_or_ge s.micPeak.toNat m with hlt | hm
  · exact .inl ⟨hlt, micUpdate_capture hlt⟩
  rcases lt_or_ge (elapsed now s.tHang) s.cfg.micHang.toNat with hhang | hhang
  · exact .inr (.inr (micUpdate_hold hm (.inl hhang)))
  rcases lt_or_ge (elapsed now s.tDecay) s.cfg.micDecay.toNat with hdecay | hdecay
  · exact .inr (.inr (micUpdate_hold hm (.inr hdecay)))
  · exact .inr (.inl ⟨hhang, micUpdate_decay hm hhang hdecay⟩)

/-! The peak as a number. -/

/-- A peak of 16 bits less any amount is held in 16 bits. -/
theorem toNat_ofNat_peak_sub (peak : BitVec 16) (k : Nat) : (BitVec.ofNat 16 (peak.toNat - k)).toNat = peak.toNat - k := by
  rw [BitVec.toNat_ofNat, Nat.mod_eq_of_lt (by omega)]

/-- A code's magnitude is held in 16 bits when the configuration is well formed (rules R16, R211). -/
theorem micMagnitude_lt {c : Cfg} (hwf : c.wf = true) (a : Word) : micMagnitude c (code c a) < 2 ^ 16 := by
  obtain ⟨-, -, -, -, -, -, -, -, ⟨hlow, hhigh, hbias⟩, -⟩ := c.wf_iff.mp hwf
  calc micMagnitude c (code c a)
    _ ≤ 2 ^ (c.adcBits - 1) := micMagnitude_le hlow hbias a
    _ < 2 ^ 16 := Nat.pow_lt_pow_right (by norm_num) (by omega)

/-! The command. -/

theorem u32Result_toNat (peak : BitVec 16) : u32Result peak.toNat = peak.setWidth 32 := BitVec.ofNat_toNat 32 peak

theorem exec_micSample (a now : Word) (s : State) :
    exec (.micSample a now) s = .next ((micUpdate (micMagnitude s.cfg (code s.cfg a)) now s).withResults
      ((micUpdate (micMagnitude s.cfg (code s.cfg a)) now s).micPeak.setWidth 32) 0#32) := by
  rw [← u32Result_toNat]
  rfl

end Sys2Proof.Machine

/-! The statements about the mic level meter. -/

namespace Sys2Proof.Scope

open Machine Claims

/-- Settles O25: each outcome of rule R210 has its equation, and the results are written on top of it. -/
theorem micSampleCapturesDecaysOrHolds : Obligations.MicSampleCapturesDecaysOrHolds := by
  unfold Obligations.MicSampleCapturesDecaysOrHolds
  intro s a now
  rw [exec_micSample, micMagnitude]
  refine ⟨fun hm => ?capture, fun hm hhang hdecay => ?decay, fun hm htimer => ?hold⟩
  case capture =>
    rw [micUpdate_capture hm]
    rfl
  case decay =>
    rw [micUpdate_decay hm hhang hdecay]
    rfl
  case hold =>
    rw [micUpdate_hold hm htimer]
    rfl

/-- Settles O46: the timer compares with the ticks modulo 2^32, and fewer than 2^32 ticks are their own remainder. -/
theorem micTimersExactUnderHostDuty : Obligations.MicTimersExactUnderHostDuty := by
  unfold Obligations.MicTimersExactUnderHostDuty
  intro t0 t duration hle
  rw [timerExpired_iff, elapsed_ofNat hle]
  refine ⟨Iff.rfl, fun ⟨_, hlt⟩ => ?_⟩
  rw [Nat.mod_eq_of_lt (by omega)]

/-- Settles O47: by the outcomes of `micUpdate`, of which the decay alone lowers the peak. A capture raises it, since a
well-formed configuration's magnitudes are held whole. -/
theorem micPeakFallsSlowly : Obligations.MicPeakFallsSlowly := by
  unfold Obligations.MicPeakFallsSlowly
  intro s a now hwf
  refine ⟨_, exec_micSample a now s, ?_⟩
  rw [withResults_micPeak, withResults_tHang, withResults_tDecay]
  rcases micUpdate_cases (micMagnitude s.cfg (code s.cfg a)) now s with ⟨hlt, heq⟩ | ⟨hhang, heq⟩ | heq
  · rw [heq]
    dsimp only
    rw [BitVec.toNat_ofNat, Nat.mod_eq_of_lt (micMagnitude_lt hwf a)]
    exact ⟨by omega, fun _ => hlt.le, fun hfall => absurd hfall hlt.not_gt⟩
  · rw [heq]
    dsimp only
    rw [toNat_ofNat_peak_sub]
    exact ⟨by omega, fun hsoon => absurd hsoon hhang.not_gt, fun _ => ⟨rfl, rfl⟩⟩
  · rw [heq]
    exact ⟨Nat.le_add_right _ _, fun _ => le_rfl, fun hfall => absurd hfall (lt_irrefl _)⟩

end Sys2Proof.Scope

/-! The control commands (45_control.md rules R230 to R232): the fields of `STATUS`, and what each command leaves behind. -/

namespace Sys2Proof.Machine

/-! `ILL` and the reserved bits of `STATUS`. -/

/-- `STATUS` reads as its `ILL` alone (10_state.md rule R32). -/
theorem statusRead_eq_ite (w : Word) : statusRead w = if ill w then 1#32 else 0#32 := by
  rw [statusRead, BitVec.and_one_eq_setWidth_ofBool_getLsbD, ← ill]
  cases ill w <;> rfl

/-- The bits of the mask of `clearIll`: all of a word's but `ILL`. -/
theorem getLsbD_clearMask (n : Nat) : (0xFFFFFFFE#32).getLsbD n = (decide (n < 32) && decide (n ≠ 0)) := by
  rw [show 0xFFFFFFFE#32 = ~~~1#32 from rfl, BitVec.getLsbD_not, BitVec.getLsbD_one]
  simp

@[simp] theorem ill_clearIll (w : Word) : ill (clearIll w) = false := by
  rw [ill, clearIll, BitVec.getLsbD_and, getLsbD_clearMask]
  exact Bool.and_false _

theorem getLsbD_clearIll_of_ne {n : Nat} (hn : n ≠ 0) (w : Word) : (clearIll w).getLsbD n = w.getLsbD n := by
  rw [clearIll, BitVec.getLsbD_and, getLsbD_clearMask, decide_eq_true hn, Bool.and_true]
  rcases Nat.lt_or_ge n 32 with hlt | hge
  · rw [decide_eq_true hlt, Bool.and_true]
  · rw [BitVec.getLsbD_of_ge w n hge, Bool.false_and]

/-! The commands. -/

theorem exec_nop (s : State) : exec .nop s = .next (s.withResults 0#32 0#32) := rfl

theorem exec_read (reg : ReadReg) (s : State) :
    exec (.read reg) s = .next (s.withResults (readRegister s reg) 0#32) := rfl

theorem exec_statusClear (s : State) :
    exec .statusClear s = .next ({ s with status := clearIll s.status }.withResults 0#32 0#32) := rfl

/-! What `READ` returns of each register (rule R231). -/

/-- The level is zero-extended. -/
theorem readRegister_smeter (s : State) : readRegister s .smeter = s.smeter.setWidth 32 := BitVec.ofNat_toNat 32 s.smeter

/-- The peak is zero-extended. -/
theorem readRegister_micPeak (s : State) : readRegister s .micPeak = s.micPeak.setWidth 32 := u32Result_toNat s.micPeak

theorem readRegister_env (s : State) : readRegister s .env = s.env := rfl

/-- The reserved bits read as zero (rule R32). -/
theorem readRegister_status (s : State) : readRegister s .status = if ill s.status then 1#32 else 0#32 :=
  statusRead_eq_ite s.status

end Sys2Proof.Machine

/-! The statements about the control commands. -/

namespace Sys2Proof.Scope

open Machine

/-- Settles O15: `NOP` writes the results alone, and both are 0. -/
theorem nopOnlyClearsResults : Obligations.NopOnlyClearsResults := by
  unfold Obligations.NopOnlyClearsResults
  exact exec_nop

/-- Settles O16: `READ` writes the results alone, and each register has its equation. -/
theorem readReturnsRegister : Obligations.ReadReturnsRegister := by
  unfold Obligations.ReadReturnsRegister
  intro s
  simp only [exec_read, readRegister_smeter, readRegister_micPeak, readRegister_env, readRegister_status]
  exact ⟨rfl, rfl, rfl, rfl⟩

/-- Settles O17: the mask of `clearIll` takes bit 0 out of `STATUS` and lets every other bit through. -/
theorem statusClearClearsIll : Obligations.StatusClearClearsIll := by
  unfold Obligations.StatusClearClearsIll
  exact fun s => ⟨clearIll s.status, exec_statusClear s, ill_clearIll s.status,
    fun _ hn => getLsbD_clearIll_of_ne hn s.status⟩

end Sys2Proof.Scope

/-! The pieces of the state that the chains work on, and the states that agree on some of them (10_state.md rule R23,
60_exceptions.md rule R260). -/

namespace Sys2Proof.Machine

/-- One of the instances of rule R23, or the AGC envelope of rule R29. -/
inductive Piece where
  | dcb (k : DcbInst)
  | ap (k : ApInst)
  | fir (k : FirInst)
  | ma (k : MaInst)
  | env

/-- What a piece holds. -/
abbrev Piece.Val : Piece → Type
  | .dcb _ => DcbState
  | .ap _ => ApState
  | .fir _ => FirState
  | .ma _ => MaState
  | .env => F32

def State.piece (s : State) : (p : Piece) → p.Val
  | .dcb k => s.dcb k
  | .ap k => s.ap k
  | .fir k => s.fir k
  | .ma k => s.ma k
  | .env => s.env

def State.setPiece (s : State) : (p : Piece) → p.Val → State
  | .dcb k, v => s.setDcb k v
  | .ap k, v => s.setAp k v
  | .fir k, v => s.setFir k v
  | .ma k, v => s.setMa k v
  | .env, v => { s with env := v }

@[simp] theorem setPiece_cfg (s : State) (p : Piece) (v : p.Val) : (s.setPiece p v).cfg = s.cfg := by
  cases p with
  | dcb k => exact setDcb_cfg s k v
  | ap k => exact setAp_cfg s k v
  | fir k => exact setFir_cfg s k v
  | ma k => exact setMa_cfg s k v
  | env => rfl

@[simp] theorem setPiece_piece_same (s : State) (p : Piece) (v : p.Val) : (s.setPiece p v).piece p = v := by
  cases p with
  | dcb k => exact setDcb_dcb_same s k v
  | ap k => exact setAp_ap_same s k v
  | fir k => exact setFir_fir_same s k v
  | ma k => exact setMa_ma_same s k v
  | env => rfl

/-- Writing a piece leaves every other one. -/
theorem setPiece_piece_other (s : State) {p q : Piece} (v : p.Val) (h : q ≠ p) : (s.setPiece p v).piece q = s.piece q := by
  cases p with
  | dcb k => cases q with
    | dcb k' => exact setDcb_dcb_other s k k' v fun hk => h (hk ▸ rfl)
    | _ => simp [State.setPiece, State.piece]
  | ap k => cases q with
    | ap k' => exact setAp_ap_other s k k' v fun hk => h (hk ▸ rfl)
    | _ => simp [State.setPiece, State.piece]
  | fir k => cases q with
    | fir k' => exact setFir_fir_other s k k' v fun hk => h (hk ▸ rfl)
    | _ => simp [State.setPiece, State.piece]
  | ma k => cases q with
    | ma k' => exact setMa_ma_other s k k' v fun hk => h (hk ▸ rfl)
    | _ => simp [State.setPiece, State.piece]
  | env => cases q with
    | env => exact absurd rfl h
    | _ => simp [State.setPiece, State.piece]

/-- No field but the pieces' own shows in them. -/
theorem piece_withOthers (s : State) (p : Piece) (smeter : BitVec 8) (peak : BitVec 16) (decay hang status a b : Word) :
    State.piece { s with
      smeter := smeter, micPeak := peak, tDecay := decay, tHang := hang, status := status, resa := a, resb := b } p
        = s.piece p := by
  cases p with
  | dcb k => cases k <;> rfl
  | ap k => cases k <;> rfl
  | fir k => cases k <;> rfl
  | ma k => cases k <;> rfl
  | env => rfl

/-- The states hold the same configuration and the same in every piece of `c`. -/
structure AgreeOn (c : Set Piece) (s t : State) : Prop where
  cfg : s.cfg = t.cfg
  piece : ∀ p ∈ c, s.piece p = t.piece p

namespace AgreeOn

variable {c d : Set Piece} {s t u : State}

theorem refl (c : Set Piece) (s : State) : AgreeOn c s s := ⟨rfl, fun _ _ => rfl⟩

theorem symm (h : AgreeOn c s t) : AgreeOn c t s := ⟨h.cfg.symm, fun p hp => (h.piece p hp).symm⟩

theorem trans (h : AgreeOn c s t) (h' : AgreeOn c t u) : AgreeOn c s u :=
  ⟨h.cfg.trans h'.cfg, fun p hp => (h.piece p hp).trans (h'.piece p hp)⟩

theorem mono (h : AgreeOn d s t) (hcd : c ⊆ d) : AgreeOn c s t := ⟨h.cfg, fun p hp => h.piece p (hcd hp)⟩

/-- The results, the meters and `STATUS` belong to no piece. -/
theorem withOthers (c : Set Piece) (s : State) (smeter : BitVec 8) (peak : BitVec 16) (decay hang status a b : Word) :
    AgreeOn c { s with
      smeter := smeter, micPeak := peak, tDecay := decay, tHang := hang, status := status, resa := a, resb := b } s :=
  ⟨rfl, fun p _ => piece_withOthers s p smeter peak decay hang status a b⟩

theorem withResults (c : Set Piece) (s : State) (a b : Word) : AgreeOn c (s.withResults a b) s := withOthers c s ..

theorem illegalCommand (c : Set Piece) (s : State) : AgreeOn c (illegalCommand s) s := withOthers c s ..

/-- The same value written to a piece of both states. -/
theorem setPiece (h : AgreeOn c s t) (p : Piece) (v : p.Val) : AgreeOn c (s.setPiece p v) (t.setPiece p v) where
  cfg := by rw [setPiece_cfg, setPiece_cfg, h.cfg]
  piece q hq := by
    by_cases hqp : q = p
    · subst hqp
      rw [setPiece_piece_same, setPiece_piece_same]
    · rw [setPiece_piece_other s v hqp, setPiece_piece_other t v hqp, h.piece q hq]

theorem setPiece_left (s : State) {p : Piece} (hp : p ∉ c) (v : p.Val) : AgreeOn c (s.setPiece p v) s :=
  ⟨setPiece_cfg s p v, fun _ hq => setPiece_piece_other s v (ne_of_mem_of_not_mem hq hp)⟩

end AgreeOn

end Sys2Proof.Machine

/-! Computations confined to some pieces: what they write is there, and what they read is there or in the configuration. -/

namespace Sys2Proof.Machine

/-- `m` writes no piece outside `c`, and its answer and what it leaves in `c` depend on the configuration and `c` alone. -/
structure Confined {α : Type} (c : Set Piece) (m : StateM State α) : Prop where
  frame : ∀ s, AgreeOn cᶜ (m s).2 s
  determined : ∀ {s t}, AgreeOn c s t → (m s).1 = (m t).1 ∧ AgreeOn c (m s).2 (m t).2

/-- Reads and writes one piece. -/
def onPiece {α : Type} (p : Piece) (f : Cfg → p.Val → α × p.Val) : StateM State α := fun s =>
  let r := f s.cfg (s.piece p)
  (r.1, s.setPiece p r.2)

namespace Confined

variable {α β : Type} {c d : Set Piece}

protected theorem pure (a : α) : Confined c (pure a : StateM State α) :=
  ⟨fun s => .refl _ s, fun h => ⟨rfl, h⟩⟩

protected theorem bind {m : StateM State α} {k : α → StateM State β} (hm : Confined c m) (hk : ∀ a, Confined c (k a)) :
    Confined c (m >>= k) where
  frame s := ((hk (m s).1).frame (m s).2).trans (hm.frame s)
  determined {s t} h := by
    obtain ⟨hans, hstate⟩ := hm.determined h
    have hnext := (hk (m s).1).determined hstate
    rwa [show k (m s).1 (m t).2 = k (m t).1 (m t).2 by rw [hans]] at hnext

/-- A computation that reads the configuration first. -/
theorem withCfg {m : Cfg → StateM State α} (h : ∀ cfg, Confined c (m cfg)) : Confined c fun s => m s.cfg s where
  frame s := (h s.cfg).frame s
  determined {s _} hst := hst.cfg ▸ (h s.cfg).determined hst

/-- What lies in the larger set and outside the smaller one stays as it was on both sides. -/
theorem mono {m : StateM State α} (h : Confined c m) (hcd : c ⊆ d) : Confined d m where
  frame s := (h.frame s).mono (Set.compl_subset_compl.mpr hcd)
  determined {s t} hst := by
    obtain ⟨hans, hin⟩ := h.determined (hst.mono hcd)
    refine ⟨hans, hin.cfg, fun p hp => ?_⟩
    by_cases hpc : p ∈ c
    · exact hin.piece p hpc
    · calc (m s).2.piece p = s.piece p := (h.frame s).piece p hpc
        _ = t.piece p := hst.piece p hp
        _ = (m t).2.piece p := ((h.frame t).piece p hpc).symm

theorem onPiece {p : Piece} (hp : p ∈ c) (f : Cfg → p.Val → α × p.Val) : Confined c (onPiece p f) where
  frame s := .setPiece_left s (Set.notMem_compl_iff.mpr hp) _
  determined {s t} h := by
    have hread : f s.cfg (s.piece p) = f t.cfg (t.piece p) := by rw [h.cfg, h.piece p hp]
    unfold Machine.onPiece
    rw [hread]
    exact ⟨rfl, h.setPiece p _⟩

/-! One sample through a unit. -/

theorem stepDcb {k : DcbInst} (hk : .dcb k ∈ c) (x : F32) : Confined c (stepDcb k x) :=
  onPiece hk fun cfg st => dcbUnit cfg st x

theorem stepAp {k : ApInst} (hk : .ap k ∈ c) (x : F32) : Confined c (stepAp k x) :=
  onPiece hk fun cfg st => apUnit cfg (apCoeffs cfg k) st x

theorem stepFir {k : FirInst} (hk : .fir k ∈ c) (x : F32) : Confined c (stepFir k x) :=
  onPiece hk fun cfg st => firUnit cfg (firTable cfg k) st x

theorem stepMa {k : MaInst} (hk : .ma k ∈ c) (x : F32) : Confined c (stepMa k x) :=
  onPiece hk fun cfg st => maUnit cfg st x

theorem stepAgc (hc : .env ∈ c) (x : F32) : Confined c (stepAgc x) :=
  onPiece hc fun cfg env => (agcOutput cfg (agcTrack cfg env (fabs x)) x, agcTrack cfg env (fabs x))

theorem smoothRx {k : MaInst} (hk : .ma k ∈ c) (x : F32) : Confined c (smoothRx k x) :=
  withCfg (m := fun cfg s => if cfg.rxSmooth then Machine.stepMa k x s else (x, s)) fun cfg => by
    split
    · exact stepMa hk x
    · exact .pure x

end Confined

/-! The commands that work on pieces, as computations that answer `RESA` and `RESB`. -/

/-- The receive chain (41_receive.md rule R140). -/
def rxRun (cfg : Cfg) (mode : RxMode) (opa opb : Word) : StateM State (Word × Word) := do
  let di ← stepDcb .rxI (codeToF32 cfg opa)
  let dq ← stepDcb .rxQ (codeToF32 cfg opb)
  let mi ← smoothRx .rxI di
  let mq ← smoothRx .rxQ dq
  let p ← stepAp .rxP mi
  let n ← stepAp .rxN mq
  let f ← stepFir (rxFilter mode) (fpSub cfg.fp p n)
  let out ← stepAgc (fpMul cfg.fp f cfg.rxScale)
  return (i32Result out, 0#32)

/-- The transmit chain (43_transmit.md rule R190). -/
def txRun (cfg : Cfg) (opa : Word) : StateM State (Word × Word) := do
  let d ← stepDcb .tx (codeToF32 cfg opa)
  let sh ← stepFir .txShape (fpMul cfg.fp (fpMul cfg.fp d cfg.txNorm) cfg.txGain)
  let i ← stepAp .txP sh
  let q ← stepAp .txN sh
  let m := txDivisor cfg (txMagnitude cfg i q)
  let fi ← stepFir .txI (fpDiv cfg.fp i m)
  let fq ← stepFir .txQ (fpDiv cfg.fp q m)
  return (i32Result (f2i (fpMul cfg.fp fi cfg.txOutScale)), i32Result (f2i (fpMul cfg.fp fq cfg.txOutScale)))

/-- The state the receive chain owns (10_state.md rules R23, R29). -/
def rxOwns : Piece → Bool
  | .dcb k => decide (k ≠ .tx)
  | .ap k => decide (k = .rxP ∨ k = .rxN)
  | .fir k => decide (k = .rxSsb ∨ k = .rxCw)
  | .ma _ => true
  | .env => true

/-- The state the transmit chain owns (10_state.md rule R23). -/
def txOwns : Piece → Bool
  | .dcb k => decide (k = .tx)
  | .ap k => decide (k = .txP ∨ k = .txN)
  | .fir k => decide (k = .txShape ∨ k = .txI ∨ k = .txQ)
  | .ma _ => false
  | .env => false

def rxPieces : Set Piece := {p | rxOwns p = true}

def txPieces : Set Piece := {p | txOwns p = true}

/-- The chains share no piece (60_exceptions.md rule R260). -/
theorem rxOwns_and_txOwns (p : Piece) : (rxOwns p && txOwns p) = false := by
  cases p with
  | dcb k => cases k <;> rfl
  | ap k => cases k <;> rfl
  | fir k => cases k <;> rfl
  | ma k => rfl
  | env => rfl

theorem disjoint_rxPieces_txPieces : Disjoint rxPieces txPieces :=
  Set.disjoint_left.mpr fun p hrx htx => Bool.false_ne_true <|
    (rxOwns_and_txOwns p).symm.trans (Bool.and_eq_true_iff.mpr ⟨hrx, htx⟩)

/-- Every unit of the receive chain works on a piece the chain owns. -/
theorem Confined.rxRun (cfg : Cfg) (mode : RxMode) (opa opb : Word) : Confined rxPieces (rxRun cfg mode opa opb) :=
  have hfir : .fir (rxFilter mode) ∈ rxPieces := by cases mode <;> rfl
  .bind (.stepDcb (by rfl) _) fun _ => .bind (.stepDcb (by rfl) _) fun _ => .bind (.smoothRx (by rfl) _) fun _ =>
    .bind (.smoothRx (by rfl) _) fun _ => .bind (.stepAp (by rfl) _) fun _ => .bind (.stepAp (by rfl) _) fun _ =>
      .bind (.stepFir hfir _) fun _ => .bind (.stepAgc (by rfl) _) fun _ => .pure _

/-- Every unit of the transmit chain works on a piece the chain owns. -/
theorem Confined.txRun (cfg : Cfg) (opa : Word) : Confined txPieces (txRun cfg opa) :=
  .bind (.stepDcb (by rfl) _) fun _ => .bind (.stepFir (by rfl) _) fun _ => .bind (.stepAp (by rfl) _) fun _ =>
    .bind (.stepAp (by rfl) _) fun _ => .bind (.stepFir (by rfl) _) fun _ => .bind (.stepFir (by rfl) _) fun _ => .pure _

/-- A unit step answers the unit's output in `RESA` alone. -/
theorem Confined.answering {α : Type} {c : Set Piece} {m : StateM State α} (h : Confined c m) (out : α → Word) :
    Confined c (do return (out (← m), 0#32) : StateM State (Word × Word)) :=
  .bind h fun _ => .pure _

/-! The commands. -/

/-- The pieces a command works on. -/
def footprint : Instr → Set Piece
  | .rxSample _ _ _ => rxPieces
  | .txSample _ => txPieces
  | .agcMute => {.env}
  | .dcbStep k _ => {.dcb k}
  | .apStep k _ => {.ap k}
  | .firStep k _ => {.fir k}
  | .maStep k _ => {.ma k}
  | .agcStep _ => {.env}
  | _ => ∅

/-- The command is `m`, whose answer goes to the result registers. -/
def Runs (i : Instr) (m : StateM State (Word × Word)) : Prop :=
  ∀ s, exec i s = .next ((m s).2.withResults (m s).1.1 (m s).1.2)

theorem runs_rxRun (mode : RxMode) (opa opb : Word) :
    Runs (.rxSample mode opa opb) fun s => rxRun s.cfg mode opa opb s := fun _ => rfl

theorem runs_txRun (opa : Word) : Runs (.txSample opa) fun s => txRun s.cfg opa s := fun _ => rfl

theorem AgreeOn.of_next {c : Set Piece} {s t u : State} (heq : (.next u : Host.Outcome State Fault Refusal) = .next t)
    (h : AgreeOn c u s) : AgreeOn c t s :=
  Host.Outcome.next.inj heq ▸ h

theorem AgreeOn.micUpdate (c : Set Piece) (m : Nat) (now : Word) (s : State) : AgreeOn c (micUpdate m now s) s := by
  obtain ⟨peak, decay, hang, heq, -⟩ := micUpdate_spec m now s
  rw [heq]
  exact .withOthers c s ..

/-- A command is a computation confined to its footprint, or it has none and leaves every piece. -/
theorem confined_or_kept (i : Instr) :
    (∃ m, Confined (footprint i) m ∧ Runs i m) ∨
      footprint i = ∅ ∧ ∀ {s t}, exec i s = .next t → ∀ c, AgreeOn c t s := by
  cases i with
  | nop => exact .inr ⟨rfl, fun {s _} h c => .of_next h (.withOthers c s ..)⟩
  | rxSample mode opa opb => exact .inl ⟨_, .withCfg fun cfg => .rxRun cfg mode opa opb, runs_rxRun mode opa opb⟩
  | txSample opa => exact .inl ⟨_, .withCfg fun cfg => .txRun cfg opa, runs_txRun opa⟩
  | agcMute =>
    exact .inl ⟨_, .onPiece (p := .env) (Set.mem_singleton _) fun cfg _ => ((0#32, 0#32), cfg.muteEnv), fun _ => rfl⟩
  | smeterUpdate => exact .inr ⟨rfl, fun {s _} h c => .of_next h (.withOthers c s ..)⟩
  | micSample opa opb => exact .inr ⟨rfl, fun h c => .of_next h ((AgreeOn.withResults c _ ..).trans (.micUpdate c ..))⟩
  | read reg => exact .inr ⟨rfl, fun {s _} h c => .of_next h (.withOthers c s ..)⟩
  | statusClear => exact .inr ⟨rfl, fun {s _} h c => .of_next h (.withOthers c s ..)⟩
  | dcbStep k opa =>
    exact .inl ⟨_, (Confined.stepDcb (Set.mem_singleton _) opa).answering f32Result, fun _ => rfl⟩
  | apStep k opa => exact .inl ⟨_, (Confined.stepAp (Set.mem_singleton _) opa).answering f32Result, fun _ => rfl⟩
  | firStep k opa => exact .inl ⟨_, (Confined.stepFir (Set.mem_singleton _) opa).answering f32Result, fun _ => rfl⟩
  | maStep k opa => exact .inl ⟨_, (Confined.stepMa (Set.mem_singleton _) opa).answering f32Result, fun _ => rfl⟩
  | agcStep opa => exact .inl ⟨_, (Confined.stepAgc (Set.mem_singleton _) opa).answering i32Result, fun _ => rfl⟩

/-- A command leaves every piece outside its footprint. -/
theorem exec_frame {i : Instr} {s t : State} {c : Set Piece} (hc : Disjoint c (footprint i)) (h : exec i s = .next t) :
    AgreeOn c t s := by
  obtain ⟨m, hm, hruns⟩ | ⟨-, hkept⟩ := confined_or_kept i
  · exact .of_next ((hruns s).symm.trans h)
      ((AgreeOn.withResults c _ ..).trans ((hm.frame s).mono (Set.subset_compl_iff_disjoint_right.mpr hc)))
  · exact hkept h c

/-- A command whose footprint lies in `c` answers the same in states that agree on `c`, and leaves such states. -/
theorem exec_determined {i : Instr} {s s' t t' : State} {c : Set Piece} (hne : (footprint i).Nonempty) (hc : footprint i ⊆ c)
    (hs : AgreeOn c s s') (h : exec i s = .next t) (h' : exec i s' = .next t') :
    (t.resa, t.resb) = (t'.resa, t'.resb) ∧ AgreeOn c t t' := by
  obtain ⟨m, hm, hruns⟩ | ⟨hempty, -⟩ := confined_or_kept i
  · obtain ⟨hans, hnext⟩ := (hm.mono hc).determined hs
    rw [← Host.Outcome.next.inj ((hruns s).symm.trans h), ← Host.Outcome.next.inj ((hruns s').symm.trans h'), hans]
    exact ⟨rfl, (AgreeOn.withResults c _ ..).trans (hnext.trans (AgreeOn.withResults c _ ..).symm)⟩
  · exact absurd hempty hne.ne_empty

end Sys2Proof.Machine

/-! Noninterference (60_exceptions.md rule R260): the results of the commands that work on a set of pieces are those of
the list without every other command. -/

namespace Sys2Proof.Machine

open Safety

/-- A legal word leads to the state its command answers. -/
theorem exec_after {tr : Transaction} {i : Instr} (h : decode tr = .ok i) (s : State) : exec i s = .next (after tr s) := by
  obtain ⟨t, ht⟩ := exec_completes i s
  unfold after
  rw [perform_of_decode h, ht]

theorem after_of_not_decode {tr : Transaction} (h : ¬ ∃ i, decode tr = .ok i) (s : State) :
    after tr s = illegalCommand s := by
  unfold after
  rw [perform_of_not_decode h]

theorem decodesTo_of_decode {tr : Transaction} {i : Instr} (h : decode tr = .ok i) (p : Instr → Bool) :
    decodesTo p tr = p i := by
  unfold decodesTo
  rw [h]

theorem decodesTo_of_not_decode {tr : Transaction} (h : ¬ ∃ i, decode tr = .ok i) (p : Instr → Bool) :
    decodesTo p tr = false := by
  unfold decodesTo
  split
  next i hi => exact absurd ⟨i, hi⟩ h
  next => rfl

theorem results_cons_of_pos {p : Instr → Bool} {tr : Transaction} (h : decodesTo p tr = true) (ts : List Transaction)
    (s : State) : results p (tr :: ts) s = ((after tr s).resa, (after tr s).resb) :: results p ts (after tr s) :=
  if_pos h

theorem results_cons_of_neg {p : Instr → Bool} {tr : Transaction} (h : ¬ decodesTo p tr = true) (ts : List Transaction)
    (s : State) : results p (tr :: ts) s = results p ts (after tr s) :=
  if_neg h

/-- `b` tells whether a footprint lies in `c` and is not empty; if not, it has nothing of `c`. -/
structure TellsInside (c : Set Piece) (b : Bool) (f : Set Piece) : Prop where
  inside : b = true → f.Nonempty ∧ f ⊆ c
  outside : b = false → Disjoint c f

namespace TellsInside

variable {c f : Set Piece}

theorem true_of_subset (hne : f.Nonempty) (hf : f ⊆ c) : TellsInside c true f :=
  ⟨fun _ => ⟨hne, hf⟩, fun h => absurd h.symm Bool.false_ne_true⟩

theorem false_of_disjoint (h : Disjoint c f) : TellsInside c false f :=
  ⟨fun hb => absurd hb Bool.false_ne_true, fun _ => h⟩

theorem empty (c : Set Piece) : TellsInside c false ∅ := false_of_disjoint (Set.disjoint_empty c)

/-- A footprint of one piece. -/
theorem singleton (owns : Piece → Bool) (p : Piece) : TellsInside {q | owns q = true} (owns p) {p} where
  inside h := ⟨Set.singleton_nonempty p, Set.singleton_subset_iff.mpr h⟩
  outside h := Set.disjoint_singleton_right.mpr fun hp => Bool.false_ne_true (h.symm.trans hp)

end TellsInside

theorem touchesRx_tellsInside (i : Instr) : TellsInside rxPieces (touchesRx i) (footprint i) := by
  cases i with
  | rxSample mode opa opb => exact .true_of_subset ⟨.env, rfl⟩ subset_rfl
  | txSample opa => exact .false_of_disjoint disjoint_rxPieces_txPieces
  | agcMute => exact .singleton rxOwns .env
  | dcbStep k opa => exact .singleton rxOwns (.dcb k)
  | apStep k opa => exact .singleton rxOwns (.ap k)
  | firStep k opa => exact .singleton rxOwns (.fir k)
  | maStep k opa => exact .singleton rxOwns (.ma k)
  | agcStep opa => exact .singleton rxOwns .env
  | _ => exact .empty rxPieces

theorem touchesTx_tellsInside (i : Instr) : TellsInside txPieces (touchesTx i) (footprint i) := by
  cases i with
  | rxSample mode opa opb => exact .false_of_disjoint disjoint_rxPieces_txPieces.symm
  | txSample opa => exact .true_of_subset ⟨.dcb .tx, rfl⟩ subset_rfl
  | agcMute => exact .singleton txOwns .env
  | dcbStep k opa => exact .singleton txOwns (.dcb k)
  | apStep k opa => exact .singleton txOwns (.ap k)
  | firStep k opa => exact .singleton txOwns (.fir k)
  | maStep k opa => exact .singleton txOwns (.ma k)
  | agcStep opa => exact .singleton txOwns .env
  | _ => exact .empty txPieces

section

variable {c : Set Piece} {touches : Instr → Bool} (htells : ∀ i, TellsInside c (touches i) (footprint i))
include htells

/-- A presented word whose command does not work on `c`, or that is illegal, leaves `c`. -/
theorem agreeOn_after_of_not_touches {tr : Transaction} (h : ¬ decodesTo touches tr = true) (s : State) :
    AgreeOn c (after tr s) s := by
  by_cases hdec : ∃ i, decode tr = .ok i
  · obtain ⟨i, hi⟩ := hdec
    rw [decodesTo_of_decode hi, Bool.not_eq_true] at h
    exact exec_frame ((htells i).outside h) (exec_after hi s)
  · rw [after_of_not_decode hdec]
    exact .illegalCommand c s

/-- A presented command that works on `c` does the same in states that agree on it. -/
theorem after_determined_of_touches {tr : Transaction} (h : decodesTo touches tr = true) {s t : State}
    (hst : AgreeOn c s t) :
    ((after tr s).resa, (after tr s).resb) = ((after tr t).resa, (after tr t).resb) ∧ AgreeOn c (after tr s) (after tr t) := by
  by_cases hdec : ∃ i, decode tr = .ok i
  · obtain ⟨i, hi⟩ := hdec
    rw [decodesTo_of_decode hi] at h
    obtain ⟨hne, hsub⟩ := (htells i).inside h
    exact exec_determined hne hsub hst (exec_after hi s) (exec_after hi t)
  · rw [decodesTo_of_not_decode hdec] at h
    exact absurd h Bool.false_ne_true

/-- Noninterference: states that agree on `c` stay so along a list and along what is left of it without the commands that
do not work on `c`. -/
theorem results_filter_of_agreeOn {p : Instr → Bool} (hp : ∀ tr, decodesTo p tr = true → decodesTo touches tr = true)
    (ts : List Transaction) {s t : State} (hst : AgreeOn c s t) :
    results p ts s = results p (ts.filter (decodesTo touches)) t := by
  induction ts generalizing s t with
  | nil => rfl
  | cons tr ts ih =>
    by_cases htouch : decodesTo touches tr = true
    · obtain ⟨hres, hnext⟩ := after_determined_of_touches htells htouch hst
      rw [List.filter_cons_of_pos htouch]
      by_cases hseen : decodesTo p tr = true
      · rw [results_cons_of_pos hseen, results_cons_of_pos hseen, hres, ih hnext]
      · rw [results_cons_of_neg hseen, results_cons_of_neg hseen, ih hnext]
    · rw [List.filter_cons_of_neg htouch, results_cons_of_neg (mt (hp tr) htouch)]
      exact ih ((agreeOn_after_of_not_touches htells htouch s).trans hst)

end

/-- A word that decodes to a command of the one kind decodes to one of the other. -/
theorem decodesTo_mono {p q : Instr → Bool} (h : ∀ i, p i = true → q i = true) (tr : Transaction)
    (htr : decodesTo p tr = true) : decodesTo q tr = true := by
  unfold decodesTo at htr ⊢
  split at htr
  · exact h _ htr
  · exact absurd htr Bool.false_ne_true

theorem touchesRx_of_isRxSample (i : Instr) (h : isRxSample i = true) : touchesRx i = true := by
  cases i with
  | rxSample mode opa opb => rfl
  | _ => exact absurd h Bool.false_ne_true

theorem touchesTx_of_isTxSample (i : Instr) (h : isTxSample i = true) : touchesTx i = true := by
  cases i with
  | txSample opa => rfl
  | _ => exact absurd h Bool.false_ne_true

/-- Without unit steps, `TX_SAMPLE` alone writes transmit state (70_reset_and_hazards.md rule R285). -/
theorem touchesTx_eq_isTxSample_of_noUnitStep {tr : Transaction} (h : noUnitStep tr) :
    decodesTo touchesTx tr = decodesTo isTxSample tr := by
  unfold noUnitStep at h
  by_cases hdec : ∃ i, decode tr = .ok i
  · obtain ⟨i, hi⟩ := hdec
    rw [decodesTo_of_decode hi, Bool.or_eq_false_iff] at h
    rw [decodesTo_of_decode hi, decodesTo_of_decode hi]
    cases hsample : isTxSample i with
    | true => exact touchesTx_of_isTxSample i hsample
    | false => simpa [hsample] using h.2
  · rw [decodesTo_of_not_decode hdec, decodesTo_of_not_decode hdec]

/-! Steps. -/

/-- A presented word leads to the state `after` names, legal or not (60_exceptions.md rules R250, R251). -/
theorem perform_completes (tr : Transaction) (s : State) : ∃ t, perform tr s = .next t :=
  ⟨_, perform_withInput tr s s.input⟩

theorem step_completes (s : State) : completes s := by
  match hin : s.input with
  | [] => exact ⟨s, Scope.nothingPresentedNothingHappens s hin⟩
  | .reset lost :: rest => exact ⟨_, step_reset hin⟩
  | .command tr :: rest =>
    obtain ⟨t, ht⟩ := perform_completes tr (s.withInput rest)
    exact ⟨t, (step_command hin).trans ht⟩

end Sys2Proof.Machine

/-! The statements about isolation, illegal commands and completion. -/

namespace Sys2Proof.Scope

open Machine

/-- Settles O31: `RX_SAMPLE` works on the receive chain's pieces, and a command left out works on none of them. -/
theorem receiveChainIsolated : Obligations.ReceiveChainIsolated := by
  unfold Obligations.ReceiveChainIsolated
  exact fun ts s =>
    results_filter_of_agreeOn touchesRx_tellsInside (decodesTo_mono touchesRx_of_isRxSample) ts (.refl rxPieces s)

/-- Settles O32: the same for the transmit chain; without unit steps the two filters keep the same commands. -/
theorem transmitChainIsolated : Obligations.TransmitChainIsolated := by
  unfold Obligations.TransmitChainIsolated
  intro ts s
  have hisolated := results_filter_of_agreeOn touchesTx_tellsInside (decodesTo_mono touchesTx_of_isTxSample) ts
    (.refl txPieces s)
  refine ⟨hisolated, fun hduty => ?_⟩
  rwa [List.filter_congr fun tr htr => touchesTx_eq_isTxSample_of_noUnitStep (hduty tr htr)] at hisolated

/-- Settles O8: the word is taken off the stream, decodes to nothing, and so is an illegal command. -/
theorem illegalCommandRecordsOnlyIll : Obligations.IllegalCommandRecordsOnlyIll := by
  unfold Obligations.IllegalCommandRecordsOnlyIll
  intro s tr rest hin hill
  have hdec := mt (exists_decode_iff_legalWord tr).mp hill
  exact (step_command hin).trans (perform_of_not_decode hdec _)

/-- Settles O11: every arm of `exec` answers a next state, and so does a step with nothing presented or a reset. -/
theorem everyStepCompletes : Obligations.EveryStepCompletes := by
  unfold Obligations.EveryStepCompletes
  exact ⟨exec_completes, step_completes⟩

end Sys2Proof.Scope

/-! Building a block and asserting its reset: both lead to the reset state under a configuration (00_scope.md rule R16,
70_reset_and_hazards.md rules R280 and R282). -/

namespace Sys2Proof.Machine

/-- A block is built of a well-formed configuration alone, and starts in the reset state. -/
theorem build_eq_next_iff (c : Cfg) (s : State) :
    State.build c = .next s ↔ c.wf = true ∧ s = { State.reset with cfg := c } := by
  cases hwf : c.wf with
  | true => simp [build_wf c hwf, eq_comm]
  | false => simp [build_illFormed c hwf]

end Sys2Proof.Machine

namespace Sys2Proof.Scope

open Machine

/-- Settles O9: a step takes the reset event off the stream, and the command lost with it has no part in the next state. -/
theorem resetTakesPrecedence : Obligations.ResetTakesPrecedence := by
  unfold Obligations.ResetTakesPrecedence
  exact fun _ _ _ hin => step_reset hin

/-- Settles O35: a built block is in the reset state of a well-formed configuration. -/
theorem invariantHoldsWhenBuilt : Obligations.InvariantHoldsWhenBuilt := by
  unfold Obligations.InvariantHoldsWhenBuilt
  intro c s hbuild henv
  obtain ⟨hwf, rfl⟩ := (build_eq_next_iff c s).mp hbuild
  exact Safety.inv_reset_with hwf henv State.reset.input

end Sys2Proof.Scope
